-- ==== Sys2Proof/Word.lean ====
section
/-! DEFINITION. The words of the block (R10), the sample type as a bit pattern (R11, R231) and the
command packet as three words (R81). -/

namespace Sys2Proof

/-- A word is 32 bits, bit 0 the least significant (R10). -/
abbrev Word := BitVec 32

/-- Eight bits of a serialised packet (R63). -/
abbrev Byte := BitVec 8

/-- A `Sample` is an IEEE 754 binary32 value, held as its bit pattern: bit 31 the sign, bits 30:23
the biased exponent, bits 22:0 the fraction (R11, R231). -/
abbrev Sample := BitVec 32

/-- The command packet `{W2, W1, W0}` (R81): the header and the two operand words. -/
structure Packet where
  w0 : Word
  w1 : Word
  w2 : Word
deriving DecidableEq, Repr

end Sys2Proof
end

