-- ==== Sys2Proof/Syntax.lean ====
section
/-! DEFINITION. The 23 commands of R86, one constructor for each row of spec/opcode_table.json.
Register-like selectors are the header's bits as R83 and the masks of R87 give them; operands are the
operand words read as samples (R82). An operand word a command does not use is no part of it (R82). -/

namespace Sys2Proof

/-- The commands (R86). -/
inductive Instr where
  /-- `NOP` (R220). -/
  | nop
  /-- `PREPARE A` (R221): `a` the sample rate. -/
  | prepare (a : Sample)
  /-- `RDERR` (R222). -/
  | rderr
  /-- `OSC.SETFREQ i, A` (R110). -/
  | oscSetfreq (i : BitVec 2) (a : Sample)
  /-- `OSC.SETWAVE i, A` (R111). -/
  | oscSetwave (i : BitVec 2) (a : Sample)
  /-- `OSC.PROC i` (R123). -/
  | oscProc (i : BitVec 2)
  /-- `OSC.PROCFM i, A, B` (R124): `a` is fmInput, `b` fmAmount. -/
  | oscProcfm (i : BitVec 2) (a b : Sample)
  /-- `OSC.PROCPM i, A` (R125): `a` in semitones. -/
  | oscProcpm (i : BitVec 2) (a : Sample)
  /-- `OSC.SYNC i` (R126). -/
  | oscSync (i : BitVec 2)
  /-- `OSC.CYCLE i` (R127). -/
  | oscCycle (i : BitVec 2)
  /-- `OSC.SYNCIF s, m` (R128): `slave` is UNIT, `master` is X. -/
  | oscSyncif (slave master : BitVec 2)
  /-- `ENV.SETDECAY j, A` (R150): `a` in seconds. -/
  | envSetdecay (j : BitVec 2) (a : Sample)
  /-- `ENV.TRIG j, A` (R151): `a` the velocity. -/
  | envTrig (j : BitVec 2) (a : Sample)
  /-- `ENV.PROC j` (R152). -/
  | envProc (j : BitVec 2)
  /-- `ENV.ACTIVE j` (R153). -/
  | envActive (j : BitVec 2)
  /-- `VCF.SETCUT A` (R170): `a` in Hz. -/
  | vcfSetcut (a : Sample)
  /-- `VCF.SETRES A` (R171). -/
  | vcfSetres (a : Sample)
  /-- `VCF.SETMODE LP|HP` (R172): `m` is header bit 16. -/
  | vcfSetmode (m : BitVec 1)
  /-- `VCF.PROC A` (R173): `a` the input sample. -/
  | vcfProc (a : Sample)
  /-- `MM.SETSLOT s, src, dst, A` (R190). -/
  | mmSetslot (slot : BitVec 2) (src dst : BitVec 4) (a : Sample)
  /-- `MM.SETSRC n, A` (R191): `n` is the whole UNIT field. -/
  | mmSetsrc (n : BitVec 4) (a : Sample)
  /-- `MM.EVAL` (R195). -/
  | mmEval
  /-- `MM.READ d` (R196): `d` is the Y field. -/
  | mmRead (d : BitVec 4)
deriving DecidableEq, Repr

end Sys2Proof
end

