-- ==== Sys2Proof/WellFormed.lean ====
section
/-! DEFINITION. The range checks of R90: which commands that match a row of the table are legal. -/

namespace Sys2Proof

/-- `UNIT` of an `OSC.*` or `ENV.*` command, and `X` of `OSC.SYNCIF`, must be 0, 1 or 2 (R90). -/
def instanceInRange (u : BitVec 2) : Bool := decide (u.toNat < 3)

/-- `UNIT` of `MM.SETSRC` must be 1, 2, 3, 4 or 5 (R90). -/
def sourceInputInRange (n : BitVec 4) : Bool := decide (1 ≤ n.toNat) && decide (n.toNat ≤ 5)

/-- The range checks of R90. The codes of `MM.SETSLOT` and `MM.READ` have none: all 16 values are
accepted. -/
def Instr.wellFormed : Instr → Bool
  | .nop => true
  | .prepare _ => true
  | .rderr => true
  | .oscSetfreq i _ => instanceInRange i
  | .oscSetwave i _ => instanceInRange i
  | .oscProc i => instanceInRange i
  | .oscProcfm i _ _ => instanceInRange i
  | .oscProcpm i _ => instanceInRange i
  | .oscSync i => instanceInRange i
  | .oscCycle i => instanceInRange i
  | .oscSyncif s m => instanceInRange s && instanceInRange m
  | .envSetdecay j _ => instanceInRange j
  | .envTrig j _ => instanceInRange j
  | .envProc j => instanceInRange j
  | .envActive j => instanceInRange j
  | .vcfSetcut _ => true
  | .vcfSetres _ => true
  | .vcfSetmode _ => true
  | .vcfProc _ => true
  | .mmSetslot _ _ _ _ => true
  | .mmSetsrc n _ => sourceInputInRange n
  | .mmEval => true
  | .mmRead _ => true

end Sys2Proof
end

