-- ==== Sys2Proof/Decode.lean ====
section
/-! DEFINITION. The decoder (R87, R90, R91) and, after it, the encoder (R83, R86). Decoding is total:
a packet is a command, or is refused by name. The byte forms follow R63. -/

namespace Sys2Proof

/-! ### Header fields (R83) -/

/-- `UNIT[1:0]`, for the commands whose mask forces `UNIT` below 4 (R87). -/
def hdrUnit2 (w0 : Word) : BitVec 2 := w0.extractLsb' 20 2
/-- `UNIT`, header bits 23:20. -/
def hdrUnit (w0 : Word) : BitVec 4 := w0.extractLsb' 20 4
/-- `X[1:0]`. -/
def hdrX2 (w0 : Word) : BitVec 2 := w0.extractLsb' 16 2
/-- `X`, header bits 19:16. -/
def hdrX (w0 : Word) : BitVec 4 := w0.extractLsb' 16 4
/-- `X[0]`, the mode bit of `VCF.SETMODE`. -/
def hdrX0 (w0 : Word) : BitVec 1 := w0.extractLsb' 16 1
/-- `Y`, header bits 15:12. -/
def hdrY (w0 : Word) : BitVec 4 := w0.extractLsb' 12 4
/-- `OPC`, header bits 31:24. -/
def hdrOpc (w0 : Word) : BitVec 8 := w0.extractLsb' 24 8
/-- `ZERO`, header bits 11:0. -/
def hdrZero (w0 : Word) : BitVec 12 := w0.extractLsb' 0 12

/-! ### The table of R87 -/

/-- One row of the table of R87, with the reading of the packet once the row is selected. -/
structure Row where
  mnemonic : String
  pattern : Word
  mask : Word
  build : Packet → Instr

/-- The row is selected iff `(W0 & mask) == match` (R87). -/
def Row.selects (r : Row) (w0 : Word) : Bool := w0 &&& r.mask == r.pattern

/-- The system class of the table (R87). -/
def systemRows : List Row :=
  [ ⟨"NOP",     0x00000000, 0xFFFFFFFF, fun _ => .nop⟩,
    ⟨"PREPARE", 0x01000000, 0xFFFFFFFF, fun p => .prepare p.w1⟩,
    ⟨"RDERR",   0x02000000, 0xFFFFFFFF, fun _ => .rderr⟩ ]

/-- The oscillator class of the table (R87). -/
def oscRows : List Row :=
  [ ⟨"OSC.SETFREQ", 0x10000000, 0xFFCFFFFF, fun p => .oscSetfreq (hdrUnit2 p.w0) p.w1⟩,
    ⟨"OSC.SETWAVE", 0x11000000, 0xFFCFFFFF, fun p => .oscSetwave (hdrUnit2 p.w0) p.w1⟩,
    ⟨"OSC.PROC",    0x12000000, 0xFFCFFFFF, fun p => .oscProc (hdrUnit2 p.w0)⟩,
    ⟨"OSC.PROCFM",  0x13000000, 0xFFCFFFFF, fun p => .oscProcfm (hdrUnit2 p.w0) p.w1 p.w2⟩,
    ⟨"OSC.PROCPM",  0x14000000, 0xFFCFFFFF, fun p => .oscProcpm (hdrUnit2 p.w0) p.w1⟩,
    ⟨"OSC.SYNC",    0x15000000, 0xFFCFFFFF, fun p => .oscSync (hdrUnit2 p.w0)⟩,
    ⟨"OSC.CYCLE",   0x16000000, 0xFFCFFFFF, fun p => .oscCycle (hdrUnit2 p.w0)⟩,
    ⟨"OSC.SYNCIF",  0x17000000, 0xFFCCFFFF, fun p => .oscSyncif (hdrUnit2 p.w0) (hdrX2 p.w0)⟩ ]

/-- The envelope class of the table (R87). -/
def envRows : List Row :=
  [ ⟨"ENV.SETDECAY", 0x20000000, 0xFFCFFFFF, fun p => .envSetdecay (hdrUnit2 p.w0) p.w1⟩,
    ⟨"ENV.TRIG",     0x21000000, 0xFFCFFFFF, fun p => .envTrig (hdrUnit2 p.w0) p.w1⟩,
    ⟨"ENV.PROC",     0x22000000, 0xFFCFFFFF, fun p => .envProc (hdrUnit2 p.w0)⟩,
    ⟨"ENV.ACTIVE",   0x23000000, 0xFFCFFFFF, fun p => .envActive (hdrUnit2 p.w0)⟩ ]

/-- The ladder filter class of the table (R87). -/
def vcfRows : List Row :=
  [ ⟨"VCF.SETCUT",  0x30000000, 0xFFFFFFFF, fun p => .vcfSetcut p.w1⟩,
    ⟨"VCF.SETRES",  0x31000000, 0xFFFFFFFF, fun p => .vcfSetres p.w1⟩,
    ⟨"VCF.SETMODE", 0x32000000, 0xFFFEFFFF, fun p => .vcfSetmode (hdrX0 p.w0)⟩,
    ⟨"VCF.PROC",    0x33000000, 0xFFFFFFFF, fun p => .vcfProc p.w1⟩ ]

/-- The modulation matrix class of the table (R87). -/
def mmRows : List Row :=
  [ ⟨"MM.SETSLOT", 0x40000000, 0xFFC00FFF,
      fun p => .mmSetslot (hdrUnit2 p.w0) (hdrX p.w0) (hdrY p.w0) p.w1⟩,
    ⟨"MM.SETSRC",  0x41000000, 0xFF0FFFFF, fun p => .mmSetsrc (hdrUnit p.w0) p.w1⟩,
    ⟨"MM.EVAL",    0x42000000, 0xFFFFFFFF, fun _ => .mmEval⟩,
    ⟨"MM.READ",    0x43000000, 0xFFFF0FFF, fun p => .mmRead (hdrY p.w0)⟩ ]

/-- The match and mask table (R87), 23 rows. -/
def rows : List Row := systemRows ++ oscRows ++ envRows ++ vcfRows ++ mmRows

/-! ### Decoding (R91, R95 (1)) -/

/-- Why bytes are no command. -/
inductive DecodeError where
  /-- Fewer than the 12 bytes of one packet: not a command (R64). -/
  | partialPacket
  /-- `W0` matches no row of R87: an opcode that is no command, or a non-zero reserved or unused
  header field (R91). -/
  | noRow
  /-- A row matches and a range check of R90 fails (R91). -/
  | rangeCheck
deriving DecidableEq, Repr

/-- What decoding answers. -/
inductive Decoded where
  | instr (i : Instr)
  | refused (e : DecodeError)
deriving DecidableEq, Repr

/-- The row that `W0` selects, if any (R87). -/
def selectRow (w0 : Word) : Option Row := rows.find? (·.selects w0)

/-- Step (1) of R95: match `W0` against R87, then apply R90. Operand words are not examined (R91). -/
def decodePacket (p : Packet) : Decoded :=
  match selectRow p.w0 with
  | none => .refused .noRow
  | some r => if (r.build p).wellFormed then .instr (r.build p) else .refused .rangeCheck

/-- A word from its four bytes, least significant byte first (R63). -/
def wordOfBytes (b0 b1 b2 b3 : Byte) : Word := b3 ++ b2 ++ b1 ++ b0

/-- The four bytes of a word, least significant byte first (R63). -/
def bytesOfWord (w : Word) : List Byte :=
  [w.extractLsb' 0 8, w.extractLsb' 8 8, w.extractLsb' 16 8, w.extractLsb' 24 8]

/-- The 12 bytes of a packet: words in ascending order (R63). -/
def packetToBytes (p : Packet) : List Byte := bytesOfWord p.w0 ++ bytesOfWord p.w1 ++ bytesOfWord p.w2

/-- The packet at the head of a byte sequence, and the bytes after it (R63). -/
def packetOfBytes : List Byte → Option (Packet × List Byte)
  | a0 :: a1 :: a2 :: a3 :: b0 :: b1 :: b2 :: b3 :: c0 :: c1 :: c2 :: c3 :: rest =>
    some (⟨wordOfBytes a0 a1 a2 a3, wordOfBytes b0 b1 b2 b3, wordOfBytes c0 c1 c2 c3⟩, rest)
  | _ => none

/-- Decoding of any bytes: the command at their head with the bytes after it, or the refusal. A
partial packet is not a command and consumes nothing (R64). -/
def decodeBytes (bs : List Byte) : Decoded × List Byte :=
  match packetOfBytes bs with
  | none => (.refused .partialPacket, bs)
  | some (p, rest) => (decodePacket p, rest)

/-- The packet whose bits, numbered as spec/opcode_table.json numbers them, are the low `nbits` bits
of `w`; every bit above is 0. -/
def packetOfTableWord (nbits w : Nat) : Packet :=
  let v := w % 2 ^ nbits
  ⟨BitVec.ofNat 32 v, BitVec.ofNat 32 (v / 2 ^ 32), BitVec.ofNat 32 (v / 2 ^ 64)⟩

/-- The instruction the decoder reads from a table word, laid out in bytes as R63 says. -/
def decodeTableWord (nbits w : Nat) : Option Instr :=
  match decodeBytes (packetToBytes (packetOfTableWord nbits w)) with
  | (.instr i, _) => some i
  | (.refused _, _) => none

/-! ### Encoding (R83, R86): written from the encodings of the command rules -/

/-- The header `{OPC, UNIT, X, Y, ZERO}` with `ZERO` = 0 (R83). -/
def header (opc : BitVec 8) (unit x y : BitVec 4) : Word := opc ++ unit ++ x ++ y ++ 0#12

/-- `W0` of a command, from R83 and the opcodes of R86. -/
def encodeHeader : Instr → Word
  | .nop => header 0x00 0 0 0
  | .prepare _ => header 0x01 0 0 0
  | .rderr => header 0x02 0 0 0
  | .oscSetfreq i _ => header 0x10 (i.setWidth 4) 0 0
  | .oscSetwave i _ => header 0x11 (i.setWidth 4) 0 0
  | .oscProc i => header 0x12 (i.setWidth 4) 0 0
  | .oscProcfm i _ _ => header 0x13 (i.setWidth 4) 0 0
  | .oscProcpm i _ => header 0x14 (i.setWidth 4) 0 0
  | .oscSync i => header 0x15 (i.setWidth 4) 0 0
  | .oscCycle i => header 0x16 (i.setWidth 4) 0 0
  | .oscSyncif s m => header 0x17 (s.setWidth 4) (m.setWidth 4) 0
  | .envSetdecay j _ => header 0x20 (j.setWidth 4) 0 0
  | .envTrig j _ => header 0x21 (j.setWidth 4) 0 0
  | .envProc j => header 0x22 (j.setWidth 4) 0 0
  | .envActive j => header 0x23 (j.setWidth 4) 0 0
  | .vcfSetcut _ => header 0x30 0 0 0
  | .vcfSetres _ => header 0x31 0 0 0
  | .vcfSetmode m => header 0x32 0 (m.setWidth 4) 0
  | .vcfProc _ => header 0x33 0 0 0
  | .mmSetslot s src dst _ => header 0x40 (s.setWidth 4) src dst
  | .mmSetsrc n _ => header 0x41 n 0 0
  | .mmEval => header 0x42 0 0 0
  | .mmRead d => header 0x43 0 0 d

/-- `W1` of a command: operand A where the command uses it, else 0 (R82, R86, R93). -/
def encodeA : Instr → Word
  | .prepare a => a
  | .oscSetfreq _ a => a
  | .oscSetwave _ a => a
  | .oscProcfm _ a _ => a
  | .oscProcpm _ a => a
  | .envSetdecay _ a => a
  | .envTrig _ a => a
  | .vcfSetcut a => a
  | .vcfSetres a => a
  | .vcfProc a => a
  | .mmSetslot _ _ _ a => a
  | .mmSetsrc _ a => a
  | .nop => 0
  | .rderr => 0
  | .oscProc _ => 0
  | .oscSync _ => 0
  | .oscCycle _ => 0
  | .oscSyncif _ _ => 0
  | .envProc _ => 0
  | .envActive _ => 0
  | .vcfSetmode _ => 0
  | .mmEval => 0
  | .mmRead _ => 0

/-- `W2` of a command: operand B, which `OSC.PROCFM` alone uses, else 0 (R82, R86, R93). -/
def encodeB : Instr → Word
  | .oscProcfm _ _ b => b
  | .nop => 0
  | .prepare _ => 0
  | .rderr => 0
  | .oscSetfreq _ _ => 0
  | .oscSetwave _ _ => 0
  | .oscProc _ => 0
  | .oscProcpm _ _ => 0
  | .oscSync _ => 0
  | .oscCycle _ => 0
  | .oscSyncif _ _ => 0
  | .envSetdecay _ _ => 0
  | .envTrig _ _ => 0
  | .envProc _ => 0
  | .envActive _ => 0
  | .vcfSetcut _ => 0
  | .vcfSetres _ => 0
  | .vcfSetmode _ => 0
  | .vcfProc _ => 0
  | .mmSetslot _ _ _ _ => 0
  | .mmSetsrc _ _ => 0
  | .mmEval => 0
  | .mmRead _ => 0

/-- The packet of a command (R81). -/
def encode (i : Instr) : Packet := ⟨encodeHeader i, encodeA i, encodeB i⟩

/-! ### The pseudo-commands of R94 -/

/-- `MM.CLRSLOT s` is `MM.SETSLOT s, OFF, OFF, 0.0` (R94). -/
def pseudoClrslot (s : BitVec 2) : Instr := .mmSetslot s 0 0 0
/-- `VCF.LP` is `VCF.SETMODE LP` (R94). -/
def pseudoLp : Instr := .vcfSetmode 0
/-- `VCF.HP` is `VCF.SETMODE HP` (R94). -/
def pseudoHp : Instr := .vcfSetmode 1
/-- `OSC.HARDSYNC slave, master` is `OSC.SYNCIF slave, master` (R94). -/
def pseudoHardsync (slave master : BitVec 2) : Instr := .oscSyncif slave master

end Sys2Proof
end

