-- ==== Sys2Proof/Config.lean ====
section
/-! DEFINITION. The open parameters of the spec (R9, R42), as uninterpreted constants: no body, so
nothing can be proved about a value of theirs. The properties the spec lists for a parameter are
built in where the constant is used (Machine/Num.lean, Machine/Wave.lean): there the constant is
only the part of the parameter that the spec leaves free. The fixed parameters of R7 stand last. -/

namespace Sys2Proof.Config

/-! ### The five elementary functions of NUM (R236 to R240; log entries 6, 7 and 13) -/

/-- The values of `NUM.sin`, before the range of R236 is imposed. -/
opaque sinRaw : Sample → Sample

/-- The rise of `NUM.tan` over its interval (R237): a non-decreasing function of the argument's
magnitude bits, by its type. -/
opaque tanRise : ℕ →o ℕ

/-- The values of `NUM.tan` outside the interval of R237, of which "nothing is assumed". -/
opaque tanElsewhere : Sample → Sample

/-- The rise of `NUM.tanh` over the non-negative arguments (R238): non-decreasing by its type. -/
opaque tanhRise : ℕ →o ℕ

/-- The fall of `NUM.pow(0.001, y)` over `y > 0` (R239): how far below 1 the value lies, in units of
the last place of its bit pattern, non-decreasing by its type. -/
opaque powFall : ℕ →o ℕ

/-- The values of `NUM.pow` off the one use R239 lists properties for. -/
opaque powElsewhere : Sample → Sample → Sample

/-- The rise of `NUM.exp2` above 1 over the positive arguments (R240): non-decreasing by its type. -/
opaque exp2Rise : ℕ →o ℕ

/-- The fall of `NUM.exp2` below 1 over the negative arguments (R240): non-decreasing in the
argument's magnitude by its type. -/
opaque exp2Fall : ℕ →o ℕ

/-! ### The waveforms (R115 to R119; log entry 4) -/

/-- The values of `WAVE.sine`, before the range of R119 is imposed. -/
opaque sineRaw : Sample → Sample

/-- The values of `WAVE.tri`, before the range of R119 is imposed. -/
opaque triRaw : Sample → Sample

/-- The values of `WAVE.square`, before the range of R119 is imposed. -/
opaque squareRaw : Sample → Sample

/-- The values of `WAVE.chaos`, before the range of R119 is imposed (R118: open). -/
opaque chaosRaw : Sample → Sample

/-! ### The remaining open parameters -/

/-- `OSC_BACKWARD_WRAP_SETS_CYC` (R9, R122 (c); log entry 5): whether a backward wrap sets the
cycle flag. -/
opaque oscBackwardWrapSetsCyc : Bool

/-- The sequence `RAND` (R17, R203; log entry 3): element `n` is the free value of the `n`-th draw,
before the range of R203 is imposed. -/
opaque randRaw : Nat → Sample

/-- The entries of `MM_SCALE[d]` for which the source gives no factor (R9, R207; log entry 12), by
destination code. No command reads one. -/
opaque mmScaleOpen : BitVec 4 → ℝ

/-! ### Fixed parameters (R7) -/

/-- `N_OSC`: OSC0, OSC1, OSC2 (R7). -/
def nOsc : Nat := 3
/-- `N_ENV`: ENV0, ENV1, ENV2 (R7). -/
def nEnv : Nat := 3
/-- `N_SLOT` (R7). -/
def nSlot : Nat := 4
/-- `N_DST` (R7). -/
def nDst : Nat := 12
/-- `N_SRC` (R7). -/
def nSrc : Nat := 6
/-- `N_STAGE` (R7). -/
def nStage : Nat := 4
/-- `CMD_BITS`: the command packet is 96 bits (R7, R80). -/
def cmdBits : Nat := 96
/-- `RSP_BITS`: the response packet is 64 bits (R7, R84). -/
def rspBits : Nat := 64

end Sys2Proof.Config
end

