-- ==== Sys2Proof/Machine/Binary32.lean ====
section
/-! DEFINITION. The arithmetic of `NUM_F32` (R230 to R235, R241, R242; log entries 9 and 10): IEEE 754
binary32, round to nearest with ties to even, gradual underflow.

Every finite binary32 value is an integer multiple of 2^-149, so a finite sample is read as that
integer (`value`), an operation is exact on integers, and `roundMag` rounds once (R232). -/

namespace Sys2Proof.F32

/-! ### The parts of a pattern (R231) -/

/-- Bit 31, the sign. -/
def signBit (x : Sample) : Bool := decide (2 ^ 31 ≤ x.toNat)

/-- Bits 30:0, exponent and fraction: as a number they are ordered as the magnitudes are. -/
def magBits (x : Sample) : Nat := x.toNat % 2 ^ 31

/-- The magnitude bits of an infinity: exponent field 255, fraction 0. -/
def infBits : Nat := 0x7F800000

/-- `finite(x)` (R12): neither NaN nor an infinity. -/
def finite (x : Sample) : Bool := decide (magBits x < infBits)

/-- A NaN: exponent field 255, fraction not 0. -/
def isNaN (x : Sample) : Bool := decide (infBits < magBits x)

/-- An infinity of either sign. -/
def isInf (x : Sample) : Bool := decide (magBits x = infBits)

/-- A zero of either sign. -/
def isZero (x : Sample) : Bool := decide (magBits x = 0)

/-- The pattern with sign `neg` and magnitude bits `m`. -/
def pack (neg : Bool) (m : Nat) : Sample := BitVec.ofNat 32 (m + if neg then 2 ^ 31 else 0)

/-- The NaN that an invalid operation answers. Its pattern never reaches a state element or a
result of a state that meets the invariant of Safety.lean (R243; log entry 9). -/
def nan : Sample := 0x7FC00000#32

/-- The magnitude that finite magnitude bits stand for, in units of 2^-149: with exponent field `f`
the significand times `2^(f-1)`, and with `f = 0` the fraction itself (a subnormal, R242). -/
def magnitude (b : Nat) : Nat :=
  let e := b / 2 ^ 23 - 1
  (b - e * 2 ^ 23) * 2 ^ e

/-- The value of a finite sample, in units of 2^-149. -/
def value (x : Sample) : Int :=
  if signBit x then -(magnitude (magBits x) : Int) else (magnitude (magBits x) : Int)

/-! ### Rounding (R232) -/

/-- `n / d` rounded to the nearest integer, ties to even. -/
def roundQuot (n d : Nat) : Nat :=
  let q := n / d
  let r := n % d
  if 2 * r < d then q else if d < 2 * r then q + 1 else q + q % 2

/-- The magnitude bits of the binary32 nearest to `n / d` units of 2^-149, ties to even: the exponent
is the least that leaves a significand below 2^24, and a magnitude past the largest finite one is an
infinity. -/
def roundMag (n d : Nat) : Nat :=
  let e := Nat.log2 (n / d) - 23
  min infBits (e * 2 ^ 23 + roundQuot n (d * 2 ^ e))

/-! ### The four operations (R232) -/

/-- The opposite sign, the same magnitude. -/
def neg (x : Sample) : Sample := pack (!signBit x) (magBits x)

/-- `a + b`. An exact zero sum is -0 only for two negative zeros. -/
def add (a b : Sample) : Sample :=
  if isNaN a || isNaN b then nan
  else if isInf a then (if isInf b && (signBit a != signBit b) then nan else a)
  else if isInf b then b
  else
    let v := value a + value b
    if v = 0 then pack (signBit a && signBit b) 0
    else pack (decide (v < 0)) (roundMag v.natAbs 1)

/-- `a - b`. -/
def sub (a b : Sample) : Sample := add a (neg b)

/-- `a * b`. -/
def mul (a b : Sample) : Sample :=
  let s := signBit a != signBit b
  if isNaN a || isNaN b then nan
  else if isInf a || isInf b then (if isZero a || isZero b then nan else pack s infBits)
  else pack s (roundMag (magnitude (magBits a) * magnitude (magBits b)) (2 ^ 149))

/-- `a / b`. -/
def div (a b : Sample) : Sample :=
  let s := signBit a != signBit b
  if isNaN a || isNaN b then nan
  else if isInf a then (if isInf b then nan else pack s infBits)
  else if isInf b then pack s 0
  else if isZero b then (if isZero a then nan else pack s infBits)
  else pack s (roundMag (magnitude (magBits a) * 2 ^ 149) (magnitude (magBits b)))

/-! ### Comparison, `min`, `max`, `clamp` (R234, R12) -/

/-- The place of a sample that is no NaN in the order of the values; both zeros are at 0. -/
def key (x : Sample) : Int := if signBit x then -(magBits x : Int) else (magBits x : Int)

/-- `a <= b`; false with a NaN. -/
def le (a b : Sample) : Bool := !isNaN a && !isNaN b && decide (key a ≤ key b)

/-- `a < b`; false with a NaN. -/
def lt (a b : Sample) : Bool := !isNaN a && !isNaN b && decide (key a < key b)

/-- `max(a, b)` returns a if `a >= b` else b (R234). -/
def fmax (a b : Sample) : Sample := if le b a then a else b

/-- `min(a, b)` returns a if `a <= b` else b (R234). -/
def fmin (a b : Sample) : Sample := if le a b then a else b

/-- `clamp(x, lo, hi) = min(max(x, lo), hi)` (R12): the upper bound wins. -/
def clamp (x lo hi : Sample) : Sample := fmin (fmax x lo) hi

/-- `lo <= x <= hi`. -/
def within (lo hi x : Sample) : Bool := le lo x && le x hi

/-! ### `floor` and `wrap1` (R235, R241, R12) -/

/-- The largest integer not above a finite sample (R235). -/
def floorInt (x : Sample) : Int := value x / 2 ^ 149

/-- `floor(x)` as a sample (R235), exact; the integer 0 is +0.0 (R244; log entry 10). -/
def floor (x : Sample) : Sample :=
  if finite x then
    pack (decide (floorInt x < 0)) (roundMag ((floorInt x).natAbs * 2 ^ 149) 1)
  else x

/-! ### Constants (R233): the binary32 nearest to each decimal literal of a rule -/

/-- The binary32 nearest to the decimal `digits * 10^-places` (R93, R233). -/
def ofDecimal (neg : Bool) (digits places : Nat) : Sample :=
  pack neg (roundMag (digits * 2 ^ 149) (10 ^ places))

/-- 0, written as +0.0. -/
def c0 : Sample := 0x00000000#32
/-- 1. -/
def c1 : Sample := 0x3F800000#32
/-- -1. -/
def cNeg1 : Sample := 0xBF800000#32
/-- 2. -/
def c2 : Sample := 0x40000000#32
/-- 4. -/
def c4 : Sample := 0x40800000#32
/-- -4. -/
def cNeg4 : Sample := 0xC0800000#32
/-- 12, the semitones of an octave (R8). -/
def c12 : Sample := 0x41400000#32
/-- 20, the lower cutoff bound in Hz (R8). -/
def c20 : Sample := 0x41A00000#32
/-- 50, the rate of the random source in Hz (R35). -/
def c50 : Sample := 0x42480000#32
/-- 128, from which `exp2` is +Inf (R240). -/
def c128 : Sample := 0x43000000#32
/-- -149, below which `exp2` may be 0 (R240). -/
def cNeg149 : Sample := 0xC3150000#32
/-- 2^-126, the least sample above 0 that is not subnormal (R242). -/
def minNormal : Sample := 0x00800000#32
/-- 0.25. -/
def c0_25 : Sample := 0x3E800000#32
/-- 0.33 (R233). -/
def c0_33 : Sample := 0x3EA8F5C3#32
/-- 0.34 (R233). -/
def c0_34 : Sample := 0x3EAE147B#32
/-- 0.45 (R233). -/
def c0_45 : Sample := 0x3EE66666#32
/-- 0.5. -/
def c0_5 : Sample := 0x3F000000#32
/-- 0.66 (R233). -/
def c0_66 : Sample := 0x3F28F5C3#32
/-- 0.75. -/
def c0_75 : Sample := 0x3F400000#32
/-- 0.001, the envelope floor ratio (R233). -/
def c0_001 : Sample := 0x3A83126F#32
/-- 0.0001, the envelope snap threshold (R233). -/
def c0_0001 : Sample := 0x38D1B717#32
/-- `PI` (R233). -/
def cPi : Sample := 0x40490FDB#32

/-- `wrap1(u)` (R12, R241): `u - floor(u)`, and 0 where that rounds up to 1. -/
def wrap1 (u : Sample) : Sample :=
  let r0 := sub u (floor u)
  if le c1 r0 then c0 else r0

/-- `lerp(a, b, t) = (1 - t) * a + t * b`, in this operation order (R12). -/
def lerp (a b t : Sample) : Sample := add (mul (sub c1 t) a) (mul t b)

/-- Both ends of the range of a waveform, a draw, an amount (R119, R203, R32): `-1 <= x <= 1`. -/
def inUnit (x : Sample) : Bool := within cNeg1 c1 x

/-- `x` where it lies in [-1,1], else 0: the values a parameter of range [-1,1] can take are exactly
the values of `restrictUnit`, whatever `x` may be. -/
def restrictUnit (x : Sample) : Sample := if inUnit x then x else c0

end Sys2Proof.F32
end

