-- ==== Sys2Proof/Machine/Num.lean ====
section
/-! DEFINITION. The five elementary functions of `NUM` (R236 to R240; log entries 6, 7 and 13). Each is
a total function whose values Config leaves free and on which the properties the spec lists, and no
others, are imposed. -/

namespace Sys2Proof.Num

open Sys2Proof.F32

/-- `NUM.sin` (R236): finite, in [-1,1], `sin(+0) = +0`; otherwise free. -/
def sin (x : Sample) : Sample := if x = c0 then c0 else restrictUnit (Config.sinRaw x)

/-- The last argument of the interval of R237, as magnitude bits: `PI * 0.45` in binary32 and two units
of the last place, which is how far "rounding of the product and the quotient" takes the arguments of
R170 at a rate that is not subnormal (log entry 7). -/
def tanTop : Nat := 0x3FB4F4AD

/-- The greatest value of `NUM.tan` on its interval, as magnitude bits: 2^24 - 1, the last `T` for which
`T / (1 + T)` is below 1 in binary32, as R30 and R170 say that it is (DEDUCED, log entry 7). -/
def tanMost : Nat := 0x4B7FFFFF

/-- `NUM.tan` (R237): on the interval 0 at 0, and positive, finite and non-decreasing above it; free
elsewhere. -/
def tan (x : Sample) : Sample :=
  if isZero x then x
  else if !signBit x && decide (magBits x ≤ tanTop) then
    pack false (1 + min (tanMost - 1) (Config.tanRise (magBits x)))
  else Config.tanElsewhere x

/-- The magnitude bits of `NUM.tanh` at a non-negative argument: 0 at 0, at most those of 1,
non-decreasing (R238). -/
def tanhMag (m : Nat) : Nat := if m = 0 then 0 else min (magBits c1) (Config.tanhRise m)

/-- `NUM.tanh` (R238): odd, in [-1,1], non-decreasing, `tanh(+0) = +0`. DESIGN CHOICE (log entry 16): so it
is at an infinite argument too, of which R238 lists nothing but the bound, and which it meets where the
unnamed `A - fb` of `VCF.PROC` overflows. -/
def tanh (x : Sample) : Sample := pack (signBit x) (tanhMag (magBits x))

/-- `NUM.pow` (R239): at `pow(0.001, y)`, `y > 0`, in [0,1] and non-increasing in `y`; free
elsewhere. -/
def pow (x y : Sample) : Sample :=
  if x = c0_001 && lt c0 y then
    pack false (magBits c1 - min (magBits c1) (Config.powFall (magBits y)))
  else Config.powElsewhere x y

/-- How far `NUM.exp2` may fall below 1 at a negative argument, in units of the last place: short of 0
from -149 on, and to 0 only below it (R240, R125). -/
def exp2FallMax (x : Sample) : Nat := if le cNeg149 x then magBits c1 - 1 else magBits c1

/-- `NUM.exp2` (R240): 1 at both zeros, +Inf from 128 on, above 0 from -149 on (R125), never negative,
non-decreasing. -/
def exp2 (x : Sample) : Sample :=
  if isZero x then c1
  else if le c128 x then pack false infBits
  else if signBit x then
    pack false (magBits c1 - min (exp2FallMax x) (Config.exp2Fall (magBits x)))
  else pack false (min infBits (magBits c1 + Config.exp2Rise (magBits x)))

end Sys2Proof.Num
end

