-- ==== Sys2Proof/Machine/State.lean ====
section
/-! DEFINITION. The architectural state (R20), the reasons a step can stop, and power-on reset (R40).
State is plain data. -/

namespace Sys2Proof.Machine

/-- Three like things: the oscillators, the envelopes (R7). -/
structure Bank3 (α : Type) where
  u0 : α
  u1 : α
  u2 : α
deriving DecidableEq, Repr

/-- Four like things: the filter's stages, the matrix's slots (R7). -/
structure Bank4 (α : Type) where
  u0 : α
  u1 : α
  u2 : α
  u3 : α
deriving DecidableEq, Repr

/-- The state of one oscillator (R26). -/
structure Osc where
  /-- Base frequency in Hz, as last set. -/
  freq : Sample
  /-- Phase increment, `freq / FS`. -/
  inc : Sample
  /-- Position within one cycle, in [0,1). -/
  phase : Sample
  /-- Waveform position, in [0,1]. -/
  morph : Sample
  /-- Whether the most recent process command wrapped the phase. -/
  cyc : Bool
deriving DecidableEq, Repr

/-- The state of one envelope (R28). -/
structure Env where
  /-- Current value, in [0,1]. -/
  value : Sample
  /-- Decay time in seconds, as last set. -/
  decay : Sample
  /-- Coefficient per sample, in [0,1]. -/
  coeff : Sample
  /-- The activity flag. -/
  active : Bool
deriving DecidableEq, Repr

/-- `VCF.mode`: bit value 0 is Lowpass, 1 is Highpass (R30). -/
inductive FilterMode where
  | lowpass
  | highpass
deriving DecidableEq, Repr

/-- The state of the ladder filter (R30). -/
structure Vcf where
  stage : Bank4 Sample
  cutoff : Sample
  res : Sample
  g : Sample
  k : Sample
  mode : FilterMode
deriving DecidableEq, Repr

/-- One slot record of the matrix, its codes as written (R32). -/
structure Slot where
  src : BitVec 4
  dst : BitVec 4
  amt : Sample
deriving DecidableEq, Repr

/-- The source inputs `srcin[1]` to `srcin[5]`, by their names in R88 (R33). -/
structure Srcin where
  lfo : Sample
  env0 : Sample
  env1 : Sample
  env2 : Sample
  vel : Sample
deriving DecidableEq, Repr

/-- The accumulators `acc[1]` to `acc[12]`, by their names in R89 (R34). -/
structure Acc where
  cutoff : Sample
  reso : Sample
  pitch1 : Sample
  pitch2 : Sample
  ringfreq : Sample
  pan : Sample
  level1 : Sample
  level2 : Sample
  vcadecay : Sample
  noisemod : Sample
  fenvdepth : Sample
  fmamt : Sample
deriving DecidableEq, Repr

/-- The state of the modulation matrix (R32 to R35). -/
structure Mm where
  slot : Bank4 Slot
  srcin : Srcin
  acc : Acc
  /-- The value the RANDOM source presents (R35). -/
  randHold : Sample
  /-- Evaluations since the last redraw (R35). -/
  randCtr : BitVec 32
deriving DecidableEq, Repr

/-- The complete state of the block (R20), and two fields of the model's own. -/
structure State where
  /-- `PREPARED` (R25). -/
  prepared : Bool
  /-- `FS`, the sample rate in Hz (R25). -/
  fs : Sample
  /-- `ERRFLAGS`: bit 0 `ILL`, bit 1 `NPR`, bit 2 `BOP` (R24). -/
  errflags : BitVec 3
  /-- `RSP.STATUS` (R23). -/
  rspStatus : BitVec 8
  /-- `RSP.RESULT` (R23). -/
  rspResult : Word
  /-- `OSC[0..2]` (R26). -/
  osc : Bank3 Osc
  /-- `ENV[0..2]` (R28). -/
  env : Bank3 Env
  /-- `VCF` (R30). -/
  vcf : Vcf
  /-- `MM` (R32 to R35). -/
  mm : Mm
  /-- The model's own: the packets presented at the command port and not yet executed, the next one
  first (R16, R66; log entry 1). -/
  port : List Packet
  /-- The model's own: how many elements of `RAND` have been drawn (R17, R203; log entry 3). -/
  draws : Nat
deriving DecidableEq, Repr

/-- The block has no behaviour treated as a fault or a stuck state: every command produces a response
and the block accepts the next one (R18, R308; 93_implementation_defined.md section 2). So there is
no reason to fault: nothing raises one, and none can be raised. -/
inductive Fault : Type
deriving DecidableEq, Repr

/-- Why a step has no meaning. -/
inductive Refusal where
  /-- An instruction the model gives no meaning: raised by an arm of `exec` alone, and by none, since
  every command is modelled. Safe: the step stops. -/
  | notModelled (mnemonic : String)
deriving DecidableEq, Repr

/-! ### Power-on reset (R40): values the spec leaves unspecified are zero (log entry 2) -/

/-- An oscillator at power-on: unspecified (R40), held at zero (DESIGN CHOICE, log entry 2). -/
def Osc.powerOn : Osc := ⟨0, 0, 0, 0, false⟩

/-- An envelope at power-on: unspecified (R40), held at zero (DESIGN CHOICE, log entry 2). -/
def Env.powerOn : Env := ⟨0, 0, 0, false⟩

/-- The filter at power-on: unspecified (R40), held at zero (DESIGN CHOICE, log entry 2). -/
def Vcf.powerOn : Vcf := ⟨⟨0, 0, 0, 0⟩, 0, 0, 0, 0, .lowpass⟩

/-- A slot at power-on: unspecified (R40), held at zero (DESIGN CHOICE, log entry 2). -/
def Slot.powerOn : Slot := ⟨0, 0, 0⟩

/-- The matrix at power-on: unspecified (R40), held at zero (DESIGN CHOICE, log entry 2). -/
def Mm.powerOn : Mm :=
  ⟨⟨.powerOn, .powerOn, .powerOn, .powerOn⟩, ⟨0, 0, 0, 0, 0⟩, ⟨0, 0, 0, 0, 0, 0, 0, 0, 0, 0, 0, 0⟩, 0, 0⟩

/-- The machine right after power-on reset (R40): `PREPARED`, `ERRFLAGS` and `RSP` are 0 as the spec
says; the rest is unspecified there and zero here (log entry 2). The port holds no packet (log
entry 1) and no draw has been made (log entry 3). -/
def State.reset : State where
  prepared := false
  fs := 0
  errflags := 0
  rspStatus := 0
  rspResult := 0
  osc := ⟨.powerOn, .powerOn, .powerOn⟩
  env := ⟨.powerOn, .powerOn, .powerOn⟩
  vcf := .powerOn
  mm := .powerOn
  port := []
  draws := 0

end Sys2Proof.Machine
end

