-- ==== Sys2Proof/Machine/Operands.lean ====
section
/-! DEFINITION. The operand forms: how a command's selectors name a state element (R61, R83, R90) and
how banks, source inputs and accumulators are read and written. -/

namespace Sys2Proof.Machine

open Sys2Proof.F32

/-- The element of a bank of three that an index names. -/
def Bank3.get {α : Type} (b : Bank3 α) : Fin 3 → α
  | 0 => b.u0
  | 1 => b.u1
  | 2 => b.u2

/-- A bank of three with one element replaced. -/
def Bank3.set {α : Type} (b : Bank3 α) (k : Fin 3) (a : α) : Bank3 α :=
  match k with
  | 0 => { b with u0 := a }
  | 1 => { b with u1 := a }
  | 2 => { b with u2 := a }

/-- The element of a bank of four that an index names. -/
def Bank4.get {α : Type} (b : Bank4 α) : Fin 4 → α
  | 0 => b.u0
  | 1 => b.u1
  | 2 => b.u2
  | 3 => b.u3

/-- A bank of four with one element replaced. -/
def Bank4.set {α : Type} (b : Bank4 α) (k : Fin 4) (a : α) : Bank4 α :=
  match k with
  | 0 => { b with u0 := a }
  | 1 => { b with u1 := a }
  | 2 => { b with u2 := a }
  | 3 => { b with u3 := a }

/-- The elements of a bank of four in index order. -/
def Bank4.toList {α : Type} (b : Bank4 α) : List α := [b.u0, b.u1, b.u2, b.u3]

/-- The instance a `UNIT` or `X` field names, if it is in range (R90). -/
def instanceOf (u : BitVec 2) : Option (Fin 3) :=
  if h : u.toNat < 3 then some ⟨u.toNat, h⟩ else none

/-- The slot a `UNIT` field names: 0 to 3 by its mask (R90). -/
def slotOf (u : BitVec 2) : Fin 4 := ⟨u.toNat, u.isLt⟩

/-- The mode a mode bit names: 0 Lowpass, 1 Highpass (R90). -/
def modeOf (m : BitVec 1) : FilterMode := if m = 0 then .lowpass else .highpass

/-- `srcin[n]` written, where `n` names a source input: the LFO is bipolar, the others unipolar
(R191). None where `n` is not 1 to 5 (R90). -/
def Srcin.write (b : Srcin) (n : BitVec 4) (a : Sample) : Option Srcin :=
  match n.toNat with
  | 1 => some { b with lfo := clamp a cNeg1 c1 }
  | 2 => some { b with env0 := clamp a c0 c1 }
  | 3 => some { b with env1 := clamp a c0 c1 }
  | 4 => some { b with env2 := clamp a c0 c1 }
  | 5 => some { b with vel := clamp a c0 c1 }
  | _ => none

/-- `acc[d]` for the codes 1 to 12, and +0.0 for a code that names no destination (R89, R196). -/
def Acc.read (a : Acc) (d : BitVec 4) : Sample :=
  match d.toNat with
  | 1 => a.cutoff
  | 2 => a.reso
  | 3 => a.pitch1
  | 4 => a.pitch2
  | 5 => a.ringfreq
  | 6 => a.pan
  | 7 => a.level1
  | 8 => a.level2
  | 9 => a.vcadecay
  | 10 => a.noisemod
  | 11 => a.fenvdepth
  | 12 => a.fmamt
  | _ => c0

/-- The twelve accumulators from a value for each destination code (R34, R89). -/
def Acc.ofFn (f : BitVec 4 → Sample) : Acc :=
  ⟨f 1, f 2, f 3, f 4, f 5, f 6, f 7, f 8, f 9, f 10, f 11, f 12⟩

end Sys2Proof.Machine
end

