-- ==== Sys2Proof/Machine/Flags.lean ====
section
/-! DEFINITION. Every flag computation of the spec: the status codes and the sticky error flags (R24,
R300), the cycle flag (R122), the snap test that clears the activity flag (R152), and Boolean and flag
results (R14). -/

namespace Sys2Proof.Machine

open Sys2Proof.F32

/-- The four statuses a command ends with (R300). -/
inductive Status where
  | ok
  | illegal
  | notPrepared
  | badOperand
deriving DecidableEq, Repr

/-- The status code (R300). -/
def Status.code : Status → BitVec 8
  | .ok => 0x00
  | .illegal => 0x01
  | .notPrepared => 0x02
  | .badOperand => 0x03

/-- The sticky bit of `ERRFLAGS` a status sets: `ILL` bit 0, `NPR` bit 1, `BOP` bit 2 (R24, R300). -/
def Status.sticky : Status → BitVec 3
  | .ok => 0b000
  | .illegal => 0b001
  | .notPrepared => 0b010
  | .badOperand => 0b100

/-- `result_b(c)` (R14). -/
def resultB (c : Bool) : Word := if c then 1 else 0

/-- `zext_32` of the flag set (R10, R222). -/
def resultFlags (e : BitVec 3) : Word := e.setWidth 32

/-- `cyc` after a process command whose advanced phase is `u`, before wrapping (R122): a forward wrap
sets it; whether a backward wrap does is the open parameter of R122 (c). -/
def wrapFlag (u : Sample) : Bool := le c1 u || (lt u c0 && Config.oscBackwardWrapSetsCyc)

/-- The snap test of `ENV.PROC`: the decayed value is below 0.0001, strictly (R152). -/
def snaps (v : Sample) : Bool := lt v c0_0001

end Sys2Proof.Machine
end

