-- ==== Sys2Proof/Machine/Ops.lean ====
section
/-! DEFINITION. The shared operations of every command: the processing order of R95 (legal, prepared,
finite operands), how a command ends (R14, R301, R306), and how the next command leaves the port
(R66). -/

namespace Sys2Proof.Machine

open Sys2Proof.F32

/-- What a step answers. -/
abbrev Result := Host.Outcome State Fault Refusal

/-- How a command ends, before its response is written: done with its state written and a result
word, or refused with a status. -/
inductive Reply where
  | done (s : State) (result : Word)
  | refuse (st : Status)
deriving DecidableEq, Repr

/-- `respond(OK, r)`: the response registers (R14, R23). -/
def respond (s : State) (r : Word) : State :=
  { s with rspStatus := Status.ok.code, rspResult := r }

/-- `raise <Status>()`: exactly the status, a zero result and the one sticky bit are written (R14,
R306). This is the block's only exceptional ending: there is no trap entry and no return (R308,
R310). -/
def raiseStatus (st : Status) (s : State) : State :=
  { s with rspStatus := st.code, rspResult := 0, errflags := s.errflags ||| st.sticky }

/-- The state after a command: a refused one has written nothing of what it computed (R306). -/
def settle (s : State) : Reply → State
  | .done t r => respond t r
  | .refuse st => raiseStatus st s

/-- Every command completes with a response (R18, R300). -/
def answer (s : State) (r : Reply) : Result := .next (settle s r)

/-- Step (1) of R95 for an instance number: out of range is `ILLEGAL` (R90, R302; log entry 11). -/
def withInstance (u : BitVec 2) (body : Fin 3 → Reply) : Reply :=
  match instanceOf u with
  | none => .refuse .illegal
  | some k => body k

/-- Step (2) of R95: not prepared (R303). -/
def whenPrepared (s : State) (body : Reply) : Reply :=
  if s.prepared then body else .refuse .notPrepared

/-- Steps (3) and (4) of R95: a value that must be finite is not (R304). -/
def needFinite (xs : List Sample) (body : Reply) : Reply :=
  if xs.all finite then body else .refuse .badOperand

/-- Writing one oscillator. -/
def putOsc (s : State) (k : Fin 3) (o : Osc) : State := { s with osc := s.osc.set k o }

/-- Writing one envelope. -/
def putEnv (s : State) (k : Fin 3) (e : Env) : State := { s with env := s.env.set k e }

/-- Writing the filter. -/
def putVcf (s : State) (v : Vcf) : State := { s with vcf := v }

/-- Writing the matrix. -/
def putMm (s : State) (m : Mm) : State := { s with mm := m }

/-- `R0` of the response: the status in its low byte, the reserved bits 0 (R84). -/
def responseR0 (s : State) : Word := s.rspStatus.setWidth 32

/-- `R1` of the response: the result word (R84). -/
def responseR1 (s : State) : Word := s.rspResult

/-- The response packet `{R1, R0}` (R84). -/
def responsePacket (s : State) : BitVec 64 := responseR1 s ++ responseR0 s

/-- The 8 bytes of a serialised response: `R0`, `R1`, each least significant byte first (R63). -/
def responseToBytes (s : State) : List Byte := bytesOfWord (responseR0 s) ++ bytesOfWord (responseR1 s)

/-- The next packet at the command port, and the state with it taken (R66). None at an idle port. -/
def takePacket (s : State) : Option (Packet × State) :=
  match s.port with
  | [] => none
  | p :: rest => some (p, { s with port := rest })

/-- A packet presented so that it is the next one executed (log entry 1). -/
def presentPacket (s : State) (p : Packet) : State := { s with port := p :: s.port }

end Sys2Proof.Machine
end

