-- ==== Sys2Proof/Machine/Envelope.lean ====
section
/-! DEFINITION. The envelope commands (41_envelope.md). -/

namespace Sys2Proof.Machine

open Sys2Proof.F32

/-- The decay coefficient for `n` samples, `pow(0.001, 1 / n)`, and 0 for `n <= 0` (R150; log entry
13). -/
def decayCoeff (n : Sample) : Sample := if le n c0 then c0 else Num.pow c0_001 (div c1 n)

/-- `ENV.SETDECAY j, A` (R150): the running value is untouched. -/
def execEnvSetdecay (j : BitVec 2) (a : Sample) (s : State) : Result :=
  answer s <| withInstance j fun k => whenPrepared s <| needFinite [a] <|
    let n := mul a s.fs
    needFinite [n] <|
    .done (putEnv s k { s.env.get k with decay := a, coeff := decayCoeff n }) 0

/-- `ENV.TRIG j, A` (R151). -/
def execEnvTrig (j : BitVec 2) (a : Sample) (s : State) : Result :=
  answer s <| withInstance j fun k => whenPrepared s <| needFinite [a] <|
    .done (putEnv s k { s.env.get k with value := clamp a c0 c1, active := true }) 0

/-- The envelope after one processed sample (R152): the snap test is made on the product, and the
flag is cleared with the value. -/
def decayed (e : Env) : Env :=
  let v := mul e.value e.coeff
  if snaps v then { e with value := c0, active := false } else { e with value := v }

/-- `ENV.PROC j` (R152): the result is the value before the decay. -/
def execEnvProc (j : BitVec 2) (s : State) : Result :=
  answer s <| withInstance j fun k => whenPrepared s <|
    .done (putEnv s k (decayed (s.env.get k))) (s.env.get k).value

/-- `ENV.ACTIVE j` (R153). -/
def execEnvActive (j : BitVec 2) (s : State) : Result :=
  answer s <| withInstance j fun k => whenPrepared s <|
    .done s (resultB (s.env.get k).active)

end Sys2Proof.Machine
end

