-- ==== Sys2Proof/Machine/Filter.lean ====
section
/-! DEFINITION. The ladder filter commands (42_ladder_filter.md). -/

namespace Sys2Proof.Machine

open Sys2Proof.F32

/-- `fc`, the cutoff a request is clamped to: `clamp(A, 20, 0.45 * FS)` (R170, R31). -/
def clampCutoff (fs a : Sample) : Sample := clamp a c20 (mul c0_45 fs)

/-- `x`, the tangent's argument `(PI * fc) / FS` (R170). -/
def tanArgument (fs fc : Sample) : Sample := div (mul cPi fc) fs

/-- `g = T / (1 + T)` with `T = tan((PI * fc) / FS)` (R170, R31). -/
def cutoffCoeff (fs fc : Sample) : Sample :=
  let t := Num.tan (tanArgument fs fc)
  div t (add c1 t)

/-- The legal values of `VCF.g`, `0 <= g < 1` (R30). No NaN and no infinity is one. -/
def legalCoeff (g : Sample) : Bool := le c0 g && lt g c1

/-- What a cutoff request `a` at rate `fs` computes, the cutoff and its coefficient, for `body` to write
(R170). The tangent's argument must be finite (R170). So must the new value of `VCF.g` (R95 (4), R243),
and DESIGN CHOICE (log entry 8) it must be a legal one (R30): else `BAD_OPERAND`. It is legal at every
rate that is not subnormal. -/
def withCutoff (fs a : Sample) (body : Sample → Sample → Reply) : Reply :=
  let fc := clampCutoff fs a
  let g := cutoffCoeff fs fc
  needFinite [tanArgument fs fc] <| if legalCoeff g then body fc g else .refuse .badOperand

/-- `VCF.SETCUT A` (R170): the stages are unchanged. -/
def execVcfSetcut (a : Sample) (s : State) : Result :=
  answer s <| whenPrepared s <| needFinite [a] <| withCutoff s.fs a fun fc g =>
    .done (putVcf s { s.vcf with cutoff := fc, g := g }) 0

/-- `VCF.SETRES A` (R171). -/
def execVcfSetres (a : Sample) (s : State) : Result :=
  answer s <| whenPrepared s <| needFinite [a] <|
    let r := clamp a c0 c1
    .done (putVcf s { s.vcf with res := r, k := mul c4 r }) 0

/-- `VCF.SETMODE LP|HP` (R172): the stages are untouched. -/
def execVcfSetmode (m : BitVec 1) (s : State) : Result :=
  answer s <| whenPrepared s <|
    .done (putVcf s { s.vcf with mode := modeOf m }) 0

/-- One one-pole stage (R173): `v = (u - stage)*g`, `y = v + stage`, `stage' = y + v`. -/
structure StageStep where
  v : Sample
  y : Sample
  next : Sample
deriving DecidableEq, Repr

/-- The step of a stage holding `st` at input `u` with coefficient `g` (R173). -/
def stageStep (g u st : Sample) : StageStep :=
  let v := mul (sub u st) g
  let y := add v st
  ⟨v, y, add y v⟩

/-- The four stages in a row, each fed with the `y` of the one before (R173). -/
def ladder (g u : Sample) (st : Bank4 Sample) : Bank4 StageStep :=
  let r0 := stageStep g u st.u0
  let r1 := stageStep g r0.y st.u1
  let r2 := stageStep g r1.y st.u2
  let r3 := stageStep g r2.y st.u3
  ⟨r0, r1, r2, r3⟩

/-- The feedback, from `stage[3]` of the previous sample (R173). -/
def feedback (v : Vcf) : Sample := mul v.stage.u3 v.k

/-- All that one processed sample computes in the stages (R173). -/
def filterRun (v : Vcf) (a : Sample) : Bank4 StageStep :=
  ladder v.g (Num.tanh (sub a (feedback v))) v.stage

/-- The filter after one processed sample (R173). -/
def filtered (v : Vcf) (a : Sample) : Vcf :=
  let r := filterRun v a
  { v with stage := ⟨r.u0.next, r.u1.next, r.u2.next, r.u3.next⟩ }

/-- The output, from `stage[3]` after the update: lowpass the stage, highpass the raw input less it
(R173). -/
def filterOutput (v : Vcf) (a : Sample) : Sample :=
  match v.mode with
  | .lowpass => (filtered v a).stage.u3
  | .highpass => sub a (filtered v a).stage.u3

/-- What `VCF.PROC` must find finite, beside A: the feedback, the new stages and the output (R95 (4), R243;
log entry 8). `tanh` is finite, at an overflow of the unnamed `A - fb` too (DESIGN CHOICE, log entry 16),
and a `v` or `y` that is not finite makes its stage not finite either. -/
def filterValues (v : Vcf) (a : Sample) : List Sample :=
  feedback v :: (filtered v a).stage.toList ++ [filterOutput v a]

/-- `VCF.PROC A` (R173). The rule says that its bounds leave nothing to check but A, and step (4) of R95
checks whatever the coefficient is. -/
def execVcfProc (a : Sample) (s : State) : Result :=
  answer s <| whenPrepared s <| needFinite [a] <| needFinite (filterValues s.vcf a) <|
    .done (putVcf s (filtered s.vcf a)) (filterOutput s.vcf a)

end Sys2Proof.Machine
end

