-- ==== Sys2Proof/Machine/Matrix.lean ====
section
/-! DEFINITION. The modulation matrix commands (43_modulation_matrix.md). -/

namespace Sys2Proof.Machine

open Sys2Proof.F32

/-- `MM.SETSLOT s, src, dst, A` (R190): the codes are stored as written. -/
def execMmSetslot (slot : BitVec 2) (src dst : BitVec 4) (a : Sample) (s : State) : Result :=
  answer s <| whenPrepared s <| needFinite [a] <|
    .done (putMm s { s.mm with
      slot := s.mm.slot.set (slotOf slot) ⟨src, dst, clamp a cNeg1 c1⟩ }) 0

/-- `MM.SETSRC n, A` (R191): `ILLEGAL` where `n` names no source input (R90). -/
def execMmSetsrc (n : BitVec 4) (a : Sample) (s : State) : Result :=
  answer s <|
    match s.mm.srcin.write n a with
    | none => .refuse .illegal
    | some b => whenPrepared s <| needFinite [a] <| .done (putMm s { s.mm with srcin := b }) 0

/-- An active slot names a source and a destination (R192). -/
def Slot.isActive (x : Slot) : Bool :=
  decide (1 ≤ x.src.toNat) && decide (x.src.toNat ≤ 6) &&
    decide (1 ≤ x.dst.toNat) && decide (x.dst.toNat ≤ 12)

/-- The source code of RANDOM (R88). -/
def srcRandom : BitVec 4 := 6

/-- An active slot whose source is RANDOM (R195, R203). -/
def Slot.usesRandom (x : Slot) : Bool := x.isActive && x.src == srcRandom

/-- The remap `2v - 1` of a unipolar source to [-1,1] (R193). -/
def bipolar (v : Sample) : Sample := sub (mul c2 v) c1

/-- `srcval(c)` (R88, R193); a code that names no source contributes nothing and has no value of its
own (R192). -/
def srcval (m : Mm) (c : BitVec 4) : Sample :=
  match c.toNat with
  | 1 => m.srcin.lfo
  | 2 => bipolar m.srcin.env0
  | 3 => bipolar m.srcin.env1
  | 4 => bipolar m.srcin.env2
  | 5 => bipolar m.srcin.vel
  | 6 => m.randHold
  | _ => c0

/-- The contribution of an active slot (R194). -/
def contribution (m : Mm) (x : Slot) : Sample := mul (srcval m x.src) x.amt

/-- One slot's turn in the summation of destination `d` (R195): an inactive slot is skipped. -/
def addSlot (m : Mm) (d : BitVec 4) (sum : Sample) (x : Slot) : Sample :=
  if x.isActive && x.dst == d then add sum (contribution m x) else sum

/-- The sum of destination `d`: from zero, over the slots in index order (R195). -/
def slotSum (m : Mm) (d : BitVec 4) : Sample := m.slot.toList.foldl (addSlot m d) c0

/-- `RAND_PERIOD = max(1, floor(FS / 50))`, saturated at 2^32 - 1 (R35, R203, R246). -/
def randPeriod (fs : Sample) : Nat :=
  Nat.min (2 ^ 32 - 1) (Nat.max 1 (floorInt (div fs c50)).toNat)

/-- `draw()`: the next element of `RAND`, a free value in [-1,1] (R14, R203; log entry 3). -/
def draw (n : Nat) : Sample := restrictUnit (Config.randRaw n)

/-- Whether this evaluation draws: an active RANDOM slot, and the counter at 0 (R195). -/
def drawsNow (m : Mm) : Bool := m.slot.toList.any Slot.usesRandom && m.randCtr == 0

/-- The random state after an evaluation, before the sums are formed (R195, R203): with an active
RANDOM slot the hold is redrawn when the counter is 0, and the counter advances and returns to 0 at
the period; else nothing is drawn or counted. -/
def advanceRandom (fs : Sample) (n : Nat) (m : Mm) : Mm :=
  if m.slot.toList.any Slot.usesRandom then
    { m with
      randHold := if m.randCtr == 0 then draw n else m.randHold
      randCtr := if randPeriod fs ≤ m.randCtr.toNat + 1 then 0 else m.randCtr + 1 }
  else m

/-- The matrix after `MM.EVAL` (R195): every accumulator holds this evaluation's sum. -/
def evaluated (fs : Sample) (n : Nat) (m : Mm) : Mm :=
  let r := advanceRandom fs n m
  { r with acc := Acc.ofFn (slotSum r) }

/-- `MM.EVAL` (R195). -/
def execMmEval (s : State) : Result :=
  answer s <| whenPrepared s <|
    .done { s with
      mm := evaluated s.fs s.draws s.mm
      draws := if drawsNow s.mm then s.draws + 1 else s.draws } 0

/-- `MM_SCALE[d]` (R207): what the host multiplies the raw sum of a destination by before use. The
factors printed "per unit amount" are as printed. PAN, VCADECAY, NOISEMOD and FENVDEPTH have none (R9),
and of the ranges printed for CUTOFF, RESO and RINGFREQ the rule does not state that they are factors:
these are free (log entry 12). A code that names no destination has no entry. No command reads it:
`MM.READ` answers the raw sum. -/
def mmScale (d : BitVec 4) : Option ℝ :=
  match d.toNat with
  | 1 => some (Config.mmScaleOpen d)
  | 2 => some (Config.mmScaleOpen d)
  | 3 => some ((12 : ℚ) : ℝ)
  | 4 => some ((12 : ℚ) : ℝ)
  | 5 => some (Config.mmScaleOpen d)
  | 6 => some (Config.mmScaleOpen d)
  | 7 => some ((1 / 2 : ℚ) : ℝ)
  | 8 => some ((1 / 2 : ℚ) : ℝ)
  | 9 => some (Config.mmScaleOpen d)
  | 10 => some (Config.mmScaleOpen d)
  | 11 => some (Config.mmScaleOpen d)
  | 12 => some ((1 / 2 : ℚ) : ℝ)
  | _ => none

/-- The ranges the table of R207 prints without "per unit amount", as what stands after the sign ±:
octaves for CUTOFF and RINGFREQ. Whether each is a factor of the raw sum or the clamp of the scaled
term "is not stated". -/
def mmScaleRange (d : BitVec 4) : Option ℚ :=
  match d.toNat with
  | 1 => some 5
  | 2 => some (1 / 2)
  | 5 => some 2
  | _ => none

/-- `MM.READ d` (R196): a code that names no destination reads +0.0. -/
def execMmRead (d : BitVec 4) (s : State) : Result :=
  answer s <| whenPrepared s <| .done s (s.mm.acc.read d)

end Sys2Proof.Machine
end

