-- ==== Sys2Proof/Machine/Wave.lean ====
section
/-! DEFINITION. The waveform of an oscillator (R112 to R121): the four-way morph over the four `WAVE`
functions, which are parameters (R9, R115 to R119; log entry 4), and the reference instantiations of
three of them. -/

namespace Sys2Proof.Wave

open Sys2Proof.F32

/-- The four `WAVE` functions of a configuration, from a phase in [0,1) to a sample (R9). -/
structure Fns where
  sine : Sample → Sample
  tri : Sample → Sample
  square : Sample → Sample
  chaos : Sample → Sample

/-- The requirement of R119 on a configuration: each function has its range within [-1,1]. -/
def Fns.InRange (w : Fns) : Prop :=
  ∀ ph, inUnit (w.sine ph) = true ∧ inUnit (w.tri ph) = true ∧ inUnit (w.square ph) = true ∧
    inUnit (w.chaos ph) = true

/-- `wave(p, ph)` of R113 over a configuration: each segment blends its two endpoint waveforms by the
normalised position within the segment. -/
def morph (w : Fns) (p ph : Sample) : Sample :=
  if le p c0_33 then lerp (w.sine ph) (w.tri ph) (div p c0_33)
  else if le p c0_66 then lerp (w.tri ph) (w.square ph) (div (sub p c0_33) c0_33)
  else lerp (w.square ph) (w.chaos ph) (div (sub p c0_66) c0_34)

/-- The block's configuration: four free functions of range [-1,1] (R9, R119). -/
def config : Fns where
  sine := fun ph => restrictUnit (Config.sineRaw ph)
  tri := fun ph => restrictUnit (Config.triRaw ph)
  square := fun ph => restrictUnit (Config.squareRaw ph)
  chaos := fun ph => restrictUnit (Config.chaosRaw ph)

/-- `wave(p, phase)`, the sample an oscillator produces (R112). -/
def wave (p ph : Sample) : Sample := morph config p ph

/-! ### The reference instantiations: used by the test vectors, not by the machine -/

/-- Reference `WAVE.sine(ph) = sin(2 * PI * ph)` (R115). -/
def refSine (ph : Sample) : Sample := Num.sin (mul (mul c2 cPi) ph)

/-- Reference `WAVE.tri` (R116). -/
def refTri (ph : Sample) : Sample :=
  if lt ph c0_25 then mul c4 ph
  else if lt ph c0_75 then sub c2 (mul c4 ph)
  else sub (mul c4 ph) c4

/-- Reference `WAVE.square` (R117). -/
def refSquare (ph : Sample) : Sample := if lt ph c0_5 then c1 else cNeg1

/-- The configuration of the test vectors: the three reference instantiations, and the free
`WAVE.chaos`, which has none (R118). -/
def reference : Fns := { config with sine := refSine, tri := refTri, square := refSquare }

end Sys2Proof.Wave
end

