-- ==== Sys2Proof/Machine/Oscillator.lean ====
section
/-! DEFINITION. The oscillator commands (40_oscillator.md). -/

namespace Sys2Proof.Machine

open Sys2Proof.F32

/-- `OSC.SETFREQ i, A` (R110). -/
def execOscSetfreq (i : BitVec 2) (a : Sample) (s : State) : Result :=
  answer s <| withInstance i fun k => whenPrepared s <| needFinite [a] <|
    let inc := div a s.fs
    needFinite [inc] <|
    .done (putOsc s k { s.osc.get k with freq := a, inc := inc }) 0

/-- `OSC.SETWAVE i, A` (R111). -/
def execOscSetwave (i : BitVec 2) (a : Sample) (s : State) : Result :=
  answer s <| withInstance i fun k => whenPrepared s <| needFinite [a] <|
    .done (putOsc s k { s.osc.get k with morph := clamp a c0 c1 }) 0

/-- The common step of the three process commands (R122), by the effective increment `einc`: the
sample is that of the phase before the advance, and `einc` is not stored. -/
def oscStep (k : Fin 3) (einc : Sample) (s : State) : Reply :=
  let o := s.osc.get k
  let u := add o.phase einc
  needFinite [einc, u] <|
  .done (putOsc s k { o with phase := wrap1 u, cyc := wrapFlag u }) (Wave.wave o.morph o.phase)

/-- The factor of frequency modulation, `1 + ((A * B) * 4)` (R124). -/
def fmFactor (a b : Sample) : Sample := add c1 (mul (mul a b) c4)

/-- The factor of pitch modulation, `exp2(A / 12)` (R125). -/
def pmFactor (a : Sample) : Sample := Num.exp2 (div a c12)

/-- `OSC.PROC i` (R123). -/
def execOscProc (i : BitVec 2) (s : State) : Result :=
  answer s <| withInstance i fun k => whenPrepared s <|
    oscStep k (s.osc.get k).inc s

/-- `OSC.PROCFM i, A, B` (R124). -/
def execOscProcfm (i : BitVec 2) (a b : Sample) (s : State) : Result :=
  answer s <| withInstance i fun k => whenPrepared s <| needFinite [a, b] <|
    oscStep k (mul (s.osc.get k).inc (fmFactor a b)) s

/-- `OSC.PROCPM i, A` (R125). -/
def execOscProcpm (i : BitVec 2) (a : Sample) (s : State) : Result :=
  answer s <| withInstance i fun k => whenPrepared s <| needFinite [a] <|
    oscStep k (mul (s.osc.get k).inc (pmFactor a)) s

/-- `OSC.SYNC i` (R126): the phase becomes 0, `cyc` keeps its value. -/
def execOscSync (i : BitVec 2) (s : State) : Result :=
  answer s <| withInstance i fun k => whenPrepared s <|
    .done (putOsc s k { s.osc.get k with phase := c0 }) 0

/-- `OSC.CYCLE i` (R127): reading does not clear. -/
def execOscCycle (i : BitVec 2) (s : State) : Result :=
  answer s <| withInstance i fun k => whenPrepared s <|
    .done s (resultB (s.osc.get k).cyc)

/-- `OSC.SYNCIF s, m` (R128): the slave's phase becomes 0 iff the master's cycle flag is set. -/
def execOscSyncif (slave master : BitVec 2) (s : State) : Result :=
  answer s <| withInstance slave fun k => withInstance master fun m => whenPrepared s <|
    let c := (s.osc.get m).cyc
    .done (if c then putOsc s k { s.osc.get k with phase := c0 } else s) (resultB c)

end Sys2Proof.Machine
end

