-- ==== Sys2Proof/Machine/System.lean ====
section
/-! DEFINITION. The system commands (44_system_commands.md): `NOP`, `PREPARE`, `RDERR`. These three
alone are accepted before `PREPARE` (R303). -/

namespace Sys2Proof.Machine

open Sys2Proof.F32

/-- The matrix after `PREPARE` (R41). -/
def preparedMm : Mm where
  slot := ⟨⟨0, 0, c0⟩, ⟨0, 0, c0⟩, ⟨0, 0, c0⟩, ⟨0, 0, c0⟩⟩
  srcin := ⟨c0, c0, c0, c0, c0⟩
  acc := Acc.ofFn fun _ => c0
  randHold := c0
  randCtr := 0

/-- The filter after `PREPARE`, with the cutoff and coefficient of a set cutoff of 0 (R41). -/
def preparedVcf (fc g : Sample) : Vcf where
  stage := ⟨c0, c0, c0, c0⟩
  cutoff := fc
  res := c0
  g := g
  k := c0
  mode := .lowpass

/-- The state after `PREPARE` at rate `a`: the table of R41. `ERRFLAGS` is not changed. -/
def preparedState (s : State) (a fc g : Sample) : State :=
  { s with
    prepared := true
    fs := a
    osc := ⟨⟨c0, c0, c0, c0, false⟩, ⟨c0, c0, c0, c0, false⟩, ⟨c0, c0, c0, c0, false⟩⟩
    env := ⟨⟨c0, c0, c0, false⟩, ⟨c0, c0, c0, false⟩, ⟨c0, c0, c0, false⟩⟩
    vcf := preparedVcf fc g
    mm := preparedMm }

/-- `NOP` (R220). -/
def execNop (s : State) : Result := answer s (.done s 0)

/-- `PREPARE A` (R221, R41): refused unless the rate is finite and greater than 0. The cutoff and its
coefficient are those of a set cutoff of 0 at the new rate, with its check (R95 (4); log entry 8). -/
def execPrepare (a : Sample) (s : State) : Result :=
  answer s <|
    needFinite [a] <|
    if le a c0 then .refuse .badOperand
    else withCutoff a c0 fun fc g => .done (preparedState s a fc g) 0

/-- `RDERR` (R222). -/
def execRderr (s : State) : Result := answer s (.done s (resultFlags s.errflags))

end Sys2Proof.Machine
end

