-- ==== Sys2Proof/Machine/Dispatch.lean ====
section
/-! DEFINITION. The dispatch: one arm per command, each one call of its meaning. -/

namespace Sys2Proof.Machine

def exec (i : Instr) (s : State) : Host.Outcome State Fault Refusal :=
  match i with
  | .nop => Sys2Proof.Machine.execNop s
  | .prepare a => Sys2Proof.Machine.execPrepare a s
  | .rderr => Sys2Proof.Machine.execRderr s
  | .oscSetfreq u a => Sys2Proof.Machine.execOscSetfreq u a s
  | .oscSetwave u a => Sys2Proof.Machine.execOscSetwave u a s
  | .oscProc u => Sys2Proof.Machine.execOscProc u s
  | .oscProcfm u a b => Sys2Proof.Machine.execOscProcfm u a b s
  | .oscProcpm u a => Sys2Proof.Machine.execOscProcpm u a s
  | .oscSync u => Sys2Proof.Machine.execOscSync u s
  | .oscCycle u => Sys2Proof.Machine.execOscCycle u s
  | .oscSyncif slave master => Sys2Proof.Machine.execOscSyncif slave master s
  | .envSetdecay j a => Sys2Proof.Machine.execEnvSetdecay j a s
  | .envTrig j a => Sys2Proof.Machine.execEnvTrig j a s
  | .envProc j => Sys2Proof.Machine.execEnvProc j s
  | .envActive j => Sys2Proof.Machine.execEnvActive j s
  | .vcfSetcut a => Sys2Proof.Machine.execVcfSetcut a s
  | .vcfSetres a => Sys2Proof.Machine.execVcfSetres a s
  | .vcfSetmode m => Sys2Proof.Machine.execVcfSetmode m s
  | .vcfProc a => Sys2Proof.Machine.execVcfProc a s
  | .mmSetslot slot src dst a => Sys2Proof.Machine.execMmSetslot slot src dst a s
  | .mmSetsrc n a => Sys2Proof.Machine.execMmSetsrc n a s
  | .mmEval => Sys2Proof.Machine.execMmEval s
  | .mmRead d => Sys2Proof.Machine.execMmRead d s

end Sys2Proof.Machine
end

