-- ==== Sys2Proof/Machine/Step.lean ====
section
/-! DEFINITION. One step of the block (R16, R66, R95): the next presented command is executed
completely. -/

namespace Sys2Proof.Machine

/-- A step takes the next packet at the port and executes the command it is; a packet that is no
command ends with `ILLEGAL` (R91, R95 (1), R302). A port with no packet is an idle block, which keeps
its state (R43, R317; log entry 1). -/
def step (s : State) : Host.Outcome State Fault Refusal :=
  match takePacket s with
  | none => .next s
  | some (p, t) =>
    match decodePacket p with
    | .instr i => exec i t
    | .refused _ => answer t (.refuse .illegal)

/-- `s` with the table word `w` presented as the next command (log entry 1). -/
def State.withFetchWord (s : State) (nbits w : Nat) : State :=
  presentPacket s (packetOfTableWord nbits w)

end Sys2Proof.Machine
end

