-- ==== Sys2Proof/Safety.lean ====
section
/-! DEFINITION. What counts as a safe run, in the terms the claims use: which endings are refusals
(R307), and the invariant of the state (R25, R27, R29, R31, R34, R35, R243). -/

namespace Sys2Proof

/-! ### What the tables of the spec say of each command, for the claims about all of them -/

/-- The operands a command uses (R82, R86). -/
def Instr.usedOperands : Instr → List Sample
  | .prepare a => [a]
  | .oscSetfreq _ a => [a]
  | .oscSetwave _ a => [a]
  | .oscProcfm _ a b => [a, b]
  | .oscProcpm _ a => [a]
  | .envSetdecay _ a => [a]
  | .envTrig _ a => [a]
  | .vcfSetcut a => [a]
  | .vcfSetres a => [a]
  | .vcfProc a => [a]
  | .mmSetslot _ _ _ a => [a]
  | .mmSetsrc _ a => [a]
  | .nop => []
  | .rderr => []
  | .oscProc _ => []
  | .oscSync _ => []
  | .oscCycle _ => []
  | .oscSyncif _ _ => []
  | .envProc _ => []
  | .envActive _ => []
  | .vcfSetmode _ => []
  | .mmEval => []
  | .mmRead _ => []

/-- The 20 commands that need `PREPARED` are all but `NOP`, `PREPARE` and `RDERR` (R303). -/
def Instr.needsPrepare : Instr → Bool
  | .nop => false
  | .prepare _ => false
  | .rderr => false
  | .oscSetfreq _ _ => true
  | .oscSetwave _ _ => true
  | .oscProc _ => true
  | .oscProcfm _ _ _ => true
  | .oscProcpm _ _ => true
  | .oscSync _ => true
  | .oscCycle _ => true
  | .oscSyncif _ _ => true
  | .envSetdecay _ _ => true
  | .envTrig _ _ => true
  | .envProc _ => true
  | .envActive _ => true
  | .vcfSetcut _ => true
  | .vcfSetres _ => true
  | .vcfSetmode _ => true
  | .vcfProc _ => true
  | .mmSetslot _ _ _ _ => true
  | .mmSetsrc _ _ => true
  | .mmEval => true
  | .mmRead _ => true

/-- The six commands that advance signal state each time they are issued (R65, R343). -/
def Instr.stateAdvancing : Instr → Bool
  | .oscProc _ => true
  | .oscProcfm _ _ _ => true
  | .oscProcpm _ _ => true
  | .envProc _ => true
  | .vcfProc _ => true
  | .mmEval => true
  | .nop => false
  | .prepare _ => false
  | .rderr => false
  | .oscSetfreq _ _ => false
  | .oscSetwave _ _ => false
  | .oscSync _ => false
  | .oscCycle _ => false
  | .oscSyncif _ _ => false
  | .envSetdecay _ _ => false
  | .envTrig _ _ => false
  | .envActive _ => false
  | .vcfSetcut _ => false
  | .vcfSetres _ => false
  | .vcfSetmode _ => false
  | .mmSetslot _ _ _ _ => false
  | .mmSetsrc _ _ => false
  | .mmRead _ => false

/-- The five pure reads (R65): they change nothing but the response. -/
def Instr.pureRead : Instr → Bool
  | .nop => true
  | .rderr => true
  | .oscCycle _ => true
  | .envActive _ => true
  | .mmRead _ => true
  | .prepare _ => false
  | .oscSetfreq _ _ => false
  | .oscSetwave _ _ => false
  | .oscProc _ => false
  | .oscProcfm _ _ _ => false
  | .oscProcpm _ _ => false
  | .oscSync _ => false
  | .oscSyncif _ _ => false
  | .envSetdecay _ _ => false
  | .envTrig _ _ => false
  | .envProc _ => false
  | .vcfSetcut _ => false
  | .vcfSetres _ => false
  | .vcfSetmode _ => false
  | .vcfProc _ => false
  | .mmSetslot _ _ _ _ => false
  | .mmSetsrc _ _ => false
  | .mmEval => false

/-- `OPC[7:4]`, the unit class: 0 system, 1 oscillator, 2 envelope, 3 ladder filter, 4 modulation
matrix (R85). -/
def Instr.unitClass (i : Instr) : BitVec 4 := (hdrOpc (encodeHeader i)).extractLsb' 4 4

/-- The legal headers, field by field: the selectors each of the 23 opcodes uses (R83, R86) with their
ranges (R90), every unused field and `ZERO` being 0 (R91). Written apart from the decoder's table. -/
def legalHeader (w0 : Word) : Bool :=
  let u := (hdrUnit w0).toNat
  let x := (hdrX w0).toNat
  let y := (hdrY w0).toNat
  decide (hdrZero w0 = 0) &&
    match (hdrOpc w0).toNat with
    | 0x00 => u == 0 && x == 0 && y == 0
    | 0x01 => u == 0 && x == 0 && y == 0
    | 0x02 => u == 0 && x == 0 && y == 0
    | 0x10 => u ≤ 2 && x == 0 && y == 0
    | 0x11 => u ≤ 2 && x == 0 && y == 0
    | 0x12 => u ≤ 2 && x == 0 && y == 0
    | 0x13 => u ≤ 2 && x == 0 && y == 0
    | 0x14 => u ≤ 2 && x == 0 && y == 0
    | 0x15 => u ≤ 2 && x == 0 && y == 0
    | 0x16 => u ≤ 2 && x == 0 && y == 0
    | 0x17 => u ≤ 2 && x ≤ 2 && y == 0
    | 0x20 => u ≤ 2 && x == 0 && y == 0
    | 0x21 => u ≤ 2 && x == 0 && y == 0
    | 0x22 => u ≤ 2 && x == 0 && y == 0
    | 0x23 => u ≤ 2 && x == 0 && y == 0
    | 0x30 => u == 0 && x == 0 && y == 0
    | 0x31 => u == 0 && x == 0 && y == 0
    | 0x32 => u == 0 && x ≤ 1 && y == 0
    | 0x33 => u == 0 && x == 0 && y == 0
    | 0x40 => u ≤ 3
    | 0x41 => 1 ≤ u && u ≤ 5 && x == 0 && y == 0
    | 0x42 => u == 0 && x == 0 && y == 0
    | 0x43 => u == 0 && x == 0
    | _ => false

end Sys2Proof

namespace Sys2Proof.Machine

open Sys2Proof.F32

/-- The oscillator rows of R304 that speak of an instance: `f` on the instance named, if there is one. -/
def atOsc (s : State) (u : BitVec 2) (f : Osc → Bool) : Bool :=
  match instanceOf u with
  | some k => f (s.osc.get k)
  | none => false

/-- The table of R304, row by row: when a command's operand, or a value the table names, is bad. -/
def badOperand (s : State) : Instr → Bool
  | .prepare a => !finite a || le a c0
  | .oscSetfreq _ a => !finite a || !finite (div a s.fs)
  | .oscSetwave _ a => !finite a
  | .oscProc u => atOsc s u fun o => !finite (add o.phase o.inc)
  | .oscProcfm u a b =>
      !finite a || !finite b || !finite (mul a b) || !finite (mul (mul a b) c4) ||
        !finite (add c1 (mul (mul a b) c4)) ||
        atOsc s u fun o =>
          !finite (mul o.inc (add c1 (mul (mul a b) c4))) ||
            !finite (add o.phase (mul o.inc (add c1 (mul (mul a b) c4))))
  | .oscProcpm u a =>
      !finite a || !finite (Num.exp2 (div a c12)) ||
        atOsc s u fun o =>
          !finite (mul o.inc (Num.exp2 (div a c12))) ||
            !finite (add o.phase (mul o.inc (Num.exp2 (div a c12))))
  | .envSetdecay _ a => !finite a || !finite (mul a s.fs)
  | .envTrig _ a => !finite a
  | .vcfSetcut a => !finite a || !finite (mul cPi (clamp a c20 (mul c0_45 s.fs)))
  | .vcfSetres a => !finite a
  | .vcfProc a => !finite a
  | .mmSetslot _ _ _ a => !finite a
  | .mmSetsrc _ a => !finite a
  | .nop => false
  | .rderr => false
  | .oscSync _ => false
  | .oscCycle _ => false
  | .oscSyncif _ _ => false
  | .envProc _ => false
  | .envActive _ => false
  | .vcfSetmode _ => false
  | .mmEval => false
  | .mmRead _ => false

/-- What step (4) of R95 adds to the table of R304: a new state value, or an intermediate or result the
rule names, that is not finite; and, by log entry 8, a coefficient that R30 calls no legal value. -/
def computesIllegalValue (s : State) : Instr → Bool
  | .prepare a =>
      !finite (tanArgument a (clampCutoff a c0)) || !legalCoeff (cutoffCoeff a (clampCutoff a c0))
  | .vcfSetcut a =>
      !finite (tanArgument s.fs (clampCutoff s.fs a)) ||
        !legalCoeff (cutoffCoeff s.fs (clampCutoff s.fs a))
  | .vcfProc a => !(filterValues s.vcf a).all finite
  | .nop => false
  | .rderr => false
  | .oscSetfreq _ _ => false
  | .oscSetwave _ _ => false
  | .oscProc _ => false
  | .oscProcfm _ _ _ => false
  | .oscProcpm _ _ => false
  | .oscSync _ => false
  | .oscCycle _ => false
  | .oscSyncif _ _ => false
  | .envSetdecay _ _ => false
  | .envTrig _ _ => false
  | .envProc _ => false
  | .envActive _ => false
  | .vcfSetres _ => false
  | .vcfSetmode _ => false
  | .mmSetslot _ _ _ _ => false
  | .mmSetsrc _ _ => false
  | .mmEval => false
  | .mmRead _ => false

/-- The status a command ends with, by the priority of R305. -/
def statusOf (s : State) (i : Instr) : Status :=
  if i.wellFormed = false then .illegal
  else if i.needsPrepare = true ∧ s.prepared = false then .notPrepared
  else if badOperand s i = true ∨ computesIllegalValue s i = true then .badOperand
  else .ok

/-- `n` steps in a row. -/
def run : Nat → State → Result
  | 0, s => .next s
  | n + 1, s =>
    match step s with
    | .next t => run n t
    | .fault f => .fault f
    | .refused r => .refused r

/-- Two states that no command can tell apart (R332): they agree on all that power-on reset gives a
value (R40) and on the model's own fields, and, once prepared, on everything. -/
structure State.SameVisible (s t : State) : Prop where
  prepared : s.prepared = t.prepared
  errflags : s.errflags = t.errflags
  rspStatus : s.rspStatus = t.rspStatus
  rspResult : s.rspResult = t.rspResult
  port : s.port = t.port
  draws : s.draws = t.draws
  all : s.prepared = true → s = t

/-- No command has been refused since power-on reset: the premise R307 gives a run that starts
there. -/
def State.NothingRefused (s : State) : Prop := s.errflags = 0

/-- R27 (a) to (c), with the finiteness of R243. -/
structure Osc.Inv (fs : Sample) (o : Osc) : Prop where
  freq_finite : finite o.freq = true
  inc_finite : finite o.inc = true
  inc_eq : o.inc = div o.freq fs
  phase_nonneg : le c0 o.phase = true
  phase_lt_one : lt o.phase c1 = true
  morph_range : within c0 c1 o.morph = true

/-- R28 and R29 (a) and (c), with the finiteness of R243. -/
structure Env.Inv (e : Env) : Prop where
  decay_finite : finite e.decay = true
  coeff_range : within c0 c1 e.coeff = true
  value_range : within c0 c1 e.value = true
  idle_value : e.active = false → e.value = c0

/-- R30 and R31, with the finiteness of R243. -/
structure Vcf.Inv (fs : Sample) (v : Vcf) : Prop where
  cutoff_finite : finite v.cutoff = true
  cutoff_le : le v.cutoff (mul c0_45 fs) = true
  le_cutoff : le c20 v.cutoff = true ∨ v.cutoff = mul c0_45 fs
  stage_finite : ∀ k, finite (v.stage.get k) = true
  g_range : le c0 v.g = true ∧ lt v.g c1 = true
  g_eq : v.g = cutoffCoeff fs v.cutoff
  res_range : within c0 c1 v.res = true
  k_eq : v.k = mul c4 v.res

/-- R32 to R35: the ranges of the amounts, inputs, accumulators and of the random source. -/
structure Mm.Inv (fs : Sample) (m : Mm) : Prop where
  amt_range : ∀ k, inUnit (m.slot.get k).amt = true
  lfo_range : inUnit m.srcin.lfo = true
  env0_range : within c0 c1 m.srcin.env0 = true
  env1_range : within c0 c1 m.srcin.env1 = true
  env2_range : within c0 c1 m.srcin.env2 = true
  vel_range : within c0 c1 m.srcin.vel = true
  acc_range : ∀ d, within cNeg4 c4 (m.acc.read d) = true
  hold_range : inUnit m.randHold = true
  ctr_lt : m.randCtr.toNat < randPeriod fs

/-- What a prepared block keeps (R25, R27, R29, R31, R34, R35, R243). -/
structure State.PreparedInv (s : State) : Prop where
  fs_finite : finite s.fs = true
  fs_pos : lt c0 s.fs = true
  osc : ∀ k, (s.osc.get k).Inv s.fs
  env : ∀ k, (s.env.get k).Inv
  vcf : s.vcf.Inv s.fs
  mm : s.mm.Inv s.fs

/-- The invariant of the machine: the response registers hold one of the four statuses, a result only with
`OK` (R300, R301), and never a NaN or an infinity (R243); and a prepared block keeps the invariants of its units. Before `PREPARE`
nothing is asked of the units, whose state is unspecified (R40). -/
structure State.Inv (s : State) : Prop where
  status_le : s.rspStatus.toNat ≤ 3
  result_finite : finite s.rspResult = true
  result_zero : s.rspStatus ≠ 0x00 → s.rspResult = 0
  prepared : s.prepared = true → s.PreparedInv

/-- The overflow threshold of binary32 in units of 2^-149 (R232): half a unit of the last place above
the largest finite value. An exact result from there on rounds to an infinity. -/
def overflowBound : Int := (2 ^ 25 - 1) * 2 ^ 252

/-- That `x` is the exact number `v / d`, in units of 2^-149, correctly rounded to nearest with ties to
even (R232): it is finite exactly below the overflow threshold, and else the infinity of the sign of
`v`. Where it is finite, no finite sample `c` is nearer to `v / d`, and if another value is equally near
then the pattern of `x` is even. -/
structure CorrectlyRounded (v d : Int) (x : Sample) : Prop where
  finite_below : |v| < overflowBound * d → finite x = true
  pos_overflow : overflowBound * d ≤ v → x = 0x7F800000
  neg_overflow : overflowBound * d ≤ -v → x = 0xFF800000
  nearest : finite x = true → ∀ c, finite c = true → |value x * d - v| ≤ |value c * d - v|
  tie_even : finite x = true → ∀ c, finite c = true → value c ≠ value x →
    |value x * d - v| = |value c * d - v| → magBits x % 2 = 0

/-- A bound on the magnitude of a stage: a power of two, given by the pattern of the power. -/
def boundedBy (m x : Sample) : Bool := within (neg m) m x

/-- The bounds inside which the filter's stages stay for ever: 2^26, 2^52, 2^78 and 2^104. R175 says
"every value is finite and far from overflow"; the real-number bounds it derives are far tighter. -/
def Vcf.StagesBounded (v : Vcf) : Prop :=
  boundedBy 0x4C800000 v.stage.u0 = true ∧ boundedBy 0x59800000 v.stage.u1 = true ∧
    boundedBy 0x66800000 v.stage.u2 = true ∧ boundedBy 0x73800000 v.stage.u3 = true

end Sys2Proof.Machine
end

