-- ==== Sys2Proof/Certificates/Slice0/Obligations.lean ====
section
/-! DEFINITION. The statements for the provers, in the order of OBLIGATIONS.json. -/

open Sys2Proof Sys2Proof.Machine Sys2Proof.F32

/-! ### Encoding and decoding (R63, R64, R80 to R96) -/

/-- R81 to R90 with R63: the bytes of every legal command, with any bytes after them, decode to that
command and those bytes. -/
def Obligations.EncodedCommandDecodesToItself : Prop :=
  ∀ (i : Instr) (rest : List Byte), i.wellFormed = true →
    decodeBytes (packetToBytes (encode i) ++ rest) = (.instr i, rest)

/-- R82, R83: a command that decodes has the header of the packet as its encoding, passes the range
checks, and its operands are the packet's operand words taken whole, in order; an operand word that it
does not use may be any word. -/
def Obligations.DecodedCommandIsItsPacket : Prop :=
  ∀ (p : Packet) (i : Instr), decodePacket p = .instr i →
    encodeHeader i = p.w0 ∧ i.wellFormed = true ∧
      i.usedOperands = [p.w1, p.w2].take i.usedOperands.length ∧
      ∀ x y : Word, decodePacket ⟨p.w0, if i.usedOperands.length = 0 then x else p.w1,
        if i.usedOperands.length ≤ 1 then y else p.w2⟩ = .instr i

/-- R87: the table's 23 rows, no two of which select the same header; a header that no row selects is
no command, and after a row is selected the range checks of R90 decide. -/
def Obligations.DecodingFollowsTheMatchAndMaskTable : Prop :=
  (rows.map fun r => (r.mnemonic, r.pattern, r.mask)) =
    [("NOP", 0x00000000#32, 0xFFFFFFFF#32), ("PREPARE", 0x01000000#32, 0xFFFFFFFF#32),
      ("RDERR", 0x02000000#32, 0xFFFFFFFF#32), ("OSC.SETFREQ", 0x10000000#32, 0xFFCFFFFF#32),
      ("OSC.SETWAVE", 0x11000000#32, 0xFFCFFFFF#32), ("OSC.PROC", 0x12000000#32, 0xFFCFFFFF#32),
      ("OSC.PROCFM", 0x13000000#32, 0xFFCFFFFF#32), ("OSC.PROCPM", 0x14000000#32, 0xFFCFFFFF#32),
      ("OSC.SYNC", 0x15000000#32, 0xFFCFFFFF#32), ("OSC.CYCLE", 0x16000000#32, 0xFFCFFFFF#32),
      ("OSC.SYNCIF", 0x17000000#32, 0xFFCCFFFF#32), ("ENV.SETDECAY", 0x20000000#32, 0xFFCFFFFF#32),
      ("ENV.TRIG", 0x21000000#32, 0xFFCFFFFF#32), ("ENV.PROC", 0x22000000#32, 0xFFCFFFFF#32),
      ("ENV.ACTIVE", 0x23000000#32, 0xFFCFFFFF#32), ("VCF.SETCUT", 0x30000000#32, 0xFFFFFFFF#32),
      ("VCF.SETRES", 0x31000000#32, 0xFFFFFFFF#32), ("VCF.SETMODE", 0x32000000#32, 0xFFFEFFFF#32),
      ("VCF.PROC", 0x33000000#32, 0xFFFFFFFF#32), ("MM.SETSLOT", 0x40000000#32, 0xFFC00FFF#32),
      ("MM.SETSRC", 0x41000000#32, 0xFF0FFFFF#32), ("MM.EVAL", 0x42000000#32, 0xFFFFFFFF#32),
      ("MM.READ", 0x43000000#32, 0xFFFF0FFF#32)] ∧
  (∀ (w0 : Word), ∀ r ∈ rows, ∀ r' ∈ rows, w0 &&& r.mask = r.pattern → w0 &&& r'.mask = r'.pattern →
    r.mnemonic = r'.mnemonic) ∧
  (∀ p : Packet, (∀ r ∈ rows, p.w0 &&& r.mask ≠ r.pattern) → decodePacket p = .refused .noRow) ∧
  (∀ (p : Packet), ∀ r ∈ rows, p.w0 &&& r.mask = r.pattern →
    decodePacket p =
      if (r.build p).wellFormed = true then .instr (r.build p) else .refused .rangeCheck)

/-- R91, R302: a header that breaks R83, R86 or R90 (an opcode that is no command, a non-zero reserved
or unused field, a selector out of range) ends with `ILLEGAL` and changes no state but the response
and `ERRFLAGS.ILL`, whatever the operand words; every other header is a command. -/
def Obligations.IllegalHeaderIsRefused : Prop :=
  ∀ (s : State) (p : Packet) (rest : List Packet), s.port = p :: rest →
    (legalHeader p.w0 = false →
      step s = .next { s with
        port := rest
        rspStatus := 0x01
        rspResult := 0x00000000
        errflags := s.errflags ||| 0b001 }) ∧
    (legalHeader p.w0 = true →
      ∃ i : Instr, i.wellFormed = true ∧ encodeHeader i = p.w0 ∧
        step s = exec i { s with port := rest })

/-- R96: the worked encodings. -/
def Obligations.WorkedEncodingsDecode : Prop :=
  decodePacket ⟨0x01000000, 0x473B8000, 0x00000000⟩ = .instr (.prepare 0x473B8000) ∧
  decodePacket ⟨0x10100000, 0x43DC0000, 0x00000000⟩ = .instr (.oscSetfreq 1 0x43DC0000) ∧
  decodePacket ⟨0x13000000, 0x3F000000, 0x3E800000⟩ =
    .instr (.oscProcfm 0 0x3F000000 0x3E800000) ∧
  decodePacket ⟨0x17010000, 0x00000000, 0x00000000⟩ = .instr (.oscSyncif 0 1) ∧
  decodePacket ⟨0x32010000, 0x00000000, 0x00000000⟩ = .instr (.vcfSetmode 1) ∧
  decodePacket ⟨0x40233000, 0x3F000000, 0x00000000⟩ = .instr (.mmSetslot 2 3 3 0x3F000000) ∧
  decodePacket ⟨0x41500000, 0x3E800000, 0x00000000⟩ = .instr (.mmSetsrc 5 0x3E800000) ∧
  decodePacket ⟨0x4300C000, 0x00000000, 0x00000000⟩ = .instr (.mmRead 12)

/-- R63: the serialised order of a packet, by the example of R63 and for every packet. R64: fewer than 12
bytes are no command. That they are refused by the name partialPacket, and that no byte of them is
consumed, is the model's choice, log entry 14. -/
def Obligations.PacketBytesAreLittleEndian : Prop :=
  packetToBytes ⟨0x10000000, 0x43DC0000, 0x00000000⟩ =
    [0x00, 0x00, 0x00, 0x10, 0x00, 0x00, 0xDC, 0x43, 0x00, 0x00, 0x00, 0x00] ∧
  (∀ (p : Packet) (rest : List Byte), packetOfBytes (packetToBytes p ++ rest) = some (p, rest)) ∧
  (∀ bs : List Byte, bs.length < 12 → decodeBytes bs = (.refused .partialPacket, bs))

/-! ### The step, the statuses and the refusals (R16, R18, R24, R66, R84, R300 to R319) -/

/-- R66, R95: the next packet at the port, where it decodes, is executed on the state with that packet
taken; and a table word presented by `withFetchWord` is the very next command. -/
def Obligations.StepRunsTheDecodedCommand : Prop :=
  (∀ (s : State) (p : Packet) (rest : List Packet) (i : Instr),
    s.port = p :: rest → decodePacket p = .instr i → step s = exec i { s with port := rest }) ∧
  (∀ (s : State) (w : Nat) (i : Instr),
    decodeTableWord 32 w = some i → step (s.withFetchWord 32 w) = exec i s)

/-- R18: the block never halts: all packets presented are executed, each with a next state. That the
step of an idle port changes nothing is the model's choice, log entry 1. -/
def Obligations.BlockNeverHalts : Prop :=
  (∀ s : State, s.port = [] → step s = .next s) ∧
  ∀ s : State, ∃ t : State, run s.port.length s = .next t ∧ t.port = []

/-- R303, R305 (and R90 on a command as syntax): every command answers a next state, and its status is
that of the first of `ILLEGAL`, `NOT_PREPARED` and `BAD_OPERAND` that applies, with the sticky bit of
that status and no other. That a command as syntax fails a range check as its packet does is the
model's reading, log entry 11. `BAD_OPERAND` is in the cases of the table of R304 and, by the model's
reading of step (4) of R95, log entry 8, where `PREPARE`, `VCF.SETCUT` or `VCF.PROC` computes a value that
is not finite or a coefficient that is not legal. The premise on `FS` is R25. -/
def Obligations.StatusFollowsThePriorityOrder : Prop :=
  ∀ (i : Instr) (s : State),
    (s.prepared = true → finite s.fs = true ∧ lt c0 s.fs = true) →
    ∃ t : State, exec i s = .next t ∧ t.rspStatus = (statusOf s i).code ∧
      t.errflags = s.errflags ||| (statusOf s i).sticky

/-- R301, R306: a command that ends with a status other than `OK` has written exactly the status, a
zero result and the one sticky bit. -/
def Obligations.RefusedCommandWritesOnlyItsResponse : Prop :=
  ∀ (s t : State) (p : Packet) (rest : List Packet), s.port = p :: rest → step s = .next t →
    t.rspStatus ≠ 0x00 →
    ∃ c ∈ [(0x01#8, 0b001#3), (0x02#8, 0b010#3), (0x03#8, 0b100#3)],
      t = { s with
        port := rest
        rspStatus := c.1
        rspResult := 0x00000000
        errflags := s.errflags ||| c.2 }

/-- R24, R307: power-on reset clears the error flags; a command sets the flag of its status and clears
none; `RDERR` reads them; so a run that ends with no flag set met no refusal on its way. -/
def Obligations.ErrorFlagsAreSticky : Prop :=
  State.reset.errflags = 0b000 ∧
  (∀ s : State, ∃ t : State, exec .rderr s = .next t ∧ t.rspResult = s.errflags.setWidth 32) ∧
  (∀ (s t : State) (p : Packet) (rest : List Packet), s.port = p :: rest → step s = .next t →
    t.errflags = s.errflags |||
      (if t.rspStatus = 0x01 then 0b001 else if t.rspStatus = 0x02 then 0b010
        else if t.rspStatus = 0x03 then 0b100 else 0b000)) ∧
  (∀ (m n : Nat) (s u t : State), run m s = .next u → run n u = .next t →
    t.NothingRefused → u.NothingRefused)

/-- R25, R335: only `PREPARE` writes `FS` or `PREPARED`, and only with a finite rate above 0. -/
def Obligations.OnlyPrepareChangesTheRate : Prop :=
  ∀ (i : Instr) (s t : State), exec i s = .next t → (t.fs ≠ s.fs ∨ t.prepared ≠ s.prepared) →
    ∃ a : Sample, i = .prepare a ∧ t.fs = a ∧ t.prepared = true ∧ t.rspStatus = 0x00 ∧
      finite a = true ∧ lt c0 a = true

/-- R61, R65, R85: a command other than `PREPARE` touches only the unit of its class, and a pure read
touches nothing but the response registers (and, refused, the error flags). -/
def Obligations.CommandsKeepToTheirUnit : Prop :=
  ∀ (i : Instr) (s t : State), exec i s = .next t → (∀ a, i ≠ .prepare a) →
    (i.unitClass ≠ 1 → t.osc = s.osc) ∧ (i.unitClass ≠ 2 → t.env = s.env) ∧
    (i.unitClass ≠ 3 → t.vcf = s.vcf) ∧ (i.unitClass ≠ 4 → t.mm = s.mm ∧ t.draws = s.draws) ∧
    t.port = s.port ∧ t.fs = s.fs ∧ t.prepared = s.prepared ∧
    (i.pureRead = true →
      t = { s with
        rspStatus := t.rspStatus
        rspResult := t.rspResult
        errflags := t.errflags })

/-- R65: every command but the six that advance signal state is idempotent: issued again it changes
nothing, not even its response. -/
def Obligations.RepeatedSettingIsIdempotent : Prop :=
  ∀ (i : Instr) (s t : State), i.stateAdvancing = false → exec i s = .next t → exec i t = .next t

/-- R332: states that differ only where power-on reset leaves values unspecified answer any run of
commands alike. -/
def Obligations.UnspecifiedStateIsUnobservable : Prop :=
  ∀ (n : Nat) (s s' : State), s.SameVisible s' →
    ∃ t t' : State, run n s = .next t ∧ run n s' = .next t' ∧ t.SameVisible t'

/-- R84: the response packet. R63: its serialised order, `R0` and then `R1`, each least significant byte
first, which is the 64-bit packet from its least significant byte on. -/
def Obligations.ResponsePacketLayout : Prop :=
  ∀ s : State, (responsePacket s).extractLsb' 0 8 = s.rspStatus ∧
    (responsePacket s).extractLsb' 8 24 = 0 ∧ (responsePacket s).extractLsb' 32 32 = s.rspResult ∧
    responseToBytes s = [s.rspStatus, 0x00, 0x00, 0x00, s.rspResult.extractLsb' 0 8,
      s.rspResult.extractLsb' 8 8, s.rspResult.extractLsb' 16 8, s.rspResult.extractLsb' 24 8] ∧
    responseToBytes s = (List.range 8).map fun i => (responsePacket s).extractLsb' (8 * i) 8

/-- R26, R28, R32: writing one instance or slot writes that one and no other. -/
def Obligations.BankWriteReachesOneElement : Prop :=
  (∀ (b : Bank3 Osc) (k j : Fin 3) (o : Osc), (b.set k o).get j = if j = k then o else b.get j) ∧
  (∀ (b : Bank3 Env) (k j : Fin 3) (e : Env), (b.set k e).get j = if j = k then e else b.get j) ∧
  (∀ (b : Bank4 Slot) (k j : Fin 4) (x : Slot), (b.set k x).get j = if j = k then x else b.get j)

/-! ### System commands (R220 to R222) -/

/-- R220, R222: `NOP` only answers, with any operand words; `RDERR` answers the error flags,
zero-extended, and clears nothing; both before and after `PREPARE`. -/
def Obligations.NopAndRderrOnlyAnswer : Prop :=
  (∀ w1 w2 : Word, decodePacket ⟨0x00000000, w1, w2⟩ = .instr .nop) ∧
  encode .rderr = ⟨0x02000000, 0x00000000, 0x00000000⟩ ∧
  ∀ s : State,
    exec .nop s = .next { s with rspStatus := 0x00, rspResult := 0x00000000 } ∧
    exec .rderr s = .next { s with rspStatus := 0x00, rspResult := s.errflags.setWidth 32 }

/-- R221, R41: `PREPARE` at a finite rate above 0 gives every element the value of the table of R41 and
leaves `ERRFLAGS`; at any other rate it is refused. By the model's reading, log entry 8 (R95 (4), R30), it
is refused too where the coefficient it would write is not in [0,1), and that happens at no rate that is
not subnormal, by its reading of the tangent's interval, log entry 7. -/
def Obligations.PrepareInitialisesEveryElement : Prop :=
  ∀ (a : Sample) (s : State),
    let x := div (mul cPi (clamp c0 c20 (mul c0_45 a))) a
    let g := div (Num.tan x) (add c1 (Num.tan x))
    encode (.prepare a) = ⟨0x01000000, a, 0x00000000⟩ ∧
    (finite a = true → le 0x00800000 a = true →
      finite x = true ∧ le c0 g = true ∧ lt g c1 = true) ∧
    (finite a = true → lt c0 a = true → finite x = true → le c0 g = true → lt g c1 = true →
      exec (.prepare a) s = .next { s with
        prepared := true
        fs := a
        rspStatus := 0x00
        rspResult := 0x00000000
        osc := ⟨⟨c0, c0, c0, c0, false⟩, ⟨c0, c0, c0, c0, false⟩, ⟨c0, c0, c0, c0, false⟩⟩
        env := ⟨⟨c0, c0, c0, false⟩, ⟨c0, c0, c0, false⟩, ⟨c0, c0, c0, false⟩⟩
        vcf := {
          stage := ⟨c0, c0, c0, c0⟩
          cutoff := clamp c0 c20 (mul c0_45 a)
          res := c0
          g := g
          k := c0
          mode := .lowpass }
        mm := {
          slot := ⟨⟨0, 0, c0⟩, ⟨0, 0, c0⟩, ⟨0, 0, c0⟩, ⟨0, 0, c0⟩⟩
          srcin := ⟨c0, c0, c0, c0, c0⟩
          acc := ⟨c0, c0, c0, c0, c0, c0, c0, c0, c0, c0, c0, c0⟩
          randHold := c0
          randCtr := 0 } }) ∧
    ((finite a = false ∨ le a c0 = true ∨ finite x = false ∨ le c0 g = false ∨ lt g c1 = false) →
      exec (.prepare a) s = .next { s with
        rspStatus := 0x03
        rspResult := 0x00000000
        errflags := s.errflags ||| 0b100 })

/-! ### Oscillator commands (R110 to R128) -/

/-- R110: `OSC.SETFREQ` writes the frequency and the increment; phase, morph and cycle flag stay. -/
def Obligations.OscSetfreqWritesTheIncrement : Prop :=
  ∀ (i : BitVec 2) (k : Fin 3) (a : Sample) (s : State), i.toNat = k.val → s.prepared = true →
    encode (.oscSetfreq i a) = ⟨0x10000000#32 ||| i.setWidth 32 <<< 20, a, 0x00000000⟩ ∧
    (finite a = true → finite (div a s.fs) = true →
      exec (.oscSetfreq i a) s = .next { s with
        rspStatus := 0x00
        rspResult := 0x00000000
        osc := s.osc.set k { s.osc.get k with freq := a, inc := div a s.fs } }) ∧
    ((finite a = false ∨ finite (div a s.fs) = false) →
      exec (.oscSetfreq i a) s = .next { s with
        rspStatus := 0x03
        rspResult := 0x00000000
        errflags := s.errflags ||| 0b100 })

/-- R111: `OSC.SETWAVE` writes the clamped morph position and nothing else. -/
def Obligations.OscSetwaveClampsTheMorph : Prop :=
  ∀ (i : BitVec 2) (k : Fin 3) (a : Sample) (s : State), i.toNat = k.val → s.prepared = true →
    encode (.oscSetwave i a) = ⟨0x11000000#32 ||| i.setWidth 32 <<< 20, a, 0x00000000⟩ ∧
    (finite a = true →
      exec (.oscSetwave i a) s = .next { s with
        rspStatus := 0x00
        rspResult := 0x00000000
        osc := s.osc.set k { s.osc.get k with morph := clamp a c0 c1 } }) ∧
    (finite a = false →
      exec (.oscSetwave i a) s = .next { s with
        rspStatus := 0x03
        rspResult := 0x00000000
        errflags := s.errflags ||| 0b100 })

/-- R122, R123: `OSC.PROC` answers the sample at the phase before the advance, advances the phase by
the increment and writes the cycle flag; a sum that is not finite refuses it. Whether a backward wrap
sets the flag is the open parameter of R122 (c). -/
def Obligations.OscProcAdvancesThePhase : Prop :=
  ∀ (i : BitVec 2) (k : Fin 3) (s : State), i.toNat = k.val → s.prepared = true →
    let o := s.osc.get k
    let u := add o.phase o.inc
    encode (.oscProc i) = ⟨0x12000000#32 ||| i.setWidth 32 <<< 20, 0x00000000, 0x00000000⟩ ∧
    (finite o.inc = true → finite u = true →
      exec (.oscProc i) s = .next { s with
        rspStatus := 0x00
        rspResult := Wave.wave o.morph o.phase
        osc := s.osc.set k { o with
          phase := wrap1 u
          cyc := le c1 u || (lt u c0 && Config.oscBackwardWrapSetsCyc) } }) ∧
    ((finite o.inc = false ∨ finite u = false) →
      exec (.oscProc i) s = .next { s with
        rspStatus := 0x03
        rspResult := 0x00000000
        errflags := s.errflags ||| 0b100 })

/-- R122, R124: `OSC.PROCFM` advances by the increment scaled by `1 + ((A * B) * 4)`, which it does not
store. -/
def Obligations.OscProcfmScalesTheIncrement : Prop :=
  ∀ (i : BitVec 2) (k : Fin 3) (a b : Sample) (s : State), i.toNat = k.val → s.prepared = true →
    let o := s.osc.get k
    let einc := mul o.inc (add c1 (mul (mul a b) c4))
    let u := add o.phase einc
    encode (.oscProcfm i a b) = ⟨0x13000000#32 ||| i.setWidth 32 <<< 20, a, b⟩ ∧
    (finite a = true → finite b = true → finite einc = true → finite u = true →
      exec (.oscProcfm i a b) s = .next { s with
        rspStatus := 0x00
        rspResult := Wave.wave o.morph o.phase
        osc := s.osc.set k { o with
          phase := wrap1 u
          cyc := le c1 u || (lt u c0 && Config.oscBackwardWrapSetsCyc) } }) ∧
    ((finite a = false ∨ finite b = false ∨ finite einc = false ∨ finite u = false) →
      exec (.oscProcfm i a b) s = .next { s with
        rspStatus := 0x03
        rspResult := 0x00000000
        errflags := s.errflags ||| 0b100 })

/-- R122, R125: `OSC.PROCPM` advances by the increment scaled by `exp2(A / 12)`, which it does not
store. -/
def Obligations.OscProcpmScalesTheIncrement : Prop :=
  ∀ (i : BitVec 2) (k : Fin 3) (a : Sample) (s : State), i.toNat = k.val → s.prepared = true →
    let o := s.osc.get k
    let einc := mul o.inc (Num.exp2 (div a c12))
    let u := add o.phase einc
    encode (.oscProcpm i a) = ⟨0x14000000#32 ||| i.setWidth 32 <<< 20, a, 0x00000000⟩ ∧
    (finite a = true → finite einc = true → finite u = true →
      exec (.oscProcpm i a) s = .next { s with
        rspStatus := 0x00
        rspResult := Wave.wave o.morph o.phase
        osc := s.osc.set k { o with
          phase := wrap1 u
          cyc := le c1 u || (lt u c0 && Config.oscBackwardWrapSetsCyc) } }) ∧
    ((finite a = false ∨ finite einc = false ∨ finite u = false) →
      exec (.oscProcpm i a) s = .next { s with
        rspStatus := 0x03
        rspResult := 0x00000000
        errflags := s.errflags ||| 0b100 })

/-- R126, R127: `OSC.SYNC` writes phase 0 and keeps the cycle flag; `OSC.CYCLE` answers the cycle
flag and clears nothing. -/
def Obligations.OscSyncAndCycle : Prop :=
  ∀ (i : BitVec 2) (k : Fin 3) (s : State), i.toNat = k.val → s.prepared = true →
    encode (.oscSync i) = ⟨0x15000000#32 ||| i.setWidth 32 <<< 20, 0x00000000, 0x00000000⟩ ∧
    encode (.oscCycle i) = ⟨0x16000000#32 ||| i.setWidth 32 <<< 20, 0x00000000, 0x00000000⟩ ∧
    exec (.oscSync i) s = .next { s with
      rspStatus := 0x00
      rspResult := 0x00000000
      osc := s.osc.set k { s.osc.get k with phase := c0 } } ∧
    exec (.oscCycle i) s = .next { s with
      rspStatus := 0x00
      rspResult := if (s.osc.get k).cyc = true then 0x00000001 else 0x00000000 }

/-- R128: `OSC.SYNCIF` zeroes the slave's phase iff the master's cycle flag is set, and answers the
flag; slave and master may be one. It equals `OSC.CYCLE` of the master and, on a true result,
`OSC.SYNC` of the slave. -/
def Obligations.OscSyncifIsCycleThenSync : Prop :=
  ∀ (i j : BitVec 2) (k m : Fin 3) (s : State), i.toNat = k.val → j.toNat = m.val →
    s.prepared = true →
    encode (.oscSyncif i j) =
      ⟨0x17000000#32 ||| i.setWidth 32 <<< 20 ||| j.setWidth 32 <<< 16, 0x00000000, 0x00000000⟩ ∧
    exec (.oscSyncif i j) s = .next { s with
      rspStatus := 0x00
      rspResult := if (s.osc.get m).cyc = true then 0x00000001 else 0x00000000
      osc := if (s.osc.get m).cyc = true
        then s.osc.set k { s.osc.get k with phase := c0 } else s.osc } ∧
    ∃ t : State, exec (.oscCycle j) s = .next t ∧
      (t.rspResult = 0x00000001 → ∃ t' : State, exec (.oscSync i) t = .next t' ∧
        exec (.oscSyncif i j) s = .next { t' with rspResult := 0x00000001 }) ∧
      (t.rspResult = 0x00000000 → exec (.oscSyncif i j) s = .next t)

/-- R122 (d), R337: a cycle flag changes only by a process command of its own oscillator, or by
`PREPARE`. -/
def Obligations.OnlyProcessCommandsWriteTheCycleFlag : Prop :=
  ∀ (i : Instr) (k : Fin 3) (s t : State), exec i s = .next t →
    (t.osc.get k).cyc ≠ (s.osc.get k).cyc →
    (∃ a, i = .prepare a) ∨
      ∃ u : BitVec 2, u.toNat = k.val ∧
        (i = .oscProc u ∨ (∃ a b, i = .oscProcfm u a b) ∨ ∃ a, i = .oscProcpm u a)

/-! ### The waveform and the phase (R12, R112 to R119, R241) -/

/-- R112, R113: the block's sample is the morph over its configuration, and the morph of any four
waveforms is, at every position, the blend of the two waveforms of its segment, `(1 - t)*a + t*b` in
that order. R114: in `NUM_F32` the words for 0, 0.33 and 0.66 give the value of the pure sine, triangle
and square, and at 1 the blend of square and chaos is at position `0x3F7FFFFF`; for any four waveforms
of range [-1,1]. -/
def Obligations.MorphLandmarks : Prop :=
  (∀ p ph : Sample, Wave.wave p ph = Wave.morph Wave.config p ph) ∧
  (∀ (w : Wave.Fns) (p ph : Sample),
    (le p 0x3EA8F5C3 = true →
      let t := div p 0x3EA8F5C3
      Wave.morph w p ph = add (mul (sub 0x3F800000 t) (w.sine ph)) (mul t (w.tri ph))) ∧
    (le p 0x3EA8F5C3 = false → le p 0x3F28F5C3 = true →
      let t := div (sub p 0x3EA8F5C3) 0x3EA8F5C3
      Wave.morph w p ph = add (mul (sub 0x3F800000 t) (w.tri ph)) (mul t (w.square ph))) ∧
    (le p 0x3EA8F5C3 = false → le p 0x3F28F5C3 = false →
      let t := div (sub p 0x3F28F5C3) 0x3EAE147B
      Wave.morph w p ph = add (mul (sub 0x3F800000 t) (w.square ph)) (mul t (w.chaos ph)))) ∧
  ∀ (w : Wave.Fns) (ph : Sample), w.InRange →
    value (Wave.morph w 0x00000000 ph) = value (w.sine ph) ∧
    value (Wave.morph w 0x3EA8F5C3 ph) = value (w.tri ph) ∧
    value (Wave.morph w 0x3F28F5C3 ph) = value (w.square ph) ∧
    Wave.morph w 0x3F800000 ph =
      add (mul (sub 0x3F800000 0x3F7FFFFF) (w.square ph)) (mul 0x3F7FFFFF (w.chaos ph))

/-- R119: the configuration's four waveforms have range [-1,1]; for every morph position in [0,1] and
any four waveforms of that range, the sample lies in [-1,1], rounding included; so the result of a
process command that ends with `OK` does. -/
def Obligations.OscillatorOutputStaysInRange : Prop :=
  Wave.config.InRange ∧
  (∀ (w : Wave.Fns) (p ph : Sample), w.InRange → within c0 c1 p = true →
    inUnit (Wave.morph w p ph) = true) ∧
  (∀ (i : Instr) (s t : State), (∀ k, within c0 c1 (s.osc.get k).morph = true) →
    (∃ u, i = .oscProc u ∨ (∃ a b, i = .oscProcfm u a b) ∨ ∃ a, i = .oscProcpm u a) →
    exec i s = .next t → t.rspStatus = 0x00 → inUnit t.rspResult = true)

/-- R12, R241: the wrapped phase is `u - floor(u)`, or +0.0 where that is not below 1, and that of a
finite `u` lies in [0,1). -/
def Obligations.WrappedPhaseStaysInCycle : Prop :=
  ∀ u : Sample, finite u = true →
    (lt (sub u (floor u)) 0x3F800000 = true → wrap1 u = sub u (floor u)) ∧
    (le 0x3F800000 (sub u (floor u)) = true → wrap1 u = 0x00000000) ∧
    le c0 (wrap1 u) = true ∧ lt (wrap1 u) c1 = true

/-! ### Envelope commands (R150 to R154) -/

/-- R150: `ENV.SETDECAY` writes the decay time and the coefficient, 0 for `n <= 0`; value and activity
flag stay. -/
def Obligations.EnvSetdecayWritesTheCoefficient : Prop :=
  ∀ (j : BitVec 2) (k : Fin 3) (a : Sample) (s : State), j.toNat = k.val → s.prepared = true →
    encode (.envSetdecay j a) = ⟨0x20000000#32 ||| j.setWidth 32 <<< 20, a, 0x00000000⟩ ∧
    (finite a = true → finite (mul a s.fs) = true →
      exec (.envSetdecay j a) s = .next { s with
        rspStatus := 0x00
        rspResult := 0x00000000
        env := s.env.set k { s.env.get k with
          decay := a
          coeff := if le (mul a s.fs) c0 = true then c0
            else Num.pow c0_001 (div c1 (mul a s.fs)) } }) ∧
    ((finite a = false ∨ finite (mul a s.fs) = false) →
      exec (.envSetdecay j a) s = .next { s with
        rspStatus := 0x03
        rspResult := 0x00000000
        errflags := s.errflags ||| 0b100 })

/-- R151: `ENV.TRIG` writes the clamped velocity and sets the activity flag. -/
def Obligations.EnvTrigSetsValueAndFlag : Prop :=
  ∀ (j : BitVec 2) (k : Fin 3) (a : Sample) (s : State), j.toNat = k.val → s.prepared = true →
    encode (.envTrig j a) = ⟨0x21000000#32 ||| j.setWidth 32 <<< 20, a, 0x00000000⟩ ∧
    (finite a = true →
      exec (.envTrig j a) s = .next { s with
        rspStatus := 0x00
        rspResult := 0x00000000
        env := s.env.set k { s.env.get k with value := clamp a c0 c1, active := true } }) ∧
    (finite a = false →
      exec (.envTrig j a) s = .next { s with
        rspStatus := 0x03
        rspResult := 0x00000000
        errflags := s.errflags ||| 0b100 })

/-- R152: `ENV.PROC` answers the value before the decay; a product below 0.0001, strictly, becomes 0
and clears the activity flag, any other product is stored and keeps it. -/
def Obligations.EnvProcDecaysOrSnaps : Prop :=
  ∀ (j : BitVec 2) (k : Fin 3) (s : State), j.toNat = k.val → s.prepared = true →
    let e := s.env.get k
    encode (.envProc j) = ⟨0x22000000#32 ||| j.setWidth 32 <<< 20, 0x00000000, 0x00000000⟩ ∧
    (lt (mul e.value e.coeff) c0_0001 = true →
      exec (.envProc j) s = .next { s with
        rspStatus := 0x00
        rspResult := e.value
        env := s.env.set k { e with value := c0, active := false } }) ∧
    (lt (mul e.value e.coeff) c0_0001 = false →
      exec (.envProc j) s = .next { s with
        rspStatus := 0x00
        rspResult := e.value
        env := s.env.set k { e with value := mul e.value e.coeff } })

/-- R153: `ENV.ACTIVE` answers the activity flag. -/
def Obligations.EnvActiveReadsTheFlag : Prop :=
  ∀ (j : BitVec 2) (k : Fin 3) (s : State), j.toNat = k.val → s.prepared = true →
    encode (.envActive j) = ⟨0x23000000#32 ||| j.setWidth 32 <<< 20, 0x00000000, 0x00000000⟩ ∧
    exec (.envActive j) s = .next { s with
      rspStatus := 0x00
      rspResult := if (s.env.get k).active = true then 0x00000001 else 0x00000000 }

/-- R154: a trigger followed at once by a process command answers the clamped velocity. -/
def Obligations.TriggerThenProcessAnswersTheVelocity : Prop :=
  ∀ (j : BitVec 2) (a : Sample) (s : State), j.toNat < 3 → s.prepared = true → finite a = true →
    ∃ t t' : State, exec (.envTrig j a) s = .next t ∧ exec (.envProc j) t = .next t' ∧
      t'.rspStatus = 0x00 ∧ t'.rspResult = clamp a c0 c1

/-- R29 (b), R152: under the invariant of an envelope, a process command leaves 0 or a value of at
least 0.0001, never a greater value than before, never sets the activity flag, and an idle envelope
answers 0 and stays as it is. -/
def Obligations.EnvelopeNeverGrows : Prop :=
  ∀ (j : BitVec 2) (k : Fin 3) (s : State), j.toNat = k.val → s.prepared = true →
    (s.env.get k).Inv →
    ∃ t : State, exec (.envProc j) s = .next t ∧
      ((t.env.get k).value = c0 ∨ le c0_0001 (t.env.get k).value = true) ∧
      le (t.env.get k).value (s.env.get k).value = true ∧
      ((t.env.get k).active = true → (s.env.get k).active = true) ∧
      ((s.env.get k).active = false → t.rspResult = c0 ∧ t.env.get k = s.env.get k)

/-! ### Ladder filter commands (R170 to R175) -/

/-- R170: `VCF.SETCUT` writes the clamped cutoff and its coefficient and leaves the stages; a tangent
argument that is not finite refuses it, and so does, by the model's reading, log entry 8 (R95 (4), R30), a
coefficient that is not in [0,1). -/
def Obligations.VcfSetcutWritesTheCoefficient : Prop :=
  ∀ (a : Sample) (s : State), s.prepared = true →
    let fc := clamp a c20 (mul c0_45 s.fs)
    let x := div (mul cPi fc) s.fs
    let g := div (Num.tan x) (add c1 (Num.tan x))
    encode (.vcfSetcut a) = ⟨0x30000000, a, 0x00000000⟩ ∧
    (finite a = true → finite x = true → le c0 g = true → lt g c1 = true →
      exec (.vcfSetcut a) s = .next { s with
        rspStatus := 0x00
        rspResult := 0x00000000
        vcf := { s.vcf with cutoff := fc, g := g } }) ∧
    ((finite a = false ∨ finite x = false ∨ le c0 g = false ∨ lt g c1 = false) →
      exec (.vcfSetcut a) s = .next { s with
        rspStatus := 0x03
        rspResult := 0x00000000
        errflags := s.errflags ||| 0b100 })

/-- R171: `VCF.SETRES` writes the clamped resonance and `k = 4 * r`. -/
def Obligations.VcfSetresWritesTheFeedback : Prop :=
  ∀ (a : Sample) (s : State), s.prepared = true →
    encode (.vcfSetres a) = ⟨0x31000000, a, 0x00000000⟩ ∧
    (finite a = true →
      exec (.vcfSetres a) s = .next { s with
        rspStatus := 0x00
        rspResult := 0x00000000
        vcf := { s.vcf with res := clamp a c0 c1, k := mul c4 (clamp a c0 c1) } }) ∧
    (finite a = false →
      exec (.vcfSetres a) s = .next { s with
        rspStatus := 0x03
        rspResult := 0x00000000
        errflags := s.errflags ||| 0b100 })

/-- R172: `VCF.SETMODE` writes the mode, header bit 16: 0 lowpass, 1 highpass; a header with any of
bits 19:17 set is no command. -/
def Obligations.VcfSetmodeSelectsTheOutput : Prop :=
  (∀ s : State, s.prepared = true →
    exec (.vcfSetmode 0) s = .next { s with
      rspStatus := 0x00
      rspResult := 0x00000000
      vcf := { s.vcf with mode := .lowpass } } ∧
    exec (.vcfSetmode 1) s = .next { s with
      rspStatus := 0x00
      rspResult := 0x00000000
      vcf := { s.vcf with mode := .highpass } }) ∧
  encode (.vcfSetmode 0) = ⟨0x32000000, 0x00000000, 0x00000000⟩ ∧
  encode (.vcfSetmode 1) = ⟨0x32010000, 0x00000000, 0x00000000⟩ ∧
  (∀ p : Packet, hdrOpc p.w0 = 0x32 → p.w0.extractLsb' 17 3 ≠ 0 → decodePacket p = .refused .noRow)

/-- R173: `VCF.PROC` steps the four stages in a row from `tanh(A - fb)`, `fb` from the last stage as
the previous command left it, and answers the new last stage (lowpass) or the raw input less it
(highpass). It is refused where A is not finite, and where the feedback, a new stage or the output is
not (R95 (4), the model's reading, log entry 8). -/
def Obligations.VcfProcStepsTheLadder : Prop :=
  ∀ (a : Sample) (s : State), s.prepared = true →
    let g := s.vcf.g
    let st := s.vcf.stage
    let fb := mul st.u3 s.vcf.k
    let u := Num.tanh (sub a fb)
    let v0 := mul (sub u st.u0) g
    let y0 := add v0 st.u0
    let v1 := mul (sub y0 st.u1) g
    let y1 := add v1 st.u1
    let v2 := mul (sub y1 st.u2) g
    let y2 := add v2 st.u2
    let v3 := mul (sub y2 st.u3) g
    let y3 := add v3 st.u3
    let next : Bank4 Sample := ⟨add y0 v0, add y1 v1, add y2 v2, add y3 v3⟩
    let out := if s.vcf.mode = .lowpass then next.u3 else sub a next.u3
    encode (.vcfProc a) = ⟨0x33000000, a, 0x00000000⟩ ∧
    (finite a = true → finite fb = true → finite next.u0 = true → finite next.u1 = true →
      finite next.u2 = true → finite next.u3 = true → finite out = true →
      exec (.vcfProc a) s = .next { s with
        rspStatus := 0x00
        rspResult := out
        vcf := { s.vcf with stage := next } }) ∧
    ((finite a = false ∨ finite fb = false ∨ finite next.u0 = false ∨ finite next.u1 = false ∨
        finite next.u2 = false ∨ finite next.u3 = false ∨ finite out = false) →
      exec (.vcfProc a) s = .next { s with
        rspStatus := 0x03
        rspResult := 0x00000000
        errflags := s.errflags ||| 0b100 })

/-- R170, R237: at every finite rate above 0 that is not subnormal and every request, where the product
with `PI` does not overflow, the tangent's argument is not negative and at most two units of the last
place above `PI * 0.45`, and the coefficient lies in [0,1) (R30). That bound is the model's reading of R237's
"up to rounding of the product and the quotient", log entry 7. -/
def Obligations.TangentArgumentStaysInItsInterval : Prop :=
  mul cPi c0_45 = 0x3FB4F4AB ∧
  ∀ fs a : Sample, finite fs = true → le 0x00800000 fs = true → finite a = true →
    finite (mul cPi (clampCutoff fs a)) = true →
    le c0 (tanArgument fs (clampCutoff fs a)) = true ∧
    le (tanArgument fs (clampCutoff fs a)) 0x3FB4F4AD = true ∧
    le c0 (cutoffCoeff fs (clampCutoff fs a)) = true ∧
    lt (cutoffCoeff fs (clampCutoff fs a)) c1 = true

/-- R175, R243: the stages never diverge. Under the invariant of the machine, the bounds 2^26, 2^52,
2^78 and 2^104 on the four stages are kept by every step, whatever the inputs. R173: inside them no
`VCF.PROC` with a finite input is refused, in lowpass mode, or in highpass mode with an input up to
2^127. The numbers are the model's: the spec states no bound in binary32. That `tanh` keeps its bound
where `A - fb` overflows is the model's choice, log entry 16. -/
def Obligations.FilterStagesStayBounded : Prop :=
  (∀ s t : State, s.Inv → (s.prepared = true → s.vcf.StagesBounded) → step s = .next t →
    (t.prepared = true → t.vcf.StagesBounded)) ∧
  ∀ (s : State) (a : Sample), s.Inv → s.prepared = true → s.vcf.StagesBounded → finite a = true →
    (s.vcf.mode = .lowpass ∨ boundedBy 0x7F000000 a = true) →
    ∃ t : State, exec (.vcfProc a) s = .next t ∧ t.rspStatus = 0x00

/-! ### Modulation matrix commands (R190 to R203) -/

/-- R190: `MM.SETSLOT` stores both codes as written and the clamped amount in the slot named. -/
def Obligations.MmSetslotStoresTheRecord : Prop :=
  ∀ (n : BitVec 2) (k : Fin 4) (src dst : BitVec 4) (a : Sample) (s : State), n.toNat = k.val →
    s.prepared = true →
    encode (.mmSetslot n src dst a) =
      ⟨0x40000000#32 ||| n.setWidth 32 <<< 20 ||| src.setWidth 32 <<< 16 ||| dst.setWidth 32 <<< 12,
        a, 0x00000000⟩ ∧
    (finite a = true →
      exec (.mmSetslot n src dst a) s = .next { s with
        rspStatus := 0x00
        rspResult := 0x00000000
        mm := { s.mm with slot := s.mm.slot.set k ⟨src, dst, clamp a cNeg1 c1⟩ } }) ∧
    (finite a = false →
      exec (.mmSetslot n src dst a) s = .next { s with
        rspStatus := 0x03
        rspResult := 0x00000000
        errflags := s.errflags ||| 0b100 })

/-- R191: `MM.SETSRC` clamps input 1 to [-1,1] and inputs 2 to 5 to [0,1]; any other number is
`ILLEGAL`. -/
def Obligations.MmSetsrcWritesOneInput : Prop :=
  ∀ (a : Sample) (s : State),
    (∀ n : BitVec 4, encode (.mmSetsrc n a) =
      ⟨0x41000000#32 ||| n.setWidth 32 <<< 20, a, 0x00000000⟩) ∧
    (s.prepared = true → finite a = true →
      exec (.mmSetsrc 1 a) s = .next { s with
        rspStatus := 0x00
        rspResult := 0x00000000
        mm := { s.mm with srcin := { s.mm.srcin with lfo := clamp a cNeg1 c1 } } } ∧
      exec (.mmSetsrc 2 a) s = .next { s with
        rspStatus := 0x00
        rspResult := 0x00000000
        mm := { s.mm with srcin := { s.mm.srcin with env0 := clamp a c0 c1 } } } ∧
      exec (.mmSetsrc 3 a) s = .next { s with
        rspStatus := 0x00
        rspResult := 0x00000000
        mm := { s.mm with srcin := { s.mm.srcin with env1 := clamp a c0 c1 } } } ∧
      exec (.mmSetsrc 4 a) s = .next { s with
        rspStatus := 0x00
        rspResult := 0x00000000
        mm := { s.mm with srcin := { s.mm.srcin with env2 := clamp a c0 c1 } } } ∧
      exec (.mmSetsrc 5 a) s = .next { s with
        rspStatus := 0x00
        rspResult := 0x00000000
        mm := { s.mm with srcin := { s.mm.srcin with vel := clamp a c0 c1 } } }) ∧
    (∀ n : BitVec 4, 1 ≤ n.toNat → n.toNat ≤ 5 → s.prepared = true → finite a = false →
      exec (.mmSetsrc n a) s = .next { s with
        rspStatus := 0x03
        rspResult := 0x00000000
        errflags := s.errflags ||| 0b100 }) ∧
    (∀ n : BitVec 4, n.toNat = 0 ∨ 6 ≤ n.toNat →
      exec (.mmSetsrc n a) s = .next { s with
        rspStatus := 0x01
        rspResult := 0x00000000
        errflags := s.errflags ||| 0b001 })

/-- R192, R193: which slots are active, and the value of each source, which lies in [-1,1] where the
inputs lie in their ranges. -/
def Obligations.ActiveSlotsAndSourceValues : Prop :=
  (∀ x : Slot, x.isActive = true ↔
    (1 ≤ x.src.toNat ∧ x.src.toNat ≤ 6) ∧ (1 ≤ x.dst.toNat ∧ x.dst.toNat ≤ 12)) ∧
  (∀ m : Mm, srcval m 1 = m.srcin.lfo ∧
    srcval m 2 = sub (mul c2 m.srcin.env0) c1 ∧ srcval m 3 = sub (mul c2 m.srcin.env1) c1 ∧
    srcval m 4 = sub (mul c2 m.srcin.env2) c1 ∧ srcval m 5 = sub (mul c2 m.srcin.vel) c1 ∧
    srcval m 6 = m.randHold) ∧
  (∀ (m : Mm) (fs : Sample) (c : BitVec 4), m.Inv fs → inUnit (srcval m c) = true)

/-- R195, R203: `MM.EVAL` first advances the random source if an active slot uses it, then sums every
destination from +0.0 over the active slots in index order; nothing else changes. -/
def Obligations.MmEvalSumsTheSlots : Prop :=
  encode .mmEval = ⟨0x42000000, 0x00000000, 0x00000000⟩ ∧
  ∀ s : State, s.prepared = true →
    let m := s.mm
    let usesRandom := ∃ k, (m.slot.get k).isActive = true ∧ (m.slot.get k).src = 6
    ∃ t : State, exec .mmEval s = .next t ∧
      t = { s with
        rspStatus := 0x00
        rspResult := 0x00000000
        mm := { s.mm with acc := t.mm.acc, randHold := t.mm.randHold, randCtr := t.mm.randCtr }
        draws := t.draws } ∧
      (usesRandom →
        t.mm.randHold = (if m.randCtr = 0 then draw s.draws else m.randHold) ∧
        t.draws = (if m.randCtr = 0 then s.draws + 1 else s.draws) ∧
        t.mm.randCtr =
          (if randPeriod s.fs ≤ m.randCtr.toNat + 1 then 0 else m.randCtr + 1)) ∧
      (¬ usesRandom → t.mm.randHold = m.randHold ∧ t.draws = s.draws ∧ t.mm.randCtr = m.randCtr) ∧
      ∀ d : BitVec 4, 1 ≤ d.toNat → d.toNat ≤ 12 →
        let turn := fun (sum : Sample) (x : Slot) =>
          if x.isActive = true ∧ x.dst = d then add sum (mul (srcval t.mm x.src) x.amt) else sum
        t.mm.acc.read d = turn (turn (turn (turn c0 m.slot.u0) m.slot.u1) m.slot.u2) m.slot.u3

/-- R196: `MM.READ` answers the accumulator of a destination code 1 to 12 and +0.0 for every other
code, and changes nothing. -/
def Obligations.MmReadAnswersTheAccumulator : Prop :=
  ∀ (d : BitVec 4) (s : State), s.prepared = true →
    encode (.mmRead d) = ⟨0x43000000#32 ||| d.setWidth 32 <<< 12, 0x00000000, 0x00000000⟩ ∧
    exec (.mmRead d) s = .next { s with
      rspStatus := 0x00
      rspResult := [c0, s.mm.acc.cutoff, s.mm.acc.reso, s.mm.acc.pitch1, s.mm.acc.pitch2,
        s.mm.acc.ringfreq, s.mm.acc.pan, s.mm.acc.level1, s.mm.acc.level2, s.mm.acc.vcadecay,
        s.mm.acc.noisemod, s.mm.acc.fenvdepth, s.mm.acc.fmamt].getD d.toNat c0 }

/-- R197: replacing an inactive slot by any other inactive slot, whatever its amount, leaves the result
of the next `MM.EVAL` unchanged: all accumulators and the random source. -/
def Obligations.InactiveSlotsNeverMatter : Prop :=
  ∀ (s : State) (k : Fin 4) (x : Slot), s.prepared = true →
    (s.mm.slot.get k).isActive = false → x.isActive = false →
    ∃ t t' : State, exec .mmEval s = .next t ∧
      exec .mmEval { s with mm := { s.mm with slot := s.mm.slot.set k x } } = .next t' ∧
      t'.mm.acc = t.mm.acc ∧ t'.mm.randHold = t.mm.randHold ∧ t'.mm.randCtr = t.mm.randCtr ∧
      t'.draws = t.draws

/-- R198: with the amounts, inputs and the random hold in their ranges, `MM.EVAL` leaves every
accumulator in [-4,4], without a clamp. -/
def Obligations.AccumulatorsStayWithinFour : Prop :=
  ∀ s : State, s.prepared = true → s.mm.Inv s.fs →
    ∃ t : State, exec .mmEval s = .next t ∧
      ∀ d : BitVec 4, within cNeg4 c4 (t.mm.acc.read d) = true

/-- R203, R35, R246: `RAND_PERIOD = max(1, floor(FS / 50))` by the binary32 division, saturated at
2^32 - 1; and with an active RANDOM slot, `n` evaluations from counter 0 make a draw at the first and
then at every `RAND_PERIOD`-th, the hold being the last value drawn. The numbering of the draws by
`State.draws` is the model's, log entry 3. -/
def Obligations.RandomHoldIsRedrawnEveryPeriod : Prop :=
  (∀ fs : Sample, finite fs = true → lt c0 fs = true →
    randPeriod fs =
      min (2 ^ 32 - 1) (max 1 (value (floor (div fs 0x42480000)) / 2 ^ 149).toNat)) ∧
  ∀ (n : Nat) (s : State), s.prepared = true → s.mm.randCtr = 0 →
    (∃ k, (s.mm.slot.get k).usesRandom = true) →
    s.port = List.replicate n (encode .mmEval) →
    ∃ t : State, run n s = .next t ∧
      t.draws = s.draws + (n + randPeriod s.fs - 1) / randPeriod s.fs ∧
      t.mm.randCtr.toNat = n % randPeriod s.fs ∧
      (0 < n → t.mm.randHold = draw (t.draws - 1))

/-! ### Numerics (R232 to R240) -/

/-- R232: the four operations on finite operands are correctly rounded, round to nearest with ties to
even: finite below the overflow threshold, an infinity of the right sign from it on. Values are in units
of 2^-149. The quotient is stated for every divisor but zero, of both signs. -/
def Obligations.OperationsAreCorrectlyRounded : Prop :=
  ∀ a b : Sample, finite a = true → finite b = true →
    CorrectlyRounded (value a + value b) 1 (add a b) ∧
    CorrectlyRounded (value a - value b) 1 (sub a b) ∧
    CorrectlyRounded (value a * value b) (2 ^ 149) (mul a b) ∧
    (0 < value b → CorrectlyRounded (value a * 2 ^ 149) (value b) (div a b)) ∧
    (value b < 0 → CorrectlyRounded (-(value a * 2 ^ 149)) (-value b) (div a b))

/-- R233: the constants are the binary32 values nearest to the decimal literals of the rules. -/
def Obligations.ConstantsAreTheNearestWords : Prop :=
  c0_33 = ofDecimal false 33 2 ∧ c0_66 = ofDecimal false 66 2 ∧ c0_34 = ofDecimal false 34 2 ∧
  c0_001 = ofDecimal false 1 3 ∧ c0_0001 = ofDecimal false 1 4 ∧ c0_45 = ofDecimal false 45 2 ∧
  c0 = ofDecimal false 0 0 ∧ c1 = ofDecimal false 1 0 ∧ c2 = ofDecimal false 2 0 ∧
  c4 = ofDecimal false 4 0 ∧ c12 = ofDecimal false 12 0 ∧ c20 = ofDecimal false 20 0 ∧
  c50 = ofDecimal false 50 0 ∧
  c0_33 = 0x3EA8F5C3 ∧ c0_66 = 0x3F28F5C3 ∧ c0_34 = 0x3EAE147B ∧ c0_001 = 0x3A83126F ∧
  c0_0001 = 0x38D1B717 ∧ c0_45 = 0x3EE66666 ∧ cPi = 0x40490FDB

/-- R234: comparison of finite samples is comparison of their values. R12, R234: the clamp of finite
samples is the upper bound where the bounds are out of order. Where they are in order it is the lower
bound below it, the upper bound above it, and between them the sample itself, as a pattern; so it is
never above the upper bound, and not below the lower one. -/
def Obligations.ClampUpperBoundWins : Prop :=
  (∀ a b : Sample, finite a = true → finite b = true →
    (le a b = true ↔ value a ≤ value b) ∧ (lt a b = true ↔ value a < value b)) ∧
  ∀ x lo hi : Sample, finite x = true → finite lo = true → finite hi = true →
    le (clamp x lo hi) hi = true ∧
    (lt hi lo = true → clamp x lo hi = hi) ∧
    (le lo hi = true → le lo (clamp x lo hi) = true ∧
      (lt x lo = true → clamp x lo hi = lo) ∧
      (lt hi x = true → clamp x lo hi = hi) ∧
      (le lo x = true → le x hi = true → clamp x lo hi = x))

/-- R235: `floor` of a finite sample is exactly the largest integer not above it. -/
def Obligations.FloorIsExact : Prop :=
  ∀ x : Sample, finite x = true →
    finite (floor x) = true ∧ value (floor x) = 2 ^ 149 * floorInt x ∧
    value (floor x) ≤ value x ∧ value x < value (floor x) + 2 ^ 149

/-- R236, R238: the listed properties of `sin` and `tanh`. -/
def Obligations.SineAndTanhProperties : Prop :=
  (∀ x : Sample, finite x = true → finite (Num.sin x) = true ∧ within cNeg1 c1 (Num.sin x) = true) ∧
  Num.sin 0x00000000 = 0x00000000 ∧
  (∀ x : Sample, finite x = true →
    finite (Num.tanh x) = true ∧ within cNeg1 c1 (Num.tanh x) = true ∧
      Num.tanh (neg x) = neg (Num.tanh x)) ∧
  Num.tanh 0x00000000 = 0x00000000 ∧
  (∀ x y : Sample, finite x = true → finite y = true → le x y = true →
    le (Num.tanh x) (Num.tanh y) = true)

/-- R237: the listed properties of `tan`, on the arguments from 0 to `PI * 0.45` and the two units of
the last place that rounding adds at a rate that is not subnormal, log entry 7. So is the bound 2^24 - 1,
which is the model's reading of `g < 1` (R30, R170). -/
def Obligations.TangentProperties : Prop :=
  Num.tan 0x00000000 = 0x00000000 ∧
  (∀ x : Sample, lt c0 x = true → le x 0x3FB4F4AD = true →
    finite (Num.tan x) = true ∧ lt c0 (Num.tan x) = true ∧ le (Num.tan x) 0x4B7FFFFF = true) ∧
  (∀ x y : Sample, le c0 x = true → le x y = true → le y 0x3FB4F4AD = true →
    le (Num.tan x) (Num.tan y) = true)

/-- R239: the listed properties of `pow`, on its one use, with `y` finite; that they hold of an infinite
`y` too, which 1/n is for the least `n`, is log entry 13. -/
def Obligations.DecayPowerProperties : Prop :=
  (∀ y : Sample, lt c0 y = true →
    finite (Num.pow c0_001 y) = true ∧ within c0 c1 (Num.pow c0_001 y) = true) ∧
  (∀ y z : Sample, lt c0 y = true → le y z = true →
    le (Num.pow c0_001 z) (Num.pow c0_001 y) = true)

/-- R240: the listed properties of `exp2`. It is above 0 from -149 on, since R240 lets it be 0 below -149
alone. -/
def Obligations.Exp2Properties : Prop :=
  Num.exp2 0x00000000 = 0x3F800000 ∧ Num.exp2 0x80000000 = 0x3F800000 ∧
  (∀ x : Sample, finite x = true → le c0 (Num.exp2 x) = true) ∧
  (∀ x : Sample, finite x = true → le 0xC3150000 x = true → lt c0 (Num.exp2 x) = true) ∧
  (∀ x y : Sample, finite x = true → finite y = true → le x y = true →
    le (Num.exp2 x) (Num.exp2 y) = true) ∧
  (∀ x : Sample, finite x = true → le 0x43000000 x = true → Num.exp2 x = 0x7F800000)

/-! ### Reset and the invariant (R25, R27, R29, R31, R34, R35, R40) -/

/-- R40: what power-on reset leaves, by the spec; and the state meets the invariant of the machine.
The other elements are unspecified by the spec and zero by the model's choice, log entry 2. -/
def Obligations.ResetState : Prop :=
  State.reset.prepared = false ∧ State.reset.errflags = 0b000 ∧ State.reset.rspStatus = 0x00 ∧
  State.reset.rspResult = 0x00000000 ∧ State.reset.Inv

/-- R25, R27, R29, R31, R34, R35, R243, R300, R301: every step keeps the invariant of the machine, from every
state that meets it. -/
def Obligations.StepKeepsTheInvariant : Prop :=
  ∀ s t : State, s.Inv → step s = .next t → t.Inv
end

