-- ==== Sys2Proof/Laws/Binary32.lean ====
section
/-! SUPPORT. The laws of the arithmetic: rounding is monotone and exact on representable magnitudes,
the order of the patterns is the order of the values, and what each operation says about its
result. -/

namespace Sys2Proof.F32

/-! ### Rounding a quotient to an integer -/

theorem roundQuot_le_succ (n d : Nat) : roundQuot n d ≤ n / d + 1 := by
  unfold roundQuot
  dsimp only
  have := Nat.mod_lt (n / d) (show 0 < 2 by decide)
  split_ifs <;> omega

theorem le_roundQuot (n d : Nat) : n / d ≤ roundQuot n d := by
  unfold roundQuot
  dsimp only
  split_ifs <;> omega

@[simp] theorem roundQuot_mul (q : Nat) {d : Nat} (hd : 0 < d) : roundQuot (q * d) d = q := by
  simp [roundQuot, hd]

/-- Rounding is monotone in the exact quotient. -/
theorem roundQuot_mono {n d n' d' : Nat} (hd : 0 < d) (hd' : 0 < d') (h : n * d' ≤ n' * d) :
    roundQuot n d ≤ roundQuot n' d' := by
  have hq : n / d ≤ n' / d' := by
    rw [Nat.le_div_iff_mul_le hd', ← Nat.mul_le_mul_right_iff hd]
    calc n / d * d' * d = n / d * d * d' := by ring
      _ ≤ n * d' := Nat.mul_le_mul_right _ (Nat.div_mul_le_self n d)
      _ ≤ n' * d := h
  rcases Nat.lt_or_ge (n / d) (n' / d') with hlt | hge
  · exact (roundQuot_le_succ n d).trans (Nat.le_trans hlt (le_roundQuot n' d'))
  · have he : n / d = n' / d' := le_antisymm hq hge
    have hr : n % d * d' ≤ n' % d' * d := by
      have e1 := Nat.div_add_mod n d
      have e2 := Nat.div_add_mod n' d'
      have : (d * (n / d) + n % d) * d' ≤ (d' * (n' / d') + n' % d') * d := by rwa [e1, e2]
      rw [← he] at this
      nlinarith [this]
    have hd2 : 2 * (n % d) * d' ≤ 2 * (n' % d') * d := by nlinarith
    have tie : d ≤ 2 * (n % d) → d' ≤ 2 * (n' % d') := fun h1 => by
      rw [← Nat.mul_le_mul_right_iff hd]
      calc d' * d = d * d' := Nat.mul_comm _ _
        _ ≤ 2 * (n % d) * d' := Nat.mul_le_mul_right _ h1
        _ ≤ _ := hd2
    have above : d < 2 * (n % d) → d' < 2 * (n' % d') := fun h1 => by
      have h2 : d' * d < 2 * (n' % d') * d := by
        calc d' * d = d * d' := Nat.mul_comm _ _
          _ < 2 * (n % d) * d' := Nat.mul_lt_mul_of_pos_right h1 hd'
          _ ≤ _ := hd2
      exact Nat.lt_of_mul_lt_mul_right h2
    unfold roundQuot
    dsimp only
    rw [← he]
    have := Nat.mod_lt (n / d) (show 0 < 2 by decide)
    split_ifs <;> omega

/-! ### Rounding to a binary32 magnitude -/

/-- The exponent that `roundMag` scales by. -/
abbrev scale (n d : Nat) : Nat := Nat.log2 (n / d) - 23

/-- The significand before rounding is below 2^24. -/
theorem div_scale_lt (n d : Nat) : n / (d * 2 ^ scale n d) < 2 ^ 24 := by
  rw [← Nat.div_div_eq_div_mul]
  by_cases h0 : n / d = 0
  · simp [h0]
  · have h1 : n / d < 2 ^ ((n / d).log2 + 1) := Nat.lt_log2_self
    rw [Nat.div_lt_iff_lt_mul (by positivity), ← Nat.pow_add]
    refine h1.trans_le (Nat.pow_le_pow_right (by decide) ?_)
    unfold scale
    omega

/-- With a scale above 0, the significand before rounding is at least 2^23. -/
theorem le_div_scale {n d : Nat} (h : 0 < scale n d) : 2 ^ 23 ≤ n / (d * 2 ^ scale n d) := by
  rw [← Nat.div_div_eq_div_mul]
  have h0 : n / d ≠ 0 := by
    intro h0
    have : scale n d = 0 := by simp [scale, h0]
    omega
  have h1 : 2 ^ (n / d).log2 ≤ n / d := Nat.log2_self_le h0
  rw [Nat.le_div_iff_mul_le (by positivity), ← Nat.pow_add]
  refine (Nat.pow_le_pow_right (by decide) ?_).trans h1
  unfold scale at h ⊢
  omega

theorem scale_mono {n d n' d' : Nat} (hd : 0 < d) (hd' : 0 < d') (h : n * d' ≤ n' * d) :
    scale n d ≤ scale n' d' := by
  have hq : n / d ≤ n' / d' := by
    rw [Nat.le_div_iff_mul_le hd', ← Nat.mul_le_mul_right_iff hd]
    calc n / d * d' * d = n / d * d * d' := by ring
      _ ≤ n * d' := Nat.mul_le_mul_right _ (Nat.div_mul_le_self n d)
      _ ≤ n' * d := h
  have : (n / d).log2 ≤ (n' / d').log2 := by
    by_cases h0 : n / d = 0
    · simp [h0]
    · exact (Nat.le_log2 ((Nat.pos_of_ne_zero h0).trans_le hq).ne').2 ((Nat.log2_self_le h0).trans hq)
  exact Nat.sub_le_sub_right this 23

/-- Rounding is monotone in the exact magnitude. -/
theorem roundMag_mono {n d n' d' : Nat} (hd : 0 < d) (hd' : 0 < d') (h : n * d' ≤ n' * d) :
    roundMag n d ≤ roundMag n' d' := by
  have hs := scale_mono hd hd' h
  have key : scale n d * 2 ^ 23 + roundQuot n (d * 2 ^ scale n d) ≤
      scale n' d' * 2 ^ 23 + roundQuot n' (d' * 2 ^ scale n' d') := by
    rcases Nat.lt_or_ge (scale n d) (scale n' d') with hlt | hge
    · have h1 := div_scale_lt n d
      have h2 := le_div_scale (n := n') (d := d') (by omega)
      have h3 := roundQuot_le_succ n (d * 2 ^ scale n d)
      have h4 := le_roundQuot n' (d' * 2 ^ scale n' d')
      omega
    · have he : scale n d = scale n' d' := le_antisymm hs hge
      rw [he]
      refine Nat.add_le_add_left (roundQuot_mono (by positivity) (by positivity) ?_) _
      calc n * (d' * 2 ^ scale n' d') = n * d' * 2 ^ scale n' d' := by ring
        _ ≤ n' * d * 2 ^ scale n' d' := Nat.mul_le_mul_right _ h
        _ = n' * (d * 2 ^ scale n' d') := by ring
  unfold roundMag
  dsimp only
  exact min_le_min le_rfl key

theorem roundMag_le_inf (n d : Nat) : roundMag n d ≤ infBits := min_le_left _ _

/-- The significand and exponent of finite magnitude bits. -/
theorem magnitude_eq (b : Nat) :
    magnitude b = (b - (b / 2 ^ 23 - 1) * 2 ^ 23) * 2 ^ (b / 2 ^ 23 - 1) := rfl

/-- Rounding is exact on a representable magnitude. -/
theorem roundMag_magnitude {b : Nat} (hb : b < infBits) {d : Nat} (hd : 0 < d) :
    roundMag (magnitude b * d) d = b := by
  have hlow : b - (b / 2 ^ 23 - 1) * 2 ^ 23 < 2 ^ 24 := by omega
  have hscale : scale (magnitude b * d) d = b / 2 ^ 23 - 1 := by
    unfold scale
    rw [Nat.mul_div_cancel _ hd, magnitude_eq]
    rcases Nat.lt_or_ge b (2 ^ 24) with h | h
    · have he : b / 2 ^ 23 - 1 = 0 := by omega
      rw [he]
      by_cases h0 : b = 0
      · simp [h0]
      · have : (b - 0 * 2 ^ 23) * 2 ^ 0 = b := by simp
        rw [this]
        have := (Nat.log2_lt h0).2 h
        omega
    · have hge : 2 ^ 23 ≤ b - (b / 2 ^ 23 - 1) * 2 ^ 23 := by omega
      have hne : b - (b / 2 ^ 23 - 1) * 2 ^ 23 ≠ 0 := by omega
      have hne2 : (b - (b / 2 ^ 23 - 1) * 2 ^ 23) * 2 ^ (b / 2 ^ 23 - 1) ≠ 0 :=
        Nat.mul_ne_zero hne (by positivity)
      have h2 : ((b - (b / 2 ^ 23 - 1) * 2 ^ 23) * 2 ^ (b / 2 ^ 23 - 1)).log2 < 24 + (b / 2 ^ 23 - 1) := by
        rw [Nat.log2_lt hne2, Nat.pow_add]
        exact Nat.mul_lt_mul_of_pos_right hlow (by positivity)
      have h3 : 23 + (b / 2 ^ 23 - 1) ≤
          ((b - (b / 2 ^ 23 - 1) * 2 ^ 23) * 2 ^ (b / 2 ^ 23 - 1)).log2 := by
        rw [Nat.le_log2 hne2, Nat.pow_add]
        exact Nat.mul_le_mul_right _ hge
      omega
  unfold roundMag
  dsimp only
  change min infBits (scale (magnitude b * d) d * 2 ^ 23 +
    roundQuot (magnitude b * d) (d * 2 ^ scale (magnitude b * d) d)) = b
  rw [hscale, magnitude_eq]
  have : (b - (b / 2 ^ 23 - 1) * 2 ^ 23) * 2 ^ (b / 2 ^ 23 - 1) * d =
      (b - (b / 2 ^ 23 - 1) * 2 ^ 23) * (d * 2 ^ (b / 2 ^ 23 - 1)) := by ring
  rw [this, roundQuot_mul _ (by positivity)]
  omega

/-- A magnitude not above a representable one rounds to no more than it. -/
theorem roundMag_le {b n d : Nat} (hb : b < infBits) (hd : 0 < d) (h : n ≤ magnitude b * d) :
    roundMag n d ≤ b :=
  (roundMag_mono hd hd (Nat.mul_le_mul_right d h)).trans_eq (roundMag_magnitude hb hd)

/-- A magnitude not below a representable one rounds to no less than it. -/
theorem le_roundMag {b n d : Nat} (hb : b < infBits) (hd : 0 < d) (h : magnitude b * d ≤ n) :
    b ≤ roundMag n d :=
  (roundMag_magnitude hb hd).symm.trans_le (roundMag_mono hd hd (Nat.mul_le_mul_right d h))

@[simp] theorem roundMag_zero {d : Nat} (hd : 0 < d) : roundMag 0 d = 0 := by
  simpa [magnitude] using roundMag_magnitude (b := 0) (by decide) hd

/-- Magnitudes are ordered as their bits are. -/
theorem magnitude_strictMono {a b : Nat} (hb : b < infBits) (h : a < b) :
    magnitude a < magnitude b := by
  by_contra hc
  have ha : a < infBits := h.trans hb
  have := roundMag_le (n := magnitude b * 1) ha Nat.one_pos (by omega)
  rw [roundMag_magnitude hb Nat.one_pos] at this
  omega

theorem magnitude_le_iff {a b : Nat} (ha : a < infBits) (hb : b < infBits) :
    magnitude a ≤ magnitude b ↔ a ≤ b := by
  constructor
  · intro h
    by_contra hc
    have := magnitude_strictMono ha (not_le.1 hc)
    omega
  · intro h
    rcases Nat.lt_or_eq_of_le h with h1 | h1
    · exact (magnitude_strictMono hb h1).le
    · rw [h1]

@[simp] theorem magnitude_eq_zero_iff {a : Nat} (ha : a < infBits) : magnitude a = 0 ↔ a = 0 := by
  have h0 : magnitude 0 = 0 := by decide
  constructor
  · intro h
    have := (magnitude_le_iff ha (show 0 < infBits by decide)).1 (by omega)
    omega
  · rintro rfl; exact h0

/-- A magnitude below the largest finite one and half a unit of its last place does not overflow. -/
theorem roundMag_lt_inf {n d : Nat} (hd : 0 < d) (h : 2 * n < (2 ^ 25 - 1) * 2 ^ 253 * d) :
    roundMag n d < infBits := by
  have h' : 2 * n < (2 ^ 25 - 1) * (d * 2 ^ 253) := by
    calc 2 * n < (2 ^ 25 - 1) * 2 ^ 253 * d := h
      _ = _ := by ring
  have hq : n / d < 2 ^ 24 * 2 ^ 253 := by
    rw [Nat.div_lt_iff_lt_mul hd]
    calc n < 2 ^ 24 * (d * 2 ^ 253) := by omega
      _ = _ := by ring
  have hs : scale n d ≤ 253 := by
    by_cases h0 : n / d = 0
    · simp [scale, h0]
    · have := (Nat.log2_lt h0).2 (hq.trans_eq (Nat.pow_add 2 24 253).symm)
      unfold scale
      omega
  have h1 := div_scale_lt n d
  have h2 := roundQuot_le_succ n (d * 2 ^ scale n d)
  unfold roundMag
  dsimp only
  change min infBits (scale n d * 2 ^ 23 + roundQuot n (d * 2 ^ scale n d)) < infBits
  refine lt_of_le_of_lt (min_le_right _ _) ?_
  rcases Nat.lt_or_ge (scale n d) 253 with h3 | h3
  · unfold infBits
    omega
  · have he : scale n d = 253 := by omega
    rw [he] at h1 h2 ⊢
    have h4 : roundQuot n (d * 2 ^ 253) ≤ 2 ^ 24 - 1 := by
      have h5 : n < 2 ^ 24 * (d * 2 ^ 253) := by
        rwa [Nat.div_lt_iff_lt_mul (by positivity)] at h1
      unfold roundQuot
      dsimp only
      have h6 := Nat.div_add_mod n (d * 2 ^ 253)
      have h7 : n / (d * 2 ^ 253) ≤ 2 ^ 24 - 1 := by omega
      rcases Nat.lt_or_eq_of_le h7 with h8 | h8
      · split_ifs <;> omega
      · rw [h8] at h6
        have h9 : 2 * (n % (d * 2 ^ 253)) < d * 2 ^ 253 := by
          have aux : ∀ D r : Nat, D * (2 ^ 24 - 1) + r = n → 2 * n < (2 ^ 25 - 1) * D →
              2 * r < D := by intro D r; omega
          exact aux _ _ h6 h'
        rw [if_pos h9, h8]
    unfold infBits
    omega

/-- A magnitude from half a unit of the last place above the largest finite one on rounds to an
infinity. -/
theorem roundMag_eq_inf {n d : Nat} (hd : 0 < d) (h : (2 ^ 25 - 1) * 2 ^ 253 * d ≤ 2 * n) :
    roundMag n d = infBits := by
  have h1 : roundMag ((2 ^ 25 - 1) * 2 ^ 252) 1 = infBits := by decide
  refine le_antisymm (roundMag_le_inf n d) (h1 ▸ roundMag_mono Nat.one_pos hd ?_)
  have : (2 ^ 25 - 1) * 2 ^ 253 * d = 2 * ((2 ^ 25 - 1) * 2 ^ 252 * d) := by ring
  omega

/-! ### Patterns -/

theorem magBits_lt (x : Sample) : magBits x < 2 ^ 31 := Nat.mod_lt _ (by decide)

theorem signBit_pack (s : Bool) {m : Nat} (hm : m < 2 ^ 31) : signBit (pack s m) = s := by
  unfold signBit pack
  cases s <;> simp <;> omega

theorem magBits_pack (s : Bool) {m : Nat} (hm : m < 2 ^ 31) : magBits (pack s m) = m := by
  unfold magBits pack
  cases s <;> simp <;> omega

/-- A pattern is its sign and its magnitude bits. -/
@[simp] theorem pack_signBit_magBits (x : Sample) : pack (signBit x) (magBits x) = x := by
  apply BitVec.eq_of_toNat_eq
  have := x.isLt
  unfold pack signBit magBits
  rw [BitVec.toNat_ofNat]
  by_cases h : 2 ^ 31 ≤ x.toNat
  · rw [decide_eq_true h, if_pos rfl]; omega
  · rw [decide_eq_false h, if_neg (by decide)]; omega

theorem finite_iff (x : Sample) : finite x = true ↔ magBits x < infBits := by simp [finite]

theorem isNaN_of_finite {x : Sample} (h : finite x = true) : isNaN x = false := by
  rw [finite_iff] at h
  simp [isNaN]; omega

theorem isInf_of_finite {x : Sample} (h : finite x = true) : isInf x = false := by
  rw [finite_iff] at h
  simp [isInf]; omega

theorem finite_pack (s : Bool) {m : Nat} (hm : m < 2 ^ 31) :
    finite (pack s m) = decide (m < infBits) := by
  rw [finite, magBits_pack s hm]

theorem isNaN_pack (s : Bool) {m : Nat} (hm : m ≤ infBits) : isNaN (pack s m) = false := by
  have : m < 2 ^ 31 := hm.trans_lt (by decide)
  rw [isNaN, magBits_pack s this]
  simpa using hm

/-! ### Values and the order -/

theorem value_pack_false {m : Nat} (hm : m < 2 ^ 31) : value (pack false m) = magnitude m := by
  rw [value, signBit_pack _ hm, magBits_pack _ hm]; simp

theorem value_pack_true {m : Nat} (hm : m < 2 ^ 31) :
    value (pack true m) = -(magnitude m : Int) := by
  rw [value, signBit_pack _ hm, magBits_pack _ hm]; simp

theorem natAbs_value (x : Sample) : (value x).natAbs = magnitude (magBits x) := by
  unfold value
  split <;> simp

/-- The order of the patterns is the order of the values. -/
theorem key_le_key_iff {a b : Sample} (ha : finite a = true) (hb : finite b = true) :
    key a ≤ key b ↔ value a ≤ value b := by
  rw [finite_iff] at ha hb
  have h1 := magnitude_le_iff ha hb
  have h2 := magnitude_le_iff hb ha
  have h3 := magnitude_eq_zero_iff ha
  have h4 := magnitude_eq_zero_iff hb
  unfold key value
  cases signBit a <;> cases signBit b <;> simp only [Bool.false_eq_true, if_true, if_false] <;> omega

theorem le_iff {a b : Sample} (ha : finite a = true) (hb : finite b = true) :
    le a b = true ↔ value a ≤ value b := by
  simp [le, isNaN_of_finite ha, isNaN_of_finite hb, key_le_key_iff ha hb]

theorem lt_iff {a b : Sample} (ha : finite a = true) (hb : finite b = true) :
    lt a b = true ↔ value a < value b := by
  have := key_le_key_iff hb ha
  simp only [lt, isNaN_of_finite ha, isNaN_of_finite hb, Bool.not_false, Bool.true_and,
    decide_eq_true_eq]
  omega

/-- Without a NaN, `a < b` fails exactly where `b <= a`. -/
theorem not_lt_iff_le {a b : Sample} (ha : isNaN a = false) (hb : isNaN b = false) :
    lt a b = false ↔ le b a = true := by
  simp [lt, le, ha, hb]

theorem le_total {a b : Sample} (ha : isNaN a = false) (hb : isNaN b = false) :
    le a b = true ∨ le b a = true := by
  simp [le, ha, hb]; omega

theorem le_refl {a : Sample} (ha : isNaN a = false) : le a a = true := by simp [le, ha]

theorem le_trans {a b c : Sample} (h1 : le a b = true) (h2 : le b c = true) : le a c = true := by
  simp only [le, Bool.and_eq_true, Bool.not_eq_true', decide_eq_true_eq] at h1 h2 ⊢
  exact ⟨⟨h1.1.1, h2.1.2⟩, h1.2.trans h2.2⟩

/-- Between two finite samples everything is finite. -/
theorem finite_of_within {lo hi x : Sample} (hlo : finite lo = true) (hhi : finite hi = true)
    (h : within lo hi x = true) : finite x = true := by
  rw [finite_iff] at hlo hhi ⊢
  simp only [within, le, Bool.and_eq_true, Bool.not_eq_true', decide_eq_true_eq] at h
  obtain ⟨⟨-, h1⟩, -, h2⟩ := h
  unfold key at h1 h2
  split_ifs at h1 h2 <;> omega

theorem within_iff {lo hi x : Sample} (hlo : finite lo = true) (hhi : finite hi = true)
    (hx : finite x = true) :
    within lo hi x = true ↔ value lo ≤ value x ∧ value x ≤ value hi := by
  simp [within, le_iff hlo hx, le_iff hx hhi]

/-! ### Signed rounding: every operation rounds an exact value once -/

/-- The exact result `v / d` (in units of 2^-149) that a pattern `x` is a rounding of: its sign is that
of `v`, and its magnitude is rounded. A zero may have either sign. -/
structure Rounds (v : Int) (d : Nat) (x : Sample) : Prop where
  magBits_eq : magBits x = roundMag v.natAbs d
  sign_pos : 0 < v → signBit x = false
  sign_neg : v < 0 → signBit x = true

theorem Rounds.isNaN {v : Int} {d : Nat} {x : Sample} (h : Rounds v d x) : isNaN x = false := by
  have := roundMag_le_inf v.natAbs d
  simp [F32.isNaN, h.magBits_eq, this]

/-- A rounding of something not above a finite sample is not above it. -/
theorem Rounds.le_of_le {v : Int} {d : Nat} {x c : Sample} (h : Rounds v d x) (hd : 0 < d)
    (hc : finite c = true) (hv : v ≤ value c * d) : le x c = true := by
  have hcf := (finite_iff c).1 hc
  have hn := natAbs_value c
  simp only [le, h.isNaN, isNaN_of_finite hc, Bool.not_false, Bool.true_and, decide_eq_true_eq]
  unfold key
  rw [h.magBits_eq]
  have hz := magnitude_eq_zero_iff hcf
  rcases lt_trichotomy v 0 with hneg | h0 | hpos
  · rw [h.sign_neg hneg]
    rcases hs : signBit c with _ | _
    · simp only [if_true, Bool.false_eq_true, if_false]; omega
    · have hval : value c = -(magnitude (magBits c) : Int) := by simp [value, hs]
      have : magnitude (magBits c) * d ≤ v.natAbs := by
        rw [hval] at hv
        have : ((magnitude (magBits c) * d : Nat) : Int) ≤ -v := by push_cast; linarith
        omega
      have := le_roundMag hcf hd this
      simp; omega
  · subst h0
    simp only [Int.natAbs_zero, roundMag_zero hd]
    rcases hs : signBit c with _ | _
    · simp
    · have hval : value c = -(magnitude (magBits c) : Int) := by simp [value, hs]
      rw [hval] at hv
      have hm : magnitude (magBits c) = 0 := by
        by_contra hm
        have : (0 : Int) < (magnitude (magBits c) : Int) * d := by
          have := Nat.pos_of_ne_zero hm
          positivity
        linarith
      simp [hz.1 hm]
  · rw [h.sign_pos hpos]
    rcases hs : signBit c with _ | _
    · have hval : value c = (magnitude (magBits c) : Int) := by simp [value, hs]
      have : v.natAbs ≤ magnitude (magBits c) * d := by
        rw [hval] at hv
        have : v ≤ ((magnitude (magBits c) * d : Nat) : Int) := by push_cast; linarith
        omega
      have := roundMag_le hcf hd this
      simp; omega
    · have hval : value c = -(magnitude (magBits c) : Int) := by simp [value, hs]
      rw [hval] at hv
      have : (0 : Int) ≤ (magnitude (magBits c) : Int) * d := by positivity
      linarith

/-- A rounding of something not below a finite sample is not below it. -/
theorem Rounds.le_of_ge {v : Int} {d : Nat} {x c : Sample} (h : Rounds v d x) (hd : 0 < d)
    (hc : finite c = true) (hv : value c * d ≤ v) : le c x = true := by
  have hcf := (finite_iff c).1 hc
  simp only [le, h.isNaN, isNaN_of_finite hc, Bool.not_false, Bool.true_and, decide_eq_true_eq]
  unfold key
  rw [h.magBits_eq]
  have hz := magnitude_eq_zero_iff hcf
  rcases lt_trichotomy v 0 with hneg | h0 | hpos
  · rw [h.sign_neg hneg]
    rcases hs : signBit c with _ | _
    · have hval : value c = (magnitude (magBits c) : Int) := by simp [value, hs]
      rw [hval] at hv
      have : (0 : Int) ≤ (magnitude (magBits c) : Int) * d := by positivity
      linarith
    · have hval : value c = -(magnitude (magBits c) : Int) := by simp [value, hs]
      have : v.natAbs ≤ magnitude (magBits c) * d := by
        rw [hval] at hv
        have : -v ≤ ((magnitude (magBits c) * d : Nat) : Int) := by push_cast; linarith
        omega
      have := roundMag_le hcf hd this
      simp; omega
  · subst h0
    simp only [Int.natAbs_zero, roundMag_zero hd]
    rcases hs : signBit c with _ | _
    · have hval : value c = (magnitude (magBits c) : Int) := by simp [value, hs]
      rw [hval] at hv
      have hm : magnitude (magBits c) = 0 := by
        by_contra hm
        have : (0 : Int) < (magnitude (magBits c) : Int) * d := by
          have := Nat.pos_of_ne_zero hm
          positivity
        linarith
      simp [hz.1 hm]
    · simp
  · rw [h.sign_pos hpos]
    rcases hs : signBit c with _ | _
    · have hval : value c = (magnitude (magBits c) : Int) := by simp [value, hs]
      have : magnitude (magBits c) * d ≤ v.natAbs := by
        rw [hval] at hv
        have : ((magnitude (magBits c) * d : Nat) : Int) ≤ v := by push_cast; linarith
        omega
      have := le_roundMag hcf hd this
      simp; omega
    · simp only [if_true, Bool.false_eq_true, if_false]; omega

/-- A rounding of something between two finite samples is between them. -/
theorem Rounds.within {v : Int} {d : Nat} {x lo hi : Sample} (h : Rounds v d x) (hd : 0 < d)
    (hlo : finite lo = true) (hhi : finite hi = true) (h1 : value lo * d ≤ v)
    (h2 : v ≤ value hi * d) : within lo hi x = true := by
  simp [F32.within, h.le_of_ge hd hlo h1, h.le_of_le hd hhi h2]

/-- A rounding of something below the overflow threshold is finite. -/
theorem Rounds.finite {v : Int} {d : Nat} {x : Sample} (h : Rounds v d x) (hd : 0 < d)
    (hv : 2 * v.natAbs < (2 ^ 25 - 1) * 2 ^ 253 * d) : finite x = true := by
  rw [finite_iff, h.magBits_eq]
  exact roundMag_lt_inf hd hv

/-- A rounding of something from the overflow threshold on is an infinity of its sign. -/
theorem Rounds.overflow {v : Int} {d : Nat} {x : Sample} (h : Rounds v d x) (hd : 0 < d)
    (hv : (2 ^ 25 - 1) * 2 ^ 253 * d ≤ 2 * v.natAbs) :
    x = if 0 < v then 0x7F800000#32 else 0xFF800000#32 := by
  have h1 := h.magBits_eq.trans (roundMag_eq_inf hd hv)
  have h0 : v ≠ 0 := by
    rintro rfl
    have : 0 < (2 ^ 25 - 1) * 2 ^ 253 * d := by positivity
    simp only [Int.natAbs_zero] at hv
    omega
  rw [← pack_signBit_magBits x, h1]
  split_ifs with hp
  · rw [h.sign_pos hp]; decide
  · rw [h.sign_neg (by omega)]; decide

theorem infBits_lt : infBits < 2 ^ 31 := by decide

/-- What `add` does to two finite samples: their exact sum, rounded once. -/
theorem add_rounds {a b : Sample} (ha : finite a = true) (hb : finite b = true) :
    Rounds (value a + value b) 1 (add a b) := by
  have hr := (roundMag_le_inf (value a + value b).natAbs 1).trans_lt infBits_lt
  unfold add
  simp only [isNaN_of_finite ha, isNaN_of_finite hb, isInf_of_finite ha, isInf_of_finite hb,
    Bool.or_self, Bool.false_eq_true, if_false]
  by_cases h : value a + value b = 0
  · rw [if_pos h, h]
    exact ⟨by rw [magBits_pack _ (by decide)]; simp, by simp, by simp⟩
  · rw [if_neg h]
    refine ⟨magBits_pack _ hr, fun h => ?_, fun h => ?_⟩ <;> rw [signBit_pack _ hr] <;> simp <;> omega

theorem value_neg (x : Sample) : value (neg x) = -value x := by
  have := magBits_lt x
  unfold value neg
  rw [signBit_pack _ this, magBits_pack _ this]
  cases signBit x <;> simp

@[simp] theorem finite_neg (x : Sample) : finite (neg x) = finite x := by
  simp [finite, neg, magBits_pack _ (magBits_lt x)]

/-- What `sub` does to two finite samples: their exact difference, rounded once. -/
theorem sub_rounds {a b : Sample} (ha : finite a = true) (hb : finite b = true) :
    Rounds (value a - value b) 1 (sub a b) := by
  have := add_rounds ha (b := neg b) (by simpa using hb)
  rwa [value_neg] at this

/-- What `mul` does to two finite samples: their exact product, rounded once. -/
theorem mul_rounds {a b : Sample} (ha : finite a = true) (hb : finite b = true) :
    Rounds (value a * value b) (2 ^ 149) (mul a b) := by
  have hr := (roundMag_le_inf (magnitude (magBits a) * magnitude (magBits b)) (2 ^ 149)).trans_lt infBits_lt
  unfold mul
  simp only [isNaN_of_finite ha, isNaN_of_finite hb, isInf_of_finite ha, isInf_of_finite hb,
    Bool.or_self, Bool.false_eq_true, if_false]
  refine ⟨?_, fun h => ?_, fun h => ?_⟩
  · rw [magBits_pack _ hr, Int.natAbs_mul, natAbs_value, natAbs_value]
  · rw [signBit_pack _ hr]
    unfold value at h
    cases hsa : signBit a <;> cases hsb : signBit b <;> simp [hsa, hsb] at h ⊢ <;>
      nlinarith [Int.natCast_nonneg (magnitude (magBits a)), Int.natCast_nonneg (magnitude (magBits b)),
        mul_nonneg (Int.natCast_nonneg (magnitude (magBits a))) (Int.natCast_nonneg (magnitude (magBits b)))]
  · rw [signBit_pack _ hr]
    unfold value at h
    cases hsa : signBit a <;> cases hsb : signBit b <;> simp [hsa, hsb] at h ⊢ <;>
      nlinarith [Int.natCast_nonneg (magnitude (magBits a)), Int.natCast_nonneg (magnitude (magBits b)),
        mul_nonneg (Int.natCast_nonneg (magnitude (magBits a))) (Int.natCast_nonneg (magnitude (magBits b)))]

/-- What `div` does to a finite sample and a positive finite one: the exact quotient, rounded once. -/
theorem div_rounds {a b : Sample} (ha : finite a = true) (hb : finite b = true) (hpos : 0 < value b) :
    Rounds (value a * 2 ^ 149) (magnitude (magBits b)) (div a b) := by
  have hr := (roundMag_le_inf (magnitude (magBits a) * 2 ^ 149) (magnitude (magBits b))).trans_lt infBits_lt
  have hsb : signBit b = false := by
    by_contra h
    have h : signBit b = true := by simpa using h
    simp [value, h] at hpos
    omega
  have hzb : isZero b = false := by
    by_contra h
    have h : magBits b = 0 := by simpa [isZero] using h
    simp [value, hsb, h, magnitude] at hpos
  unfold div
  simp only [isNaN_of_finite ha, isNaN_of_finite hb, isInf_of_finite ha, isInf_of_finite hb, hzb,
    Bool.or_self, Bool.false_eq_true, if_false, hsb]
  refine ⟨?_, fun h => ?_, fun h => ?_⟩
  · rw [magBits_pack _ hr, Int.natAbs_mul, natAbs_value]; rfl
  · rw [signBit_pack _ hr]
    have h : 0 < value a := by by_contra hc; nlinarith
    unfold value at h
    cases hsa : signBit a <;> simp [hsa] at h ⊢
    omega
  · rw [signBit_pack _ hr]
    have h : value a < 0 := by by_contra hc; nlinarith
    unfold value at h
    cases hsa : signBit a <;> simp [hsa] at h ⊢
    omega

/-- Changing the sign of both operands of `div` changes nothing, for finite operands and a divisor that is
not zero. -/
theorem div_neg_neg {a b : Sample} (ha : finite a = true) (hb : finite b = true)
    (h0 : value b ≠ 0) : div (neg a) (neg b) = div a b := by
  have ma : magBits (neg a) = magBits a := magBits_pack _ (magBits_lt a)
  have mb : magBits (neg b) = magBits b := magBits_pack _ (magBits_lt b)
  have sa : signBit (neg a) = !signBit a := signBit_pack _ (magBits_lt a)
  have sb : signBit (neg b) = !signBit b := signBit_pack _ (magBits_lt b)
  have fa : finite (neg a) = true := by rwa [finite_neg]
  have fb : finite (neg b) = true := by rwa [finite_neg]
  have hz : ∀ c : Sample, magBits c = magBits b → isZero c = false := by
    intro c hc
    have : magBits b ≠ 0 := fun h => h0 (by simp [value, h, magnitude])
    simp [isZero, hc, this]
  unfold div
  simp only [isNaN_of_finite ha, isNaN_of_finite hb, isInf_of_finite ha, isInf_of_finite hb,
    isNaN_of_finite fa, isNaN_of_finite fb, isInf_of_finite fa, isInf_of_finite fb, hz b rfl,
    hz (neg b) mb, Bool.or_self, Bool.false_eq_true, if_false, ma, mb, sa, sb]
  cases signBit a <;> cases signBit b <;> rfl

/-- What `div` does to a finite sample and a negative finite one. -/
theorem div_rounds_neg {a b : Sample} (ha : finite a = true) (hb : finite b = true)
    (hneg : value b < 0) : Rounds (-(value a * 2 ^ 149)) (magnitude (magBits b)) (div a b) := by
  have h := div_rounds (a := neg a) (b := neg b) (by rwa [finite_neg]) (by rwa [finite_neg])
    (by rw [value_neg]; omega)
  rw [div_neg_neg ha hb hneg.ne, value_neg, show magBits (neg b) = magBits b from
    magBits_pack _ (magBits_lt b), neg_mul] at h
  exact h

/-! ### `clamp` and the unit range -/

/-- A clamped finite sample lies within ordered finite bounds. -/
theorem within_clamp {x lo hi : Sample} (hx : finite x = true) (hlo : finite lo = true)
    (hhi : finite hi = true) (h : le lo hi = true) : within lo hi (clamp x lo hi) = true := by
  have nx := isNaN_of_finite hx
  have nlo := isNaN_of_finite hlo
  have nhi := isNaN_of_finite hhi
  unfold clamp fmin fmax within
  rcases le_total nx nlo with h1 | h1 <;> rcases le_total nx nhi with h2 | h2 <;>
    split_ifs <;> simp_all [le_refl]

/-- A sample within the bounds is clamped to itself. -/
theorem clamp_of_within {x lo hi : Sample} (h : within lo hi x = true) : clamp x lo hi = x := by
  simp only [within, Bool.and_eq_true] at h
  simp [clamp, fmax, fmin, h.1, h.2]

/-- Whatever its bounds, a clamped finite sample is finite if they are. -/
theorem finite_clamp {x lo hi : Sample} (hx : finite x = true) (hlo : finite lo = true)
    (hhi : finite hi = true) : finite (clamp x lo hi) = true := by
  unfold clamp fmin fmax
  split_ifs <;> assumption

theorem inUnit_restrictUnit (x : Sample) : inUnit (restrictUnit x) = true := by
  unfold restrictUnit
  split_ifs with h
  · exact h
  · decide

/-- Every sample in [-1,1] is its own restriction: the restriction leaves out no value. -/
theorem restrictUnit_of_inUnit {x : Sample} (h : inUnit x = true) : restrictUnit x = x := by
  simp [restrictUnit, h]

theorem finite_of_inUnit {x : Sample} (h : inUnit x = true) : finite x = true :=
  finite_of_within (by decide) (by decide) h

end Sys2Proof.F32
end

