-- ==== Sys2Proof/Laws/Ops.lean ====
section
/-! SUPPORT. One lemma for each shared operation, saying what it can do: the processing steps of R95,
how a command ends, what a step can be, and what decoding answers. -/

namespace Sys2Proof.Machine

open Sys2Proof.F32

@[simp] theorem settle_done (s t : State) (r : Word) : settle s (.done t r) = respond t r := rfl

@[simp] theorem settle_refuse (s : State) (st : Status) :
    settle s (.refuse st) = raiseStatus st s := rfl

theorem answer_eq (s : State) (r : Reply) : answer s r = .next (settle s r) := rfl

@[simp] theorem answer_eq_next_iff (s t : State) (r : Reply) :
    answer s r = .next t ↔ settle s r = t := by
  rw [answer_eq]
  exact ⟨fun h => by injection h, fun h => by rw [h]⟩

@[simp] theorem whenPrepared_of_prepared {s : State} (h : s.prepared = true) (body : Reply) :
    whenPrepared s body = body := by simp [whenPrepared, h]

@[simp] theorem whenPrepared_of_not {s : State} (h : s.prepared = false) (body : Reply) :
    whenPrepared s body = .refuse .notPrepared := by simp [whenPrepared, h]

@[simp] theorem needFinite_nil (body : Reply) : needFinite [] body = body := rfl

theorem needFinite_cons (x : Sample) (xs : List Sample) (body : Reply) :
    needFinite (x :: xs) body = if finite x then needFinite xs body else .refuse .badOperand := by
  unfold needFinite
  cases h : finite x <;> simp [h]

@[simp] theorem needFinite_one {x : Sample} (h : finite x = true) (body : Reply) :
    needFinite [x] body = body := by simp [needFinite_cons, h]

@[simp] theorem needFinite_two {x y : Sample} (hx : finite x = true) (hy : finite y = true)
    (body : Reply) : needFinite [x, y] body = body := by simp [needFinite_cons, hx, hy]

/-- What `needFinite` can be: its body, with every value finite, or `BAD_OPERAND`. -/
theorem needFinite_cases (xs : List Sample) (body : Reply) :
    (xs.all finite = true ∧ needFinite xs body = body) ∨
      (xs.all finite = false ∧ needFinite xs body = .refuse .badOperand) := by
  unfold needFinite
  cases h : xs.all finite
  · exact .inr ⟨rfl, by simp⟩
  · exact .inl ⟨rfl, by simp⟩

/-- What `whenPrepared` can be: its body, prepared, or `NOT_PREPARED`. -/
theorem whenPrepared_cases (s : State) (body : Reply) :
    (s.prepared = true ∧ whenPrepared s body = body) ∨
      (s.prepared = false ∧ whenPrepared s body = .refuse .notPrepared) := by
  cases h : s.prepared
  · exact .inr ⟨rfl, by simp [h]⟩
  · exact .inl ⟨rfl, by simp [h]⟩

theorem instanceOf_eq_some_iff (u : BitVec 2) (k : Fin 3) :
    instanceOf u = some k ↔ u.toNat = k.val := by
  unfold instanceOf
  by_cases h : u.toNat < 3
  · simp [h, Fin.ext_iff]
  · have := k.isLt
    simp [h]; omega

theorem instanceOf_isSome_iff (u : BitVec 2) :
    (∃ k, instanceOf u = some k) ↔ instanceInRange u = true := by
  unfold instanceOf instanceInRange
  by_cases h : u.toNat < 3
  · simp [h]
  · simp [h]

@[simp] theorem withInstance_some {u : BitVec 2} {k : Fin 3} (h : instanceOf u = some k)
    (body : Fin 3 → Reply) : withInstance u body = body k := by simp [withInstance, h]

/-- What `withInstance` can be: its body at the instance named, or `ILLEGAL`. -/
theorem withInstance_cases (u : BitVec 2) (body : Fin 3 → Reply) :
    (∃ k, instanceOf u = some k ∧ withInstance u body = body k) ∨
      (instanceInRange u = false ∧ withInstance u body = .refuse .illegal) := by
  cases h : instanceOf u with
  | some k => exact .inl ⟨k, rfl, by simp [h]⟩
  | none =>
    refine .inr ⟨?_, by simp [withInstance, h]⟩
    by_contra hc
    obtain ⟨k, hk⟩ := (instanceOf_isSome_iff u).2 (by simpa using hc)
    simp [h] at hk

/-- A source input is written exactly where its number is in range (R90). -/
theorem Srcin.write_isSome_iff (b : Srcin) (n : BitVec 4) (a : Sample) :
    (b.write n a).isSome = sourceInputInRange n := by
  have h : ∀ n : BitVec 4, (b.write n a).isSome = sourceInputInRange n := by
    intro n
    have hn := n.isLt
    obtain ⟨m, hm⟩ : ∃ m, n.toNat = m := ⟨_, rfl⟩
    unfold Srcin.write sourceInputInRange
    rw [hm] at hn ⊢
    interval_cases m <;> rfl
  exact h n

/-- Reading the accumulators made from a function gives the function, on a code that names one. -/
theorem Acc.read_ofFn (f : BitVec 4 → Sample) {d : BitVec 4} (h1 : 1 ≤ d.toNat) (h2 : d.toNat ≤ 12) :
    (Acc.ofFn f).read d = f d := by
  obtain ⟨m, hm⟩ : ∃ m, d.toNat = m := ⟨_, rfl⟩
  have hd : d = BitVec.ofNat 4 m := by
    apply BitVec.eq_of_toNat_eq
    rw [BitVec.toNat_ofNat]
    omega
  subst hd
  unfold Acc.read
  rw [hm] at h1 h2 ⊢
  interval_cases m <;> rfl

/-- A code that names no accumulator reads +0.0 (R196). -/
theorem Acc.read_of_no_destination (a : Acc) {d : BitVec 4} (h : d.toNat = 0 ∨ 12 < d.toNat) :
    a.read d = c0 := by
  have hd := d.isLt
  obtain ⟨m, hm⟩ : ∃ m, d.toNat = m := ⟨_, rfl⟩
  unfold Acc.read
  rw [hm] at h hd ⊢
  interval_cases m <;> first | rfl | omega

/-- Every command answers a next state (R18): an oscillator process command either advances, or is
refused with `BAD_OPERAND`. -/
theorem oscStep_cases (k : Fin 3) (einc : Sample) (s : State) :
    (finite einc = true ∧ finite (add (s.osc.get k).phase einc) = true ∧
      oscStep k einc s = .done
        (putOsc s k { s.osc.get k with
          phase := wrap1 (add (s.osc.get k).phase einc)
          cyc := wrapFlag (add (s.osc.get k).phase einc) })
        (Wave.wave (s.osc.get k).morph (s.osc.get k).phase)) ∨
      ((finite einc = false ∨ finite (add (s.osc.get k).phase einc) = false) ∧
        oscStep k einc s = .refuse .badOperand) := by
  unfold oscStep
  rcases needFinite_cases [einc, add (s.osc.get k).phase einc]
    (.done (putOsc s k { s.osc.get k with
      phase := wrap1 (add (s.osc.get k).phase einc)
      cyc := wrapFlag (add (s.osc.get k).phase einc) })
      (Wave.wave (s.osc.get k).morph (s.osc.get k).phase)) with ⟨h1, h2⟩ | ⟨h1, h2⟩
  · simp only [List.all_cons, List.all_nil, Bool.and_true, Bool.and_eq_true] at h1
    exact .inl ⟨h1.1, h1.2, h2⟩
  · refine .inr ⟨?_, h2⟩
    simp only [List.all_cons, List.all_nil, Bool.and_true] at h1
    exact Bool.and_eq_false_iff.1 h1

/-! ### A step -/

theorem step_of_idle {s : State} (h : s.port = []) : step s = .next s := by
  simp [step, takePacket, h]

theorem step_of_packet {s : State} {p : Packet} {rest : List Packet} (h : s.port = p :: rest) :
    step s = match decodePacket p with
      | .instr i => exec i { s with port := rest }
      | .refused _ => answer { s with port := rest } (.refuse .illegal) := by
  cases hd : decodePacket p <;> simp only [step, takePacket, h, hd]

/-- What a step can be: idle, a refused packet, or a command. -/
theorem step_cases (s : State) :
    (s.port = [] ∧ step s = .next s) ∨
      ∃ p rest, s.port = p :: rest ∧
        ((∃ e, decodePacket p = .refused e ∧
            step s = .next (raiseStatus .illegal { s with port := rest })) ∨
          ∃ i, decodePacket p = .instr i ∧ step s = exec i { s with port := rest }) := by
  cases h : s.port with
  | nil => exact .inl ⟨rfl, step_of_idle h⟩
  | cons p rest =>
    refine .inr ⟨p, rest, rfl, ?_⟩
    rw [step_of_packet h]
    cases hd : decodePacket p with
    | instr i => exact .inr ⟨i, rfl, rfl⟩
    | refused e => exact .inl ⟨e, rfl, rfl⟩

end Sys2Proof.Machine

namespace Sys2Proof

/-! ### Decoding -/

/-- A decoded command is the reading of a row that the header selects, and is well-formed. -/
theorem decodePacket_eq_instr {p : Packet} {i : Instr} (h : decodePacket p = .instr i) :
    ∃ r ∈ rows, r.selects p.w0 = true ∧ r.build p = i ∧ i.wellFormed = true := by
  unfold decodePacket at h
  cases hr : selectRow p.w0 with
  | none => simp [hr] at h
  | some r =>
    simp only [hr] at h
    split at h
    · rename_i hw
      injection h with h
      subst h
      exact ⟨r, List.mem_of_find?_eq_some hr, by simpa using List.find?_some hr, rfl, hw⟩
    · simp at h

/-- The four bytes of a word give the word back (R63). -/
theorem wordOfBytes_bytesOfWord (w : Word) :
    wordOfBytes (w.extractLsb' 0 8) (w.extractLsb' 8 8) (w.extractLsb' 16 8) (w.extractLsb' 24 8) = w := by
  apply BitVec.eq_of_getLsbD_eq
  intro i hi
  unfold wordOfBytes
  simp only [BitVec.getLsbD_append, BitVec.getLsbD_extractLsb']
  interval_cases i <;> rfl

/-- The bytes of a packet, with any bytes after them, read as the packet (R63). -/
theorem packetOfBytes_packetToBytes (p : Packet) (rest : List Byte) :
    packetOfBytes (packetToBytes p ++ rest) = some (p, rest) := by
  obtain ⟨w0, w1, w2⟩ := p
  simp only [packetToBytes, bytesOfWord, List.cons_append, List.nil_append, packetOfBytes,
    wordOfBytes_bytesOfWord]

end Sys2Proof
end

