-- ==== Sys2Proof/Laws/Decode.lean ====
section
/-! SUPPORT. A header is its fields (R83), and a row of the match and mask table is a condition on each
field by itself (R87). -/

namespace Sys2Proof

/-- A header is its five fields in order (R83). -/
theorem header_fields (w : Word) :
    w = hdrOpc w ++ hdrUnit w ++ hdrX w ++ hdrY w ++ hdrZero w := by
  apply BitVec.eq_of_getLsbD_eq
  intro i hi
  simp only [hdrOpc, hdrUnit, hdrX, hdrY, hdrZero, BitVec.getLsbD_append, BitVec.getLsbD_extractLsb']
  interval_cases i <;> rfl

theorem append_eq_append_iff {n m : Nat} {a a' : BitVec n} {b b' : BitVec m} :
    a ++ b = a' ++ b' ↔ a = a' ∧ b = b' := by
  constructor
  · intro h
    constructor
    · have := congrArg (fun v => BitVec.extractLsb' m n v) h
      simpa [BitVec.extractLsb'_append_eq_left] using this
    · have := congrArg (fun v => BitVec.extractLsb' 0 m v) h
      simpa [BitVec.extractLsb'_append_eq_right] using this
  · rintro ⟨rfl, rfl⟩; rfl

/-- Two headers made of fields are equal field by field. -/
theorem fields_inj {o o' : BitVec 8} {u u' x x' y y' : BitVec 4} {z z' : BitVec 12} :
    o ++ u ++ x ++ y ++ z = o' ++ u' ++ x' ++ y' ++ z' ↔
      o = o' ∧ u = u' ∧ x = x' ∧ y = y' ∧ z = z' := by
  constructor
  · intro h
    obtain ⟨h, h5⟩ := append_eq_append_iff.1 h
    obtain ⟨h, h4⟩ := append_eq_append_iff.1 h
    obtain ⟨h, h3⟩ := append_eq_append_iff.1 h
    obtain ⟨h1, h2⟩ := append_eq_append_iff.1 h
    exact ⟨h1, h2, h3, h4, h5⟩
  · rintro ⟨rfl, rfl, rfl, rfl, rfl⟩; rfl

/-- The fields of a header made of fields (R83). -/
theorem hdr_append (o : BitVec 8) (u x y : BitVec 4) (z : BitVec 12) :
    hdrOpc (o ++ u ++ x ++ y ++ z) = o ∧ hdrUnit (o ++ u ++ x ++ y ++ z) = u ∧
      hdrX (o ++ u ++ x ++ y ++ z) = x ∧ hdrY (o ++ u ++ x ++ y ++ z) = y ∧
      hdrZero (o ++ u ++ x ++ y ++ z) = z := by
  obtain ⟨h1, h2, h3, h4, h5⟩ := fields_inj.1 (header_fields (o ++ u ++ x ++ y ++ z))
  exact ⟨h1.symm, h2.symm, h3.symm, h4.symm, h5.symm⟩

/-- Two headers with the same fields are the same. -/
theorem header_ext {v w : Word} (h1 : hdrOpc v = hdrOpc w) (h2 : hdrUnit v = hdrUnit w)
    (h3 : hdrX v = hdrX w) (h4 : hdrY v = hdrY w) (h5 : hdrZero v = hdrZero w) : v = w := by
  rw [header_fields v, header_fields w, h1, h2, h3, h4, h5]

/-- A row whose mask takes the opcode and the reserved field whole is a condition on each field. -/
theorem and_mask_eq_iff (w : Word) (opc : BitVec 8) (mu mx my : BitVec 4) :
    w &&& (0xFF#8 ++ mu ++ mx ++ my ++ 0xFFF#12) = opc ++ 0#4 ++ 0#4 ++ 0#4 ++ 0#12 ↔
      hdrOpc w = opc ∧ hdrUnit w &&& mu = 0 ∧ hdrX w &&& mx = 0 ∧ hdrY w &&& my = 0 ∧
        hdrZero w = 0 := by
  have h8 : ∀ b : BitVec 8, b &&& 0xFF#8 = b := by decide
  have h12 : ∀ b : BitVec 12, b &&& 0xFFF#12 = b := by
    intro b
    have : (0xFFF#12 : BitVec 12) = BitVec.allOnes 12 := by decide
    rw [this, BitVec.and_allOnes]
  have e : w &&& (0xFF#8 ++ mu ++ mx ++ my ++ 0xFFF#12) =
      hdrOpc w ++ (hdrUnit w &&& mu) ++ (hdrX w &&& mx) ++ (hdrY w &&& my) ++ hdrZero w := by
    have e1 : (hdrOpc w ++ hdrUnit w ++ hdrX w ++ hdrY w ++ hdrZero w) &&&
        (0xFF#8 ++ mu ++ mx ++ my ++ 0xFFF#12) =
          hdrOpc w ++ (hdrUnit w &&& mu) ++ (hdrX w &&& mx) ++ (hdrY w &&& my) ++ hdrZero w := by
      rw [BitVec.and_append, BitVec.and_append, BitVec.and_append, BitVec.and_append, h8, h12]
    exact (congrArg (fun v : Word => v &&& (0xFF#8 ++ mu ++ mx ++ my ++ 0xFFF#12))
      (header_fields w)).trans e1
  rw [e]
  exact fields_inj

/-- The 2-bit selector fields are the 4-bit ones where the mask leaves two bits free (R87). -/
theorem hdrUnit_of_and {w : Word} (h : hdrUnit w &&& 0xC = 0) :
    hdrUnit w = (hdrUnit2 w).setWidth 4 := by
  have e : hdrUnit2 w = (hdrUnit w).setWidth 2 := by
    apply BitVec.eq_of_getLsbD_eq
    intro i hi
    simp only [hdrUnit2, hdrUnit, BitVec.getLsbD_extractLsb', BitVec.getLsbD_setWidth]
    interval_cases i <;> simp
  rw [e]
  revert h
  generalize hdrUnit w = u
  revert u
  decide

theorem hdrX_of_and {w : Word} (h : hdrX w &&& 0xC = 0) : hdrX w = (hdrX2 w).setWidth 4 := by
  have e : hdrX2 w = (hdrX w).setWidth 2 := by
    apply BitVec.eq_of_getLsbD_eq
    intro i hi
    simp only [hdrX2, hdrX, BitVec.getLsbD_extractLsb', BitVec.getLsbD_setWidth]
    interval_cases i <;> simp
  rw [e]
  revert h
  generalize hdrX w = u
  revert u
  decide

theorem hdrX_of_and_mode {w : Word} (h : hdrX w &&& 0xE = 0) : hdrX w = (hdrX0 w).setWidth 4 := by
  have e : hdrX0 w = (hdrX w).setWidth 1 := by
    apply BitVec.eq_of_getLsbD_eq
    intro i hi
    simp only [hdrX0, hdrX, BitVec.getLsbD_extractLsb', BitVec.getLsbD_setWidth]
    interval_cases i; simp
  rw [e]
  revert h
  generalize hdrX w = u
  revert u
  decide

end Sys2Proof
end

