-- ==== Sys2Proof/Laws/State.lean ====
section
/-! SUPPORT. One lemma per field per update of the state, and the read-after-write laws of the
banks. -/

namespace Sys2Proof.Machine

/-! ### Fields of `putOsc` -/

@[simp] theorem putOsc_prepared (s : State) (k : Fin 3) (o : Osc) : (putOsc s k o).prepared = s.prepared := rfl
@[simp] theorem putOsc_fs (s : State) (k : Fin 3) (o : Osc) : (putOsc s k o).fs = s.fs := rfl
@[simp] theorem putOsc_errflags (s : State) (k : Fin 3) (o : Osc) : (putOsc s k o).errflags = s.errflags := rfl
@[simp] theorem putOsc_rspStatus (s : State) (k : Fin 3) (o : Osc) : (putOsc s k o).rspStatus = s.rspStatus := rfl
@[simp] theorem putOsc_rspResult (s : State) (k : Fin 3) (o : Osc) : (putOsc s k o).rspResult = s.rspResult := rfl
@[simp] theorem putOsc_osc (s : State) (k : Fin 3) (o : Osc) : (putOsc s k o).osc = s.osc.set k o := rfl
@[simp] theorem putOsc_env (s : State) (k : Fin 3) (o : Osc) : (putOsc s k o).env = s.env := rfl
@[simp] theorem putOsc_vcf (s : State) (k : Fin 3) (o : Osc) : (putOsc s k o).vcf = s.vcf := rfl
@[simp] theorem putOsc_mm (s : State) (k : Fin 3) (o : Osc) : (putOsc s k o).mm = s.mm := rfl
@[simp] theorem putOsc_port (s : State) (k : Fin 3) (o : Osc) : (putOsc s k o).port = s.port := rfl
@[simp] theorem putOsc_draws (s : State) (k : Fin 3) (o : Osc) : (putOsc s k o).draws = s.draws := rfl

/-! ### Fields of `putEnv` -/

@[simp] theorem putEnv_prepared (s : State) (k : Fin 3) (e : Env) : (putEnv s k e).prepared = s.prepared := rfl
@[simp] theorem putEnv_fs (s : State) (k : Fin 3) (e : Env) : (putEnv s k e).fs = s.fs := rfl
@[simp] theorem putEnv_errflags (s : State) (k : Fin 3) (e : Env) : (putEnv s k e).errflags = s.errflags := rfl
@[simp] theorem putEnv_rspStatus (s : State) (k : Fin 3) (e : Env) : (putEnv s k e).rspStatus = s.rspStatus := rfl
@[simp] theorem putEnv_rspResult (s : State) (k : Fin 3) (e : Env) : (putEnv s k e).rspResult = s.rspResult := rfl
@[simp] theorem putEnv_osc (s : State) (k : Fin 3) (e : Env) : (putEnv s k e).osc = s.osc := rfl
@[simp] theorem putEnv_env (s : State) (k : Fin 3) (e : Env) : (putEnv s k e).env = s.env.set k e := rfl
@[simp] theorem putEnv_vcf (s : State) (k : Fin 3) (e : Env) : (putEnv s k e).vcf = s.vcf := rfl
@[simp] theorem putEnv_mm (s : State) (k : Fin 3) (e : Env) : (putEnv s k e).mm = s.mm := rfl
@[simp] theorem putEnv_port (s : State) (k : Fin 3) (e : Env) : (putEnv s k e).port = s.port := rfl
@[simp] theorem putEnv_draws (s : State) (k : Fin 3) (e : Env) : (putEnv s k e).draws = s.draws := rfl

/-! ### Fields of `putVcf` -/

@[simp] theorem putVcf_prepared (s : State) (v : Vcf) : (putVcf s v).prepared = s.prepared := rfl
@[simp] theorem putVcf_fs (s : State) (v : Vcf) : (putVcf s v).fs = s.fs := rfl
@[simp] theorem putVcf_errflags (s : State) (v : Vcf) : (putVcf s v).errflags = s.errflags := rfl
@[simp] theorem putVcf_rspStatus (s : State) (v : Vcf) : (putVcf s v).rspStatus = s.rspStatus := rfl
@[simp] theorem putVcf_rspResult (s : State) (v : Vcf) : (putVcf s v).rspResult = s.rspResult := rfl
@[simp] theorem putVcf_osc (s : State) (v : Vcf) : (putVcf s v).osc = s.osc := rfl
@[simp] theorem putVcf_env (s : State) (v : Vcf) : (putVcf s v).env = s.env := rfl
@[simp] theorem putVcf_vcf (s : State) (v : Vcf) : (putVcf s v).vcf = v := rfl
@[simp] theorem putVcf_mm (s : State) (v : Vcf) : (putVcf s v).mm = s.mm := rfl
@[simp] theorem putVcf_port (s : State) (v : Vcf) : (putVcf s v).port = s.port := rfl
@[simp] theorem putVcf_draws (s : State) (v : Vcf) : (putVcf s v).draws = s.draws := rfl

/-! ### Fields of `putMm` -/

@[simp] theorem putMm_prepared (s : State) (m : Mm) : (putMm s m).prepared = s.prepared := rfl
@[simp] theorem putMm_fs (s : State) (m : Mm) : (putMm s m).fs = s.fs := rfl
@[simp] theorem putMm_errflags (s : State) (m : Mm) : (putMm s m).errflags = s.errflags := rfl
@[simp] theorem putMm_rspStatus (s : State) (m : Mm) : (putMm s m).rspStatus = s.rspStatus := rfl
@[simp] theorem putMm_rspResult (s : State) (m : Mm) : (putMm s m).rspResult = s.rspResult := rfl
@[simp] theorem putMm_osc (s : State) (m : Mm) : (putMm s m).osc = s.osc := rfl
@[simp] theorem putMm_env (s : State) (m : Mm) : (putMm s m).env = s.env := rfl
@[simp] theorem putMm_vcf (s : State) (m : Mm) : (putMm s m).vcf = s.vcf := rfl
@[simp] theorem putMm_mm (s : State) (m : Mm) : (putMm s m).mm = m := rfl
@[simp] theorem putMm_port (s : State) (m : Mm) : (putMm s m).port = s.port := rfl
@[simp] theorem putMm_draws (s : State) (m : Mm) : (putMm s m).draws = s.draws := rfl

/-! ### Fields of `respond` -/

@[simp] theorem respond_prepared (s : State) (r : Word) : (respond s r).prepared = s.prepared := rfl
@[simp] theorem respond_fs (s : State) (r : Word) : (respond s r).fs = s.fs := rfl
@[simp] theorem respond_errflags (s : State) (r : Word) : (respond s r).errflags = s.errflags := rfl
@[simp] theorem respond_rspStatus (s : State) (r : Word) : (respond s r).rspStatus = 0 := rfl
@[simp] theorem respond_rspResult (s : State) (r : Word) : (respond s r).rspResult = r := rfl
@[simp] theorem respond_osc (s : State) (r : Word) : (respond s r).osc = s.osc := rfl
@[simp] theorem respond_env (s : State) (r : Word) : (respond s r).env = s.env := rfl
@[simp] theorem respond_vcf (s : State) (r : Word) : (respond s r).vcf = s.vcf := rfl
@[simp] theorem respond_mm (s : State) (r : Word) : (respond s r).mm = s.mm := rfl
@[simp] theorem respond_port (s : State) (r : Word) : (respond s r).port = s.port := rfl
@[simp] theorem respond_draws (s : State) (r : Word) : (respond s r).draws = s.draws := rfl

/-! ### Fields of `raiseStatus` -/

@[simp] theorem raiseStatus_prepared (st : Status) (s : State) : (raiseStatus st s).prepared = s.prepared := rfl
@[simp] theorem raiseStatus_fs (st : Status) (s : State) : (raiseStatus st s).fs = s.fs := rfl
@[simp] theorem raiseStatus_errflags (st : Status) (s : State) : (raiseStatus st s).errflags = s.errflags ||| st.sticky := rfl
@[simp] theorem raiseStatus_rspStatus (st : Status) (s : State) : (raiseStatus st s).rspStatus = st.code := rfl
@[simp] theorem raiseStatus_rspResult (st : Status) (s : State) : (raiseStatus st s).rspResult = 0 := rfl
@[simp] theorem raiseStatus_osc (st : Status) (s : State) : (raiseStatus st s).osc = s.osc := rfl
@[simp] theorem raiseStatus_env (st : Status) (s : State) : (raiseStatus st s).env = s.env := rfl
@[simp] theorem raiseStatus_vcf (st : Status) (s : State) : (raiseStatus st s).vcf = s.vcf := rfl
@[simp] theorem raiseStatus_mm (st : Status) (s : State) : (raiseStatus st s).mm = s.mm := rfl
@[simp] theorem raiseStatus_port (st : Status) (s : State) : (raiseStatus st s).port = s.port := rfl
@[simp] theorem raiseStatus_draws (st : Status) (s : State) : (raiseStatus st s).draws = s.draws := rfl

/-! ### Fields of `presentPacket` -/

@[simp] theorem presentPacket_prepared (s : State) (p : Packet) : (presentPacket s p).prepared = s.prepared := rfl
@[simp] theorem presentPacket_fs (s : State) (p : Packet) : (presentPacket s p).fs = s.fs := rfl
@[simp] theorem presentPacket_errflags (s : State) (p : Packet) : (presentPacket s p).errflags = s.errflags := rfl
@[simp] theorem presentPacket_rspStatus (s : State) (p : Packet) : (presentPacket s p).rspStatus = s.rspStatus := rfl
@[simp] theorem presentPacket_rspResult (s : State) (p : Packet) : (presentPacket s p).rspResult = s.rspResult := rfl
@[simp] theorem presentPacket_osc (s : State) (p : Packet) : (presentPacket s p).osc = s.osc := rfl
@[simp] theorem presentPacket_env (s : State) (p : Packet) : (presentPacket s p).env = s.env := rfl
@[simp] theorem presentPacket_vcf (s : State) (p : Packet) : (presentPacket s p).vcf = s.vcf := rfl
@[simp] theorem presentPacket_mm (s : State) (p : Packet) : (presentPacket s p).mm = s.mm := rfl
@[simp] theorem presentPacket_port (s : State) (p : Packet) : (presentPacket s p).port = p :: s.port := rfl
@[simp] theorem presentPacket_draws (s : State) (p : Packet) : (presentPacket s p).draws = s.draws := rfl

/-! ### Fields of `preparedState` -/

@[simp] theorem preparedState_prepared (s : State) (a fc g : Sample) : (preparedState s a fc g).prepared = true := rfl
@[simp] theorem preparedState_fs (s : State) (a fc g : Sample) : (preparedState s a fc g).fs = a := rfl
@[simp] theorem preparedState_errflags (s : State) (a fc g : Sample) : (preparedState s a fc g).errflags = s.errflags := rfl
@[simp] theorem preparedState_rspStatus (s : State) (a fc g : Sample) : (preparedState s a fc g).rspStatus = s.rspStatus := rfl
@[simp] theorem preparedState_rspResult (s : State) (a fc g : Sample) : (preparedState s a fc g).rspResult = s.rspResult := rfl
@[simp] theorem preparedState_vcf (s : State) (a fc g : Sample) : (preparedState s a fc g).vcf = preparedVcf fc g := rfl
@[simp] theorem preparedState_mm (s : State) (a fc g : Sample) : (preparedState s a fc g).mm = preparedMm := rfl
@[simp] theorem preparedState_port (s : State) (a fc g : Sample) : (preparedState s a fc g).port = s.port := rfl
@[simp] theorem preparedState_draws (s : State) (a fc g : Sample) : (preparedState s a fc g).draws = s.draws := rfl

/-! ### Banks: a read after a write -/

@[simp] theorem Bank3.get_set_same {α : Type} (b : Bank3 α) (k : Fin 3) (a : α) :
    (b.set k a).get k = a := by
  match k with
  | 0 => rfl
  | 1 => rfl
  | 2 => rfl

theorem Bank3.get_set_of_ne {α : Type} (b : Bank3 α) {k l : Fin 3} (a : α) (h : l ≠ k) :
    (b.set k a).get l = b.get l := by
  match k, l with
  | 0, 0 => exact absurd rfl h
  | 0, 1 => rfl
  | 0, 2 => rfl
  | 1, 0 => rfl
  | 1, 1 => exact absurd rfl h
  | 1, 2 => rfl
  | 2, 0 => rfl
  | 2, 1 => rfl
  | 2, 2 => exact absurd rfl h

@[simp] theorem Bank3.set_get_same {α : Type} (b : Bank3 α) (k : Fin 3) : b.set k (b.get k) = b := by
  match k with
  | 0 => rfl
  | 1 => rfl
  | 2 => rfl

@[simp] theorem Bank4.get_set_same {α : Type} (b : Bank4 α) (k : Fin 4) (a : α) :
    (b.set k a).get k = a := by
  match k with
  | 0 => rfl
  | 1 => rfl
  | 2 => rfl
  | 3 => rfl

theorem Bank4.get_set_of_ne {α : Type} (b : Bank4 α) {k l : Fin 4} (a : α) (h : l ≠ k) :
    (b.set k a).get l = b.get l := by
  revert h
  match k, l with
  | 0, 0 => exact fun h => absurd rfl h
  | 1, 1 => exact fun h => absurd rfl h
  | 2, 2 => exact fun h => absurd rfl h
  | 3, 3 => exact fun h => absurd rfl h
  | 0, 1 => exact fun _ => rfl
  | 0, 2 => exact fun _ => rfl
  | 0, 3 => exact fun _ => rfl
  | 1, 0 => exact fun _ => rfl
  | 1, 2 => exact fun _ => rfl
  | 1, 3 => exact fun _ => rfl
  | 2, 0 => exact fun _ => rfl
  | 2, 1 => exact fun _ => rfl
  | 2, 3 => exact fun _ => rfl
  | 3, 0 => exact fun _ => rfl
  | 3, 1 => exact fun _ => rfl
  | 3, 2 => exact fun _ => rfl

/-- A property of every element of a bank of three holds after one write if the written element has
it. -/
theorem Bank3.forall_set {α : Type} {P : α → Prop} (b : Bank3 α) (k : Fin 3) (a : α)
    (hb : ∀ l, P (b.get l)) (ha : P a) : ∀ l, P ((b.set k a).get l) := by
  intro l
  by_cases h : l = k
  · subst h; simpa using ha
  · simpa [Bank3.get_set_of_ne b a h] using hb l

/-- A property of every element of a bank of four holds after one write if the written element has
it. -/
theorem Bank4.forall_set {α : Type} {P : α → Prop} (b : Bank4 α) (k : Fin 4) (a : α)
    (hb : ∀ l, P (b.get l)) (ha : P a) : ∀ l, P ((b.set k a).get l) := by
  intro l
  by_cases h : l = k
  · subst h; simpa using ha
  · simpa [Bank4.get_set_of_ne b a h] using hb l

end Sys2Proof.Machine
end

