-- ==== Sys2Proof/Laws/Exec.lean ====
section
/-! SUPPORT. What executing a command can do (R18, R300, R306): one lemma over all commands, from the
three guards of R95. -/

namespace Sys2Proof.Machine

open Sys2Proof.F32

/-- How a reply that keeps the error flags and the port ends. -/
structure Reply.Good (s : State) (r : Reply) : Prop where
  done : ∀ t w, r = .done t w → t.errflags = s.errflags ∧ t.port = s.port
  refuse : ∀ st, r = .refuse st → st ≠ .ok

theorem Reply.good_done {s t : State} {w : Word} (h1 : t.errflags = s.errflags)
    (h2 : t.port = s.port) : (Reply.done t w).Good s :=
  ⟨(by intro _ _ h; injection h with h3 h4; subst h3; exact ⟨h1, h2⟩), (by intro _ h; cases h)⟩

theorem Reply.good_refuse {s : State} {st : Status} (h : st ≠ .ok) : (Reply.refuse st).Good s :=
  ⟨(by intro _ _ h; cases h), (by intro _ h2; injection h2 with h3; subst h3; exact h)⟩

theorem good_whenPrepared {s : State} {r : Reply} (h : r.Good s) : (whenPrepared s r).Good s := by
  rcases whenPrepared_cases s r with ⟨-, h1⟩ | ⟨-, h1⟩ <;> rw [h1]
  · exact h
  · exact Reply.good_refuse (by decide)

theorem good_needFinite {s : State} {r : Reply} (xs : List Sample) (h : r.Good s) :
    (needFinite xs r).Good s := by
  rcases needFinite_cases xs r with ⟨-, h1⟩ | ⟨-, h1⟩ <;> rw [h1]
  · exact h
  · exact Reply.good_refuse (by decide)

theorem good_withInstance {s : State} {u : BitVec 2} {f : Fin 3 → Reply} (h : ∀ k, (f k).Good s) :
    (withInstance u f).Good s := by
  rcases withInstance_cases u f with ⟨k, -, h1⟩ | ⟨-, h1⟩ <;> rw [h1]
  · exact h k
  · exact Reply.good_refuse (by decide)

theorem good_withCutoff {s : State} {fs a : Sample} {f : Sample → Sample → Reply}
    (h : ∀ fc g, (f fc g).Good s) : (withCutoff fs a f).Good s := by
  refine good_needFinite _ ?_
  split
  · exact h _ _
  · exact Reply.good_refuse (by decide)

theorem good_oscStep (s : State) (k : Fin 3) (einc : Sample) : (oscStep k einc s).Good s :=
  good_needFinite _ (Reply.good_done rfl rfl)

/-- A command is answered by a reply that keeps the error flags and the port. -/
theorem exec_eq_answer (i : Instr) (s : State) : ∃ r : Reply, exec i s = answer s r ∧ r.Good s := by
  cases i with
  | nop => exact ⟨_, rfl, Reply.good_done rfl rfl⟩
  | prepare a =>
    refine ⟨_, rfl, good_needFinite _ ?_⟩
    split
    · exact Reply.good_refuse (by decide)
    · exact good_withCutoff fun _ _ => Reply.good_done rfl rfl
  | rderr => exact ⟨_, rfl, Reply.good_done rfl rfl⟩
  | oscSetfreq u a =>
    exact ⟨_, rfl, good_withInstance fun k => good_whenPrepared (good_needFinite _ (good_needFinite _
      (Reply.good_done rfl rfl)))⟩
  | oscSetwave u a =>
    exact ⟨_, rfl, good_withInstance fun k => good_whenPrepared (good_needFinite _
      (Reply.good_done rfl rfl))⟩
  | oscProc u => exact ⟨_, rfl, good_withInstance fun k => good_whenPrepared (good_oscStep s k _)⟩
  | oscProcfm u a b =>
    exact ⟨_, rfl, good_withInstance fun k => good_whenPrepared (good_needFinite _ (good_oscStep s k _))⟩
  | oscProcpm u a =>
    exact ⟨_, rfl, good_withInstance fun k => good_whenPrepared (good_needFinite _ (good_oscStep s k _))⟩
  | oscSync u =>
    exact ⟨_, rfl, good_withInstance fun k => good_whenPrepared (Reply.good_done rfl rfl)⟩
  | oscCycle u =>
    exact ⟨_, rfl, good_withInstance fun k => good_whenPrepared (Reply.good_done rfl rfl)⟩
  | oscSyncif u v =>
    refine ⟨_, rfl, good_withInstance fun k => good_withInstance fun m => good_whenPrepared ?_⟩
    dsimp only
    refine Reply.good_done ?_ ?_ <;> split <;> rfl
  | envSetdecay j a =>
    exact ⟨_, rfl, good_withInstance fun k => good_whenPrepared (good_needFinite _ (good_needFinite _
      (Reply.good_done rfl rfl)))⟩
  | envTrig j a =>
    exact ⟨_, rfl, good_withInstance fun k => good_whenPrepared (good_needFinite _
      (Reply.good_done rfl rfl))⟩
  | envProc j =>
    exact ⟨_, rfl, good_withInstance fun k => good_whenPrepared (Reply.good_done rfl rfl)⟩
  | envActive j =>
    exact ⟨_, rfl, good_withInstance fun k => good_whenPrepared (Reply.good_done rfl rfl)⟩
  | vcfSetcut a =>
    exact ⟨_, rfl, good_whenPrepared (good_needFinite _ (good_withCutoff fun _ _ =>
      Reply.good_done rfl rfl))⟩
  | vcfSetres a => exact ⟨_, rfl, good_whenPrepared (good_needFinite _ (Reply.good_done rfl rfl))⟩
  | vcfSetmode m => exact ⟨_, rfl, good_whenPrepared (Reply.good_done rfl rfl)⟩
  | vcfProc a =>
    exact ⟨_, rfl, good_whenPrepared (good_needFinite _ (good_needFinite _ (Reply.good_done rfl rfl)))⟩
  | mmSetslot n x y a => exact ⟨_, rfl, good_whenPrepared (good_needFinite _ (Reply.good_done rfl rfl))⟩
  | mmSetsrc n a =>
    refine ⟨_, rfl, ?_⟩
    split
    · exact Reply.good_refuse (by decide)
    · exact good_whenPrepared (good_needFinite _ (Reply.good_done rfl rfl))
  | mmEval => exact ⟨_, rfl, good_whenPrepared (Reply.good_done rfl rfl)⟩
  | mmRead d => exact ⟨_, rfl, good_whenPrepared (Reply.good_done rfl rfl)⟩

/-- What executing a command can be: done, with the response registers written over a state that kept
the error flags and the port, or refused. -/
theorem exec_cases (i : Instr) (s : State) :
    (∃ t w, exec i s = .next (respond t w) ∧ t.errflags = s.errflags ∧ t.port = s.port) ∨
      ∃ st, st ≠ Status.ok ∧ exec i s = .next (raiseStatus st s) := by
  obtain ⟨r, hr, hg⟩ := exec_eq_answer i s
  cases r with
  | done t w => exact .inl ⟨t, w, hr, hg.done t w rfl⟩
  | refuse st => exact .inr ⟨st, hg.refuse st rfl, hr⟩

end Sys2Proof.Machine
end

