-- ==== Sys2Proof/Laws/Num.lean ====
section
/-! SUPPORT. What the elementary functions and the waveforms say of their results: the range of each,
as the rules that use them need it. -/

namespace Sys2Proof.Num

open Sys2Proof.F32

theorem inUnit_sin (x : Sample) : inUnit (sin x) = true := by
  unfold sin
  split_ifs
  · decide
  · exact inUnit_restrictUnit _

theorem tanhMag_le (m : Nat) : tanhMag m ≤ magBits c1 := by
  unfold tanhMag
  split_ifs
  · exact Nat.zero_le _
  · exact min_le_left _ _

theorem tan_zero : tan c0 = c0 := rfl

/-- On its interval the tangent is not below 0 and at most 2^24 - 1. -/
theorem tan_on_interval {x : Sample} (hs : signBit x = false) (hx : magBits x ≤ tanTop) :
    signBit (tan x) = false ∧ magBits (tan x) ≤ tanMost := by
  unfold tan
  split_ifs with h0 h1
  · have h0 : magBits x = 0 := by simpa [isZero] using h0
    exact ⟨hs, by omega⟩
  · have h2 : 1 + min (tanMost - 1) (Config.tanRise (magBits x)) ≤ tanMost := by
      unfold tanMost
      omega
    have h3 := h2.trans_lt (show tanMost < 2 ^ 31 by decide)
    rw [signBit_pack _ h3, magBits_pack _ h3]
    exact ⟨rfl, h2⟩
  · simp [hs, hx] at h1

/-- From -149 on `exp2` stays short of 0 by at least one unit of its last place. -/
theorem exp2FallMax_lt {x : Sample} (h : le cNeg149 x = true) : exp2FallMax x < magBits c1 := by
  rw [exp2FallMax, if_pos h]
  decide

/-- The fall is bounded by less at a greater argument, which keeps `exp2` non-decreasing across -149. -/
theorem exp2FallMax_anti {x y : Sample} (h : le x y = true) : exp2FallMax y ≤ exp2FallMax x := by
  unfold exp2FallMax
  split_ifs with hy hx hx
  · exact le_rfl
  · exact Nat.sub_le _ _
  · exact absurd (le_trans hx h) hy
  · exact le_rfl

/-- The decay power lies in [0,1] on its one use. -/
theorem pow_range {y : Sample} (hy : lt c0 y = true) : within c0 c1 (pow c0_001 y) = true := by
  have hm : magBits c1 - min (magBits c1) (Config.powFall (magBits y)) ≤ magBits c1 := Nat.sub_le _ _
  have hlt : magBits c1 - min (magBits c1) (Config.powFall (magBits y)) < 2 ^ 31 :=
    hm.trans_lt (magBits_lt c1)
  have hc1 : magBits c1 = 0x3F800000 := by decide
  unfold pow
  rw [if_pos (by simp [hy])]
  generalize hg : magBits c1 - min (magBits c1) (Config.powFall (magBits y)) = m at hm hlt
  have hn : isNaN (pack false m) = false := isNaN_pack _ (by rw [hc1] at hm; unfold infBits; omega)
  have hk0 : key c0 = 0 := by decide
  have hk1 : key c1 = 0x3F800000 := by decide
  have hk : key (pack false m) = m := by
    unfold key
    rw [signBit_pack _ hlt, magBits_pack _ hlt]
    simp
  have n0 : isNaN c0 = false := by decide
  have n1 : isNaN c1 = false := by decide
  simp only [within, le, hn, n0, n1, hk0, hk1, hk, Bool.not_false, Bool.true_and, Bool.and_eq_true,
    decide_eq_true_eq]
  omega

end Sys2Proof.Num

namespace Sys2Proof.Wave

open Sys2Proof.F32

/-- The block's configuration meets the requirement of R119. -/
theorem config_inRange : config.InRange := fun _ =>
  ⟨inUnit_restrictUnit _, inUnit_restrictUnit _, inUnit_restrictUnit _, inUnit_restrictUnit _⟩

end Sys2Proof.Wave
end

