-- ==== Sys2Proof/Laws/Rounding.lean ====
section
/-! SUPPORT. The error of one rounding (R232): the result of `roundMag` is a nearest binary32
magnitude, a tie goes to the even pattern, and the error is at most half a unit of the last place. -/

namespace Sys2Proof.F32

/-! ### A quotient rounded to an integer -/

/-- `roundQuot` is off by at most half the divisor, is even when it is off by exactly half, and no
other integer is nearer. -/
theorem roundQuot_spec (n : Nat) {d : Nat} (hd : 0 < d) :
    2 * |(roundQuot n d : Int) * d - n| ≤ d ∧
      (2 * |(roundQuot n d : Int) * d - n| = d → roundQuot n d % 2 = 0) := by
  have h1 := Nat.div_add_mod n d
  have h2 := Nat.mod_lt n hd
  generalize hq : n / d = q at h1
  generalize hr : n % d = r at h1 h2
  have e1 : (n : Int) = d * q + r := by exact_mod_cast h1.symm
  unfold roundQuot
  dsimp only
  rw [hq, hr]
  have hpar := Nat.mod_two_eq_zero_or_one q
  split_ifs with c1 c2
  · have : ((q : Int) * d - n) = -r := by rw [e1]; ring
    rw [this, abs_neg, abs_of_nonneg (by positivity)]
    exact ⟨by exact_mod_cast c1.le, fun h => by omega⟩
  · have : (((q + 1 : Nat) : Int) * d - n) = (d : Int) - r := by rw [e1]; push_cast; ring
    rw [this, abs_of_nonneg (by omega)]
    exact ⟨by omega, fun h => by omega⟩
  · have hc : 2 * r = d := by omega
    rcases hpar with hp | hp
    · have : (((q + q % 2 : Nat) : Int) * d - n) = -r := by rw [e1, hp]; push_cast; ring
      rw [this, abs_neg, abs_of_nonneg (by positivity)]
      exact ⟨by omega, fun _ => by omega⟩
    · have : (((q + q % 2 : Nat) : Int) * d - n) = (d : Int) - r := by rw [e1, hp]; push_cast; ring
      rw [this, abs_of_nonneg (by omega)]
      exact ⟨by omega, fun _ => by omega⟩

/-- Another integer multiple of the divisor is off by at least half of it. -/
theorem half_le_of_ne {n k q d : Int} (hd : 0 < d) (hk : k ≠ q) (hq : 2 * |q * d - n| ≤ d) :
    d ≤ 2 * |k * d - n| := by
  have hkq : d ≤ |k * d - q * d| := by
    rw [← sub_mul, abs_mul, abs_of_pos hd]
    have : 1 ≤ |k - q| := Int.one_le_abs (sub_ne_zero.2 hk)
    nlinarith
  have h3 : |k * d - q * d| ≤ |k * d - n| + |q * d - n| := by
    have := abs_sub_le (k * d) n (q * d)
    rwa [abs_sub_comm n] at this
  linarith

/-! ### A magnitude rounded to a pattern -/

/-- The magnitude of a scaled significand. -/
theorem magnitude_scaled {e q : Nat} (hq : q ≤ 2 ^ 24) (h : e = 0 ∨ 2 ^ 23 ≤ q) :
    magnitude (e * 2 ^ 23 + q) = q * 2 ^ e := by
  rw [magnitude_eq]
  rcases Nat.lt_or_eq_of_le hq with hlt | heq
  · have : (e * 2 ^ 23 + q) / 2 ^ 23 - 1 = e := by omega
    rw [this, Nat.add_sub_cancel_left]
  · subst heq
    have : (e * 2 ^ 23 + 2 ^ 24) / 2 ^ 23 - 1 = e + 1 := by omega
    rw [this]
    have : e * 2 ^ 23 + 2 ^ 24 - (e + 1) * 2 ^ 23 = 2 ^ 23 := by omega
    rw [this, Nat.pow_succ]; ring

/-- What a rounding that does not overflow is: a significand and a scale. -/
theorem roundMag_eq_scaled {n d : Nat} (hd : 0 < d) (h : roundMag n d < infBits) :
    ∃ e q, roundMag n d = e * 2 ^ 23 + q ∧ magnitude (roundMag n d) = q * 2 ^ e ∧
      q = roundQuot n (d * 2 ^ e) ∧ (0 < e → 2 ^ 23 * 2 ^ e * d ≤ n) := by
  have h1 := div_scale_lt n d
  have h2 := roundQuot_le_succ n (d * 2 ^ scale n d)
  have h3 := le_roundQuot n (d * 2 ^ scale n d)
  have h5 := @le_div_scale n d
  have h4 : roundMag n d = scale n d * 2 ^ 23 + roundQuot n (d * 2 ^ scale n d) := by
    have : roundMag n d = min infBits (scale n d * 2 ^ 23 + roundQuot n (d * 2 ^ scale n d)) := rfl
    omega
  refine ⟨scale n d, _, h4, ?_, rfl, ?_⟩
  · rw [h4]
    refine magnitude_scaled (by omega) ?_
    rcases Nat.eq_zero_or_pos (scale n d) with h6 | h6
    · exact .inl h6
    · exact .inr ((h5 h6).trans h3)
  · intro h6
    have := (Nat.le_div_iff_mul_le (by positivity)).1 (h5 h6)
    calc 2 ^ 23 * 2 ^ scale n d * d = 2 ^ 23 * (d * 2 ^ scale n d) := by ring
      _ ≤ n := this

/-- A representable magnitude from `2^23 * 2^e` on is a multiple of `2^e`. -/
theorem dvd_magnitude {b e : Nat} (h : 2 ^ 23 * 2 ^ e ≤ magnitude b) : 2 ^ e ∣ magnitude b := by
  rw [magnitude_eq] at h ⊢
  have hlow : b - (b / 2 ^ 23 - 1) * 2 ^ 23 < 2 ^ 24 := by omega
  generalize b / 2 ^ 23 - 1 = eb at *
  generalize b - eb * 2 ^ 23 = sb at *
  have h1 : 2 ^ (23 + e) < 2 ^ (24 + eb) := by
    rw [Nat.pow_add, Nat.pow_add]
    exact h.trans_lt (Nat.mul_lt_mul_of_pos_right hlow (by positivity))
  have h2 := (Nat.pow_lt_pow_iff_right (by decide : 1 < 2)).1 h1
  exact Dvd.dvd.mul_left (Nat.pow_dvd_pow 2 (by omega)) _

/-- The error of a rounding, relative or, at the smallest magnitudes, absolute. -/
theorem roundMag_error {n d : Nat} (hd : 0 < d) (h : roundMag n d < infBits) :
    2 * |(magnitude (roundMag n d) : Int) * d - n| ≤ d ∨
      2 ^ 24 * |(magnitude (roundMag n d) : Int) * d - n| ≤ n := by
  obtain ⟨e, q, -, hm, hq, hn⟩ := roundMag_eq_scaled hd h
  have hs := (roundQuot_spec n (d := d * 2 ^ e) (by positivity)).1
  rw [← hq] at hs
  have he : (q : Int) * ((d * 2 ^ e : Nat) : Int) = (magnitude (roundMag n d) : Int) * d := by
    rw [hm]; push_cast; ring
  rw [he] at hs
  rcases Nat.eq_zero_or_pos e with h0 | h0
  · left
    subst h0
    simpa using hs
  · right
    have h1 : ((2 ^ 23 * 2 ^ e * d : Nat) : Int) ≤ n := by exact_mod_cast hn h0
    push_cast at h1 hs
    linarith

/-- A rounding is nearest among the finite magnitudes, and a tie goes to the even pattern. -/
theorem roundMag_nearest {n d b : Nat} (hd : 0 < d) (h : roundMag n d < infBits) :
    |(magnitude (roundMag n d) : Int) * d - n| ≤ |(magnitude b : Int) * d - n| ∧
      (magnitude b ≠ magnitude (roundMag n d) →
        |(magnitude (roundMag n d) : Int) * d - n| = |(magnitude b : Int) * d - n| →
        roundMag n d % 2 = 0) := by
  obtain ⟨e, q, hr, hm, hq, hn⟩ := roundMag_eq_scaled hd h
  have hpos : 0 < d * 2 ^ e := by positivity
  have hs := roundQuot_spec n (d := d * 2 ^ e) hpos
  rw [← hq] at hs
  have he : (magnitude (roundMag n d) : Int) * d = (q : Int) * ((d * 2 ^ e : Nat) : Int) := by
    rw [hm]; push_cast; ring
  rw [he]
  have hpar : q % 2 = 0 → roundMag n d % 2 = 0 := fun h0 => by rw [hr]; omega
  -- an integer multiple of 2^e
  have hmul : ∀ k : Nat, |(q : Int) * ((d * 2 ^ e : Nat) : Int) - n| ≤
      |(k : Int) * ((d * 2 ^ e : Nat) : Int) - n| ∧
      (k ≠ q → |(q : Int) * ((d * 2 ^ e : Nat) : Int) - n| =
        |(k : Int) * ((d * 2 ^ e : Nat) : Int) - n| → q % 2 = 0) := by
    intro k
    rcases eq_or_ne k q with h1 | h1
    · subst h1; exact ⟨le_rfl, fun h2 => absurd rfl h2⟩
    · have h2 := half_le_of_ne (n := n) (k := k) (q := q) (d := ((d * 2 ^ e : Nat) : Int))
        (by exact_mod_cast hpos) (by exact_mod_cast h1) hs.1
      exact ⟨by linarith [hs.1], fun _ h3 => hs.2 (le_antisymm hs.1 (by rw [h3]; exact h2))⟩
  have hne : ∀ k : Nat, magnitude b = k * 2 ^ e → magnitude b ≠ magnitude (roundMag n d) → k ≠ q := by
    rintro k hk h1 rfl
    exact h1 (by rw [hm, hk])
  have hcast : ∀ k : Nat, magnitude b = k * 2 ^ e →
      (magnitude b : Int) * d = (k : Int) * ((d * 2 ^ e : Nat) : Int) := by
    intro k hk; rw [hk]; push_cast; ring
  rcases Nat.lt_or_ge (magnitude b) (2 ^ 23 * 2 ^ e) with hlt | hge
  · rcases Nat.eq_zero_or_pos e with h0 | h0
    · have hk : magnitude b = magnitude b * 2 ^ e := by subst h0; simp
      rw [hcast _ hk]
      exact ⟨(hmul _).1, fun h1 h2 => hpar ((hmul _).2 (hne _ hk h1) h2)⟩
    · -- below the binade: 2^23 * 2^e lies between
      have h1 : ((2 ^ 23 * 2 ^ e * d : Nat) : Int) ≤ n := by exact_mod_cast hn h0
      have h2 : ((magnitude b * d : Nat) : Int) < ((2 ^ 23 * 2 ^ e * d : Nat) : Int) := by
        exact_mod_cast Nat.mul_lt_mul_of_pos_right hlt hd
      have h3 : ((2 ^ 23 * 2 ^ e * d : Nat) : Int) = ((2 ^ 23 : Nat) : Int) * ((d * 2 ^ e : Nat) : Int) := by
        push_cast; ring
      have h4 := (hmul (2 ^ 23)).1
      rw [← h3, abs_of_nonpos (a := ((2 ^ 23 * 2 ^ e * d : Nat) : Int) - n) (by linarith)] at h4
      have h5 : |(magnitude b : Int) * d - n| = n - (magnitude b : Int) * d := by
        rw [abs_of_nonpos]
        · ring
        · have : (magnitude b : Int) * d = ((magnitude b * d : Nat) : Int) := by push_cast; ring
          linarith
      have h6 : (magnitude b : Int) * d = ((magnitude b * d : Nat) : Int) := by push_cast; ring
      rw [h5, h6]
      exact ⟨by linarith, fun _ h7 => by linarith⟩
  · obtain ⟨k, hk⟩ := dvd_magnitude hge
    have hk : magnitude b = k * 2 ^ e := by rw [hk, Nat.mul_comm]
    rw [hcast _ hk]
    exact ⟨(hmul _).1, fun h1 h2 => hpar ((hmul _).2 (hne _ hk h1) h2)⟩

/-! ### An operation's result -/

/-- The signed error of a result is the error of its magnitude. -/
theorem Rounds.abs_sub {v : Int} {d : Nat} {x : Sample} (h : Rounds v d x) (hd : 0 < d) :
    |value x * d - v| = |(magnitude (roundMag v.natAbs d) : Int) * d - (v.natAbs : Int)| := by
  rw [← h.magBits_eq]
  rcases lt_trichotomy v 0 with hneg | h0 | hpos
  · have hx : value x = -(magnitude (magBits x) : Int) := by simp [value, h.sign_neg hneg]
    have : (v.natAbs : Int) = -v := by omega
    rw [hx, this, ← abs_neg]
    congr 1; ring
  · subst h0
    have hm : magBits x = 0 := by rw [h.magBits_eq]; exact roundMag_zero hd
    have hx : value x = 0 := by simp [value, hm, magnitude]
    simp [hx, hm, magnitude]
  · have hx : value x = (magnitude (magBits x) : Int) := by simp [value, h.sign_pos hpos]
    have : (v.natAbs : Int) = v := by omega
    rw [hx, this]

/-- The error of a finite result: at most half a unit of the last place. -/
theorem Rounds.error {v : Int} {d : Nat} {x : Sample} (h : Rounds v d x) (hd : 0 < d)
    (hx : F32.finite x = true) :
    2 * |value x * d - v| ≤ d ∨ 2 ^ 24 * |value x * d - v| ≤ |v| := by
  rw [h.abs_sub hd, Int.abs_eq_natAbs v]
  exact roundMag_error hd (by rwa [finite_iff, h.magBits_eq] at hx)

/-- A finite result is a nearest binary32 value, and a tie goes to the even pattern. -/
theorem Rounds.nearest {v : Int} {d : Nat} {x : Sample} (h : Rounds v d x) (hd : 0 < d)
    (hx : F32.finite x = true) (c : Sample) :
    |value x * d - v| ≤ |value c * d - v| ∧
      (value c ≠ value x → |value x * d - v| = |value c * d - v| → magBits x % 2 = 0) := by
  have hlt : roundMag v.natAbs d < infBits := by rwa [finite_iff, h.magBits_eq] at hx
  have hn := roundMag_nearest (b := magBits c) hd hlt
  have h0 := roundMag_nearest (b := 0) hd hlt
  have hz : magnitude 0 = 0 := by decide
  rw [hz] at h0
  rw [h.abs_sub hd, h.magBits_eq]
  have hself : |value x * d - v| = _ := h.abs_sub hd
  have hvx := natAbs_value x
  rw [h.magBits_eq] at hvx
  have hmc : (0 : Int) ≤ (magnitude (magBits c) : Int) * d := by positivity
  -- the distance to c, by signs
  have same : |value c * d - v| = |(magnitude (magBits c) : Int) * d - (v.natAbs : Int)| ∨
      |value c * d - v| = (magnitude (magBits c) : Int) * d + (v.natAbs : Int) := by
    rcases Int.le_total 0 v with hv | hv
    · have e1 : (v.natAbs : Int) = v := by omega
      rw [e1]
      rcases hs : signBit c with _ | _
      · left; simp [value, hs]
      · right
        have : value c = -(magnitude (magBits c) : Int) := by simp [value, hs]
        rw [this, abs_of_nonpos (by linarith)]; ring
    · have e1 : (v.natAbs : Int) = -v := by omega
      rw [e1]
      rcases hs : signBit c with _ | _
      · right
        have : value c = (magnitude (magBits c) : Int) := by simp [value, hs]
        rw [this, abs_of_nonneg (by linarith)]; ring
      · left
        have : value c = -(magnitude (magBits c) : Int) := by simp [value, hs]
        rw [this, ← abs_neg]; congr 1; ring
  have hdist0 : |(((0 : Nat) : Int)) * d - (v.natAbs : Int)| = v.natAbs := by
    push_cast; rw [zero_mul, zero_sub, abs_neg, abs_of_nonneg (by positivity)]
  rw [hdist0] at h0
  rcases same with hc | hc
  · rw [hc]
    refine ⟨hn.1, fun hne heq => ?_⟩
    by_cases hm : magnitude (magBits c) = magnitude (roundMag v.natAbs d)
    · -- equal magnitudes, so opposite signs
      have hxc : value c = -value x := by
        have := natAbs_value c
        omega
      rw [hxc] at hc
      rw [← hself] at heq
      have h1 : |value x * d - v| = |-value x * d - v| := by rw [hc, heq]
      have h2 : value x ≠ 0 := fun h3 => hne (by rw [hxc, h3]; rfl)
      have h3 : v = 0 := by
        have hd' : (0 : Int) < d := by exact_mod_cast hd
        rcases abs_eq_abs.1 h1 with h4 | h4
        · exfalso
          have : value x * d = 0 := by linarith
          rcases mul_eq_zero.1 this with h5 | h5
          · exact h2 h5
          · omega
        · linarith
      rw [h3]
      simp only [Int.natAbs_zero]
      rw [roundMag_zero hd]
    · exact hn.2 hm heq
  · rw [hc]
    refine ⟨by linarith [h0.1], fun hne heq => ?_⟩
    have h5 : (magnitude (magBits c) : Int) * d = 0 := by linarith [h0.1]
    have h6 : magnitude (magBits c) = 0 := by
      have hd' : (d : Int) ≠ 0 := by exact_mod_cast hd.ne'
      rcases mul_eq_zero.1 h5 with h7 | h7
      · exact_mod_cast h7
      · exact absurd h7 hd'
    have hc0 : value c = 0 := by have := natAbs_value c; omega
    refine h0.2 (fun h7 => hne ?_) ?_
    · rw [hc0]; omega
    · rw [heq, h5, zero_add]

/-- One rounding of an exact result, with its overflow, is what R232 calls correctly rounded. -/
theorem Rounds.correctlyRounded {v : Int} {d : Nat} {x : Sample} (h : Rounds v d x) (hd : 0 < d) : Machine.CorrectlyRounded v d x where
  finite_below := by
    intro hv
    refine h.finite hd ?_
    rw [Int.abs_eq_natAbs] at hv
    unfold Machine.overflowBound at hv
    have : (2 ^ 25 - 1) * 2 ^ 253 * d = 2 * ((2 ^ 25 - 1) * 2 ^ 252 * d) := by ring
    have h2 : (v.natAbs : Int) < (((2 ^ 25 - 1) * 2 ^ 252 * d : Nat) : Int) := by
      rw [Nat.cast_mul, Nat.cast_mul]; exact hv
    omega
  pos_overflow := by
    intro hv
    unfold Machine.overflowBound at hv
    have hv' : (((2 ^ 25 - 1) * 2 ^ 252 * d : Nat) : Int) ≤ v := by push_cast; linarith
    have e : (2 ^ 25 - 1) * 2 ^ 253 * d = 2 * ((2 ^ 25 - 1) * 2 ^ 252 * d) := by ring
    have hp : 0 < (2 ^ 25 - 1) * 2 ^ 252 * d := by positivity
    rw [h.overflow hd (by omega), if_pos (by omega)]; rfl
  neg_overflow := by
    intro hv
    unfold Machine.overflowBound at hv
    have hv' : (((2 ^ 25 - 1) * 2 ^ 252 * d : Nat) : Int) ≤ -v := by push_cast; linarith
    have e : (2 ^ 25 - 1) * 2 ^ 253 * d = 2 * ((2 ^ 25 - 1) * 2 ^ 252 * d) := by ring
    have hp : 0 < (2 ^ 25 - 1) * 2 ^ 252 * d := by positivity
    rw [h.overflow hd (by omega), if_neg (by omega)]; rfl
  nearest := fun hx c _ => (h.nearest hd hx c).1
  tie_even := fun hx c _ => (h.nearest hd hx c).2

end Sys2Proof.F32
end

