-- ==== Sys2Proof/Laws/Filter.lean ====
section
/-! SUPPORT. The cutoff and its coefficient (R31, R170): what the clamp leaves, that the tangent's
argument lies in its interval, and the range of the coefficient. -/

namespace Sys2Proof.Machine

open Sys2Proof.F32

theorem value_c0_45 : value c0_45 = 15099494 * 2 ^ 124 := by decide
theorem value_cPi : value cPi = 13176795 * 2 ^ 127 := by decide

theorem value_pos_of_lt {x : Sample} (hx : finite x = true) (h : lt c0 x = true) : 0 < value x := by
  have := (lt_iff (by decide) hx).1 h
  rwa [show value c0 = 0 by decide] at this

theorem value_pos_of_normal {x : Sample} (hx : finite x = true) (h : le minNormal x = true) :
    0 < value x := by
  have := (le_iff (by decide) hx).1 h
  rw [show value minNormal = 2 ^ 23 by decide] at this
  omega

theorem signBit_of_value_pos {x : Sample} (h : 0 < value x) : signBit x = false := by
  by_contra hc
  have : signBit x = true := by simpa using hc
  simp only [value, this, if_true] at h
  omega

theorem value_nonneg_of_signBit {x : Sample} (h : signBit x = false) : 0 ≤ value x := by
  simp [value, h]

/-- The upper cutoff bound is finite and not negative. -/
theorem upperCutoff {fs : Sample} (hf : finite fs = true) (hp : 0 < value fs) :
    finite (mul c0_45 fs) = true ∧ signBit (mul c0_45 fs) = false := by
  have hr := mul_rounds (a := c0_45) (b := fs) (by decide) hf
  rw [value_c0_45] at hr
  refine ⟨finite_of_within (lo := c0) (hi := fs) (by decide) hf
    (hr.within (by positivity) (by decide) hf ?_ ?_), hr.sign_pos (by positivity)⟩
  · rw [show value c0 = 0 by decide]; push_cast; positivity
  · push_cast; nlinarith

/-- The product of a constant `k * 2^e` with a sample that is not negative, rounded: off by at most half
a unit of 2^-149, or by at most one part in 2^24. -/
theorem mul_const_le {c x : Sample} {k : Int} {e : Nat} (hc : finite c = true)
    (hv : value c = k * 2 ^ e) (hk : 0 ≤ k) (hx : finite x = true) (hs : 0 ≤ value x)
    (hfin : finite (mul c x) = true) :
    2 * (value (mul c x) * 2 ^ 149) ≤ 2 * (k * 2 ^ e * value x) + 2 ^ 149 ∨
      2 ^ 24 * (value (mul c x) * 2 ^ 149) ≤ (2 ^ 24 + 1) * (k * 2 ^ e * value x) := by
  have hr := mul_rounds hc hx
  rw [hv] at hr
  have he := hr.error (by positivity) hfin
  rw [abs_of_nonneg (a := k * 2 ^ e * value x) (by positivity)] at he
  have h1 := le_abs_self (value (mul c x) * ((2 ^ 149 : Nat) : Int) - k * 2 ^ e * value x)
  push_cast at he h1
  rcases he with he | he
  · left; linarith
  · right; linarith

/-- What the clamp of a cutoff request leaves: finite, not negative, not above the upper bound, and
either not below 20 or the upper bound itself. -/
theorem clampCutoff_spec {fs a : Sample} (hf : finite fs = true) (hp : 0 < value fs)
    (ha : finite a = true) :
    finite (clampCutoff fs a) = true ∧ signBit (clampCutoff fs a) = false ∧
      le (clampCutoff fs a) (mul c0_45 fs) = true ∧
      (le c20 (clampCutoff fs a) = true ∨ clampCutoff fs a = mul c0_45 fs) := by
  obtain ⟨h1, h2⟩ := upperCutoff hf hp
  have hmax : finite (fmax a c20) = true ∧ le c20 (fmax a c20) = true := by
    unfold fmax
    split_ifs with h
    · exact ⟨ha, h⟩
    · exact ⟨by decide, by decide⟩
  unfold clampCutoff clamp fmin
  split_ifs with h
  · refine ⟨hmax.1, signBit_of_value_pos ?_, h, .inl hmax.2⟩
    have := (le_iff (by decide) hmax.1).1 hmax.2
    have : value c20 = 10485760 * 2 ^ 130 := by decide
    omega
  · exact ⟨h1, h2, le_refl (isNaN_of_finite h1), .inr rfl⟩

/-- A rounding of something below the middle of `Num.tanTop` and the next pattern stays at most
`Num.tanTop`. -/
theorem magBits_le_tanTop {v : Int} {d : Nat} {x : Sample} (h : Rounds v d x) (hd : 0 < d)
    (h0 : 0 ≤ v) (hv : v ≤ (23718235 * 2 ^ 125 - 1) * d) : magBits x ≤ Num.tanTop := by
  have h1 : roundMag (23718235 * 2 ^ 125 - 1) 1 = Num.tanTop := by decide
  rw [h.magBits_eq, ← h1]
  refine roundMag_mono hd Nat.one_pos ?_
  have : ((v.natAbs * 1 : Nat) : Int) ≤ (((23718235 * 2 ^ 125 - 1) * d : Nat) : Int) := by
    rw [Nat.cast_mul, Nat.cast_mul, Int.natAbs_of_nonneg h0]
    push_cast
    linarith
  exact_mod_cast this

/-- The tangent's argument at a clamped cutoff and a rate that is not subnormal lies in the interval of
`Num.tan` (R237, R170; log entry 7). -/
theorem tanArgument_le {fs fc : Sample} (hf : finite fs = true) (hn : le minNormal fs = true)
    (hc : finite fc = true) (hs : signBit fc = false) (hle : le fc (mul c0_45 fs) = true)
    (hpi : finite (mul cPi fc) = true) :
    signBit (tanArgument fs fc) = false ∧ magBits (tanArgument fs fc) ≤ Num.tanTop := by
  have hp := value_pos_of_normal hf hn
  have hn' : 2 ^ 23 ≤ value fs := by
    have := (le_iff (by decide) hf).1 hn
    rwa [show value minNormal = 2 ^ 23 by decide] at this
  obtain ⟨hF, hsF⟩ := upperCutoff hf hp
  have hvc := value_nonneg_of_signBit hs
  have hcF := (le_iff hc hF).1 hle
  have hb := mul_const_le (c := c0_45) (by decide) value_c0_45 (by decide) hf hp.le hF
  have hP := mul_const_le (c := cPi) (by decide) value_cPi (by decide) hc hvc hpi
  have hsP : signBit (mul cPi fc) = false := by
    unfold mul
    rw [isNaN_of_finite hc, isInf_of_finite hc, hs]
    rw [show isNaN cPi = false by decide, show isInf cPi = false by decide,
      show signBit cPi = false by decide]
    simp only [Bool.or_self, Bool.false_eq_true, if_false, bne_self_eq_false]
    exact signBit_pack _ ((roundMag_le_inf _ _).trans_lt infBits_lt)
  have hvP := value_nonneg_of_signBit hsP
  have hkey : value (mul cPi fc) * 2 ^ 149 ≤ (23718235 * 2 ^ 125 - 1) * value fs := by
    rcases hb with hb | hb <;> rcases hP with hP | hP <;> linarith
  have hd := div_rounds (a := mul cPi fc) (b := fs) hpi hf hp
  have hmag : (magnitude (magBits fs) : Int) = value fs := by
    simp [value, signBit_of_value_pos hp]
  have hmp : 0 < magnitude (magBits fs) := by omega
  refine ⟨?_, magBits_le_tanTop hd hmp (by positivity) (by rw [hmag]; exact hkey)⟩
  unfold tanArgument div
  have hz : isZero fs = false := by
    have : magBits fs ≠ 0 := fun h => by
      rw [h] at hmp; exact absurd hmp (by decide)
    simp [isZero, this]
  rw [isNaN_of_finite hpi, isNaN_of_finite hf, isInf_of_finite hpi, isInf_of_finite hf, hz, hsP,
    signBit_of_value_pos hp]
  simp only [Bool.or_self, Bool.false_eq_true, if_false, bne_self_eq_false]
  exact signBit_pack _ ((roundMag_le_inf _ _).trans_lt infBits_lt)

/-- The values up to a pattern are those up to its value. -/
theorem value_le_of_magBits {t : Sample} {m : Nat} (hs : signBit t = false) (hm : magBits t ≤ m)
    (hmf : m < infBits) : value t ≤ magnitude m := by
  have h1 : value t = magnitude (magBits t) := by simp [value, hs]
  have h2 := (magnitude_le_iff (hm.trans_lt hmf) hmf).2 hm
  rw [h1]
  exact_mod_cast h2

/-- A value of at least 2^23 and below 2^24 is an integer, and adding 1 to it is exact. -/
theorem exists_value_add_one {t : Sample} (hs : signBit t = false) (h1 : 2 ^ 23 * 2 ^ 149 ≤ value t)
    (h2 : value t ≤ (2 ^ 24 - 1) * 2 ^ 149) :
    ∃ c : Sample, finite c = true ∧ value c = value t + 2 ^ 149 := by
  have hv : value t = magnitude (magBits t) := by simp [value, hs]
  rw [hv] at h1 h2 ⊢
  obtain ⟨k, hk⟩ := dvd_magnitude (b := magBits t) (e := 149) (by exact_mod_cast h1)
  rw [hk] at h1 h2 ⊢
  have k1 : 2 ^ 23 ≤ k := by push_cast at h1; omega
  have k2 : k + 1 ≤ 2 ^ 24 := by push_cast at h2; omega
  have hm : 149 * 2 ^ 23 + (k + 1) < 2 ^ 31 := by omega
  refine ⟨pack false (149 * 2 ^ 23 + (k + 1)), ?_, ?_⟩
  · rw [finite_pack _ hm, decide_eq_true (show _ < infBits by unfold infBits; omega)]
  · rw [value_pack_false hm, magnitude_scaled k2 (.inr (by omega))]
    push_cast
    ring

/-- `T / (1 + T)` of a `T` from 0 to 2^24 - 1 is a legal coefficient (R30). -/
theorem legalCoeff_div {t : Sample} (hs : signBit t = false) (hm : magBits t ≤ Num.tanMost) :
    legalCoeff (div t (add c1 t)) = true := by
  have ht : finite t = true := (finite_iff t).2 (hm.trans_lt (by decide))
  have hv := value_nonneg_of_signBit hs
  have hvt : value t ≤ (2 ^ 24 - 1) * 2 ^ 149 := by
    have := value_le_of_magBits hs hm (by decide)
    rwa [show ((magnitude Num.tanMost : Nat) : Int) = (2 ^ 24 - 1) * 2 ^ 149 by decide] at this
  have hr := add_rounds (a := c1) (b := t) (by decide) ht
  have hv1 : value c1 = 2 ^ 149 := by decide
  rw [hv1] at hr
  have hfin : finite (add c1 t) = true := hr.finite (by decide) (by omega)
  have hge : ∀ c : Sample, finite c = true → value c ≤ 2 ^ 149 + value t →
      value c ≤ value (add c1 t) := fun c hc h =>
    (le_iff hc hfin).1 (hr.le_of_ge (by decide) hc (by push_cast; linarith))
  have hpos : 0 < value (add c1 t) := by
    have := hge c1 (by decide) (by rw [hv1]; linarith)
    rw [hv1] at this
    linarith [show (0 : Int) < 2 ^ 149 by positivity]
  have hmag : (magnitude (magBits (add c1 t)) : Int) = value (add c1 t) := by
    simp [value, signBit_of_value_pos hpos]
  have hkey : 2 ^ 24 * value t ≤ (2 ^ 24 - 1) * value (add c1 t) := by
    rcases Int.lt_or_le (value t) (2 ^ 23 * 2 ^ 149) with h | h
    · rcases Int.lt_or_le (value t) ((2 ^ 23 - 1) * 2 ^ 149) with h3 | h3
      · have he := hr.error (by decide) hfin
        rw [abs_of_nonneg (a := 2 ^ 149 + value t) (by positivity)] at he
        have h4 := neg_abs_le (value (add c1 t) * ((1 : Nat) : Int) - (2 ^ 149 + value t))
        push_cast at he h4
        rcases he with he | he <;> linarith
      · have h4 := hge 0x4B000000#32 (by decide) (by
          rw [show value 0x4B000000#32 = 2 ^ 23 * 2 ^ 149 by decide]; linarith)
        have h5 : magBits t ≤ 0x4AFFFFFF := by
          by_contra hc
          have := (magnitude_le_iff (show 0x4B000000 < infBits by decide) ((finite_iff t).1 ht)).2
            (by omega : 0x4B000000 ≤ magBits t)
          rw [show magnitude 0x4B000000 = 2 ^ 23 * 2 ^ 149 by decide] at this
          have hvm : value t = magnitude (magBits t) := by simp [value, hs]
          omega
        have h6 := value_le_of_magBits hs h5 (by decide)
        rw [show ((magnitude 0x4AFFFFFF : Nat) : Int) = (2 ^ 24 - 1) * 2 ^ 148 by decide] at h6
        rw [show value 0x4B000000#32 = 2 ^ 23 * 2 ^ 149 by decide] at h4
        linarith
    · obtain ⟨c, hc, hcv⟩ := exists_value_add_one hs h hvt
      have := hge c hc (by rw [hcv]; linarith)
      rw [hcv] at this
      linarith
  have hd := div_rounds ht hfin hpos
  have hmp : 0 < magnitude (magBits (add c1 t)) := by omega
  have h1 : le c0 (div t (add c1 t)) = true := by
    refine hd.le_of_ge hmp (by decide) ?_
    rw [show value c0 = 0 by decide, zero_mul]
    positivity
  have h2 : le (div t (add c1 t)) 0x3F7FFFFF#32 = true := by
    refine hd.le_of_le hmp (by decide) ?_
    rw [hmag, show value 0x3F7FFFFF#32 = (2 ^ 24 - 1) * 2 ^ 125 by decide]
    linarith
  have h3 : key 0x3F7FFFFF#32 < key c1 := by decide
  simp only [legalCoeff, h1, lt, Bool.true_and, Bool.and_eq_true, decide_eq_true_eq]
  simp only [le, Bool.and_eq_true, decide_eq_true_eq] at h2
  exact ⟨⟨h2.1.1, by decide⟩, h2.2.trans_lt h3⟩

/-- The coefficient of a clamped cutoff at a rate that is not subnormal is legal (R30, R170). -/
theorem cutoffCoeff_legal {fs fc : Sample} (hf : finite fs = true) (hn : le minNormal fs = true)
    (hc : finite fc = true) (hs : signBit fc = false) (hle : le fc (mul c0_45 fs) = true)
    (hpi : finite (mul cPi fc) = true) : legalCoeff (cutoffCoeff fs fc) = true := by
  obtain ⟨h1, h2⟩ := tanArgument_le hf hn hc hs hle hpi
  obtain ⟨h3, h4⟩ := Num.tan_on_interval h1 h2
  exact legalCoeff_div h3 h4

theorem finite_of_legalCoeff {g : Sample} (h : legalCoeff g = true) : finite g = true := by
  refine finite_of_within (lo := c0) (hi := c1) (by decide) (by decide) ?_
  simp only [legalCoeff, lt, le, within, Bool.and_eq_true, decide_eq_true_eq] at h ⊢
  exact ⟨h.1, h.2.1, h.2.2.le⟩

/-- What `withCutoff` can be: its body, with the argument finite and the coefficient legal, or
`BAD_OPERAND`. -/
theorem withCutoff_cases (fs a : Sample) (body : Sample → Sample → Reply) :
    (finite (tanArgument fs (clampCutoff fs a)) = true ∧
      legalCoeff (cutoffCoeff fs (clampCutoff fs a)) = true ∧
      withCutoff fs a body = body (clampCutoff fs a) (cutoffCoeff fs (clampCutoff fs a))) ∨
    ((finite (tanArgument fs (clampCutoff fs a)) = false ∨
      legalCoeff (cutoffCoeff fs (clampCutoff fs a)) = false) ∧
      withCutoff fs a body = .refuse .badOperand) := by
  unfold withCutoff
  cases h1 : finite (tanArgument fs (clampCutoff fs a)) <;>
    cases h2 : legalCoeff (cutoffCoeff fs (clampCutoff fs a)) <;> simp [needFinite, h1, h2]

/-- At a rate that is not subnormal a request whose product with `PI` is finite is never refused. -/
theorem withCutoff_of_normal {fs a : Sample} (hf : finite fs = true) (hn : le minNormal fs = true)
    (ha : finite a = true) (hpi : finite (mul cPi (clampCutoff fs a)) = true)
    (body : Sample → Sample → Reply) :
    withCutoff fs a body = body (clampCutoff fs a) (cutoffCoeff fs (clampCutoff fs a)) := by
  obtain ⟨h1, h2, h3, -⟩ := clampCutoff_spec hf (value_pos_of_normal hf hn) ha
  have hx := (tanArgument_le hf hn h1 h2 h3 hpi).2
  have hxf : finite (tanArgument fs (clampCutoff fs a)) = true :=
    (finite_iff _).2 (hx.trans_lt (by decide))
  simp [withCutoff, needFinite, hxf, cutoffCoeff_legal hf hn h1 h2 h3 hpi]

/-- A finite sum has finite terms. -/
theorem finite_of_finite_add {a b : Sample} (h : finite (add a b) = true) :
    finite a = true ∧ finite b = true := by
  have fin : ∀ x : Sample, isNaN x = false → isInf x = false → finite x = true := by
    intro x h1 h2
    simp only [isNaN, isInf, decide_eq_false_iff_not] at h1 h2
    rw [finite_iff]
    omega
  have inf : ∀ x : Sample, isInf x = true → finite x = false := by
    intro x hx
    simp only [isInf, decide_eq_true_eq] at hx
    simp [finite, hx]
  have hnan : finite nan = false := by decide
  unfold add at h
  split_ifs at h with h1 h2 h3 h4 <;> simp_all

/-- A stage whose new value is finite had a finite product and a finite output: the checks of R95 (4) on
the new stages cover them. -/
theorem stageStep_finite {g u st : Sample} (h : finite (stageStep g u st).next = true) :
    finite (stageStep g u st).v = true ∧ finite (stageStep g u st).y = true :=
  (finite_of_finite_add h).symm

end Sys2Proof.Machine
end

