-- ==== Sys2Proof/Laws/Ladder.lean ====
section
/-! SUPPORT. What one stage of the ladder can do (R173, R175): with the coefficient in [0,1] and an
input 2^26 times smaller than a bound, the stage and its output stay inside the bound. -/

namespace Sys2Proof.Machine

open Sys2Proof.F32

/-- An integer that some finite sample has as its value. -/
def Rep (c : Int) : Prop := ∃ x : Sample, finite x = true ∧ value x = c

theorem Rep.neg {c : Int} (h : Rep c) : Rep (-c) := by
  obtain ⟨x, hx, rfl⟩ := h
  exact ⟨F32.neg x, by simpa using hx, value_neg x⟩

theorem rep_value {x : Sample} (h : finite x = true) : Rep (value x) := ⟨x, h, rfl⟩

theorem rep_zero : Rep 0 := ⟨c0, by decide, by decide⟩

/-- From `2^25 * U` on, with `U = 2^k`, two values lie at least `4 * U` apart. -/
theorem Rep.spacing {a b : Int} {k : Nat} (ha : Rep a) (hb : Rep b) (h : 2 ^ 25 * 2 ^ k ≤ a)
    (hab : a < b) : a + 4 * 2 ^ k ≤ b := by
  have pos : (0 : Int) < 2 ^ k := by positivity
  have dvd : ∀ {c : Int}, Rep c → 2 ^ 25 * 2 ^ k ≤ c → (2 : Int) ^ (k + 2) ∣ c := by
    rintro c ⟨x, -, rfl⟩ hc
    have h1 := natAbs_value x
    have h2 : value x = (magnitude (magBits x) : Int) := by
      rw [← h1]
      omega
    rw [h2] at hc ⊢
    have h3 : 2 ^ 23 * 2 ^ (k + 2) ≤ magnitude (magBits x) := by
      have : ((2 ^ 23 * 2 ^ (k + 2) : Nat) : Int) ≤ (magnitude (magBits x) : Int) := by
        push_cast; rw [pow_add]; linarith
      exact_mod_cast this
    exact_mod_cast dvd_magnitude h3
  have h1 : (2 : Int) ^ (k + 2) ∣ b - a := dvd_sub (dvd hb (by linarith)) (dvd ha h)
  have h2 := Int.le_of_dvd (by linarith) h1
  rw [pow_add] at h2
  linarith

/-- The arithmetic of a stage, over the values: `d`, `v`, `y` and `z` are the rounded difference,
product, output and new stage. -/
theorem stage_bound_nonneg {k : Nat} {s u d v y z : Int} (hs : Rep s) (hd : Rep d)
    (hM : Rep (2 ^ 26 * 2 ^ k)) (hQ : Rep (2 ^ 24 * 2 ^ k)) (s0 : 0 ≤ s) (sM : s ≤ 2 ^ 26 * 2 ^ k)
    (hu : |u| ≤ 2 ^ k) (near : |d - (u - s)| ≤ |u|) (hv : (0 ≤ v ∧ v ≤ d) ∨ (d ≤ v ∧ v ≤ 0))
    (y1 : ∀ c, Rep c → c ≤ v + s → c ≤ y) (y2 : ∀ c, Rep c → v + s ≤ c → y ≤ c)
    (z1 : ∀ c, Rep c → c ≤ y + v → c ≤ z) (z2 : ∀ c, Rep c → y + v ≤ c → z ≤ c) :
    |y| ≤ 2 ^ 26 * 2 ^ k ∧ |z| ≤ 2 ^ 26 * 2 ^ k := by
  have pos : (0 : Int) < 2 ^ k := by positivity
  have hu' := abs_le.1 hu
  have hn := abs_le.1 (near.trans hu)
  rcases Int.lt_or_le (2 ^ 25 * 2 ^ k) s with hbig | hsmall
  · have hds : -s ≤ d := by
      by_contra hc
      have := Rep.spacing (k := k) hs hd.neg hbig.le (by linarith)
      linarith
    have hv' : d ≤ v ∧ v ≤ 0 := by
      rcases hv with h | h
      · exfalso; linarith
      · exact h
    have a1 := y1 0 rep_zero (by linarith)
    have a2 := y2 s hs (by linarith)
    have a3 := z1 (-s) hs.neg (by linarith)
    have a4 := z2 s hs (by linarith)
    exact ⟨abs_le.2 ⟨by linarith, by linarith⟩, abs_le.2 ⟨by linarith, by linarith⟩⟩
  · rcases hv with h | h
    · have a1 := y1 0 rep_zero (by linarith)
      have a2 := y2 _ hQ (by linarith)
      have a3 := z1 0 rep_zero (by linarith)
      have a4 := z2 _ hM (by linarith)
      exact ⟨abs_le.2 ⟨by linarith, by linarith⟩, abs_le.2 ⟨by linarith, by linarith⟩⟩
    · have a1 := y1 _ hQ.neg (by linarith)
      have a2 := y2 s hs (by linarith)
      have a3 := z1 _ hM.neg (by linarith)
      have a4 := z2 _ hM (by linarith)
      exact ⟨abs_le.2 ⟨by linarith, by linarith⟩, abs_le.2 ⟨by linarith, by linarith⟩⟩

/-- The same for a stage of either sign. -/
theorem stage_bound {k : Nat} {s u d v y z : Int} (hs : Rep s) (hd : Rep d)
    (hM : Rep (2 ^ 26 * 2 ^ k)) (hQ : Rep (2 ^ 24 * 2 ^ k)) (sM : |s| ≤ 2 ^ 26 * 2 ^ k)
    (hu : |u| ≤ 2 ^ k) (near : |d - (u - s)| ≤ |u|) (hv : (0 ≤ v ∧ v ≤ d) ∨ (d ≤ v ∧ v ≤ 0))
    (y1 : ∀ c, Rep c → c ≤ v + s → c ≤ y) (y2 : ∀ c, Rep c → v + s ≤ c → y ≤ c)
    (z1 : ∀ c, Rep c → c ≤ y + v → c ≤ z) (z2 : ∀ c, Rep c → y + v ≤ c → z ≤ c) :
    |y| ≤ 2 ^ 26 * 2 ^ k ∧ |z| ≤ 2 ^ 26 * 2 ^ k := by
  have hs' := abs_le.1 sM
  rcases Int.le_total 0 s with h0 | h0
  · exact stage_bound_nonneg hs hd hM hQ h0 hs'.2 hu near hv y1 y2 z1 z2
  · have near' : |-d - (-u - -s)| ≤ |-u| := by
      rw [abs_neg u, ← abs_neg]
      convert near using 2; ring
    have hv' : (0 ≤ -v ∧ -v ≤ -d) ∨ (-d ≤ -v ∧ -v ≤ 0) := by
      rcases hv with h | h
      · exact .inr ⟨by linarith, by linarith⟩
      · exact .inl ⟨by linarith, by linarith⟩
    have flip1 : ∀ {w x : Int}, (∀ c, Rep c → w ≤ c → x ≤ c) → ∀ c, Rep c → c ≤ -w → c ≤ -x :=
      fun h c hc hw => by linarith [h (-c) hc.neg (by linarith)]
    have flip2 : ∀ {w x : Int}, (∀ c, Rep c → c ≤ w → c ≤ x) → ∀ c, Rep c → -w ≤ c → -x ≤ c :=
      fun h c hc hw => by linarith [h (-c) hc.neg (by linarith)]
    have := stage_bound_nonneg (k := k) (s := -s) (u := -u) (d := -d) (v := -v) (y := -y) (z := -z)
      hs.neg hd.neg hM hQ (by linarith) (by linarith) (by rwa [abs_neg]) near' hv'
      (by rw [← neg_add]; exact flip1 y2) (by rw [← neg_add]; exact flip2 y1)
      (by rw [← neg_add]; exact flip1 z2) (by rw [← neg_add]; exact flip2 z1)
    simpa using this

/-- One stage: with `0 <= g <= 1`, `|u| <= 2^k` and `|stage| <= 2^26 * 2^k` (in units of 2^-149), the
output and the new stage are finite and at most `2^26 * 2^k` in magnitude. -/
theorem stageStep_bounded {k : Nat} (hk : k ≤ 227) {g u st : Sample}
    (hM : Rep (2 ^ 26 * 2 ^ k)) (hQ : Rep (2 ^ 24 * 2 ^ k)) (hg : within c0 c1 g = true)
    (fu : finite u = true) (fst : finite st = true) (hu : |value u| ≤ 2 ^ k)
    (hst : |value st| ≤ 2 ^ 26 * 2 ^ k) :
    (finite (stageStep g u st).y = true ∧ |value (stageStep g u st).y| ≤ 2 ^ 26 * 2 ^ k) ∧
      finite (stageStep g u st).next = true ∧ |value (stageStep g u st).next| ≤ 2 ^ 26 * 2 ^ k := by
  have fg := finite_of_within (by decide) (by decide) hg
  obtain ⟨g0, g1⟩ := (within_iff (by decide) (by decide) fg).1 hg
  rw [show value c0 = 0 by decide] at g0
  rw [show value c1 = 2 ^ 149 by decide] at g1
  have kpos : (0 : Int) < 2 ^ k := by positivity
  have hkk : (2 : Int) ^ k ≤ 2 ^ 227 := pow_le_pow_right₀ (by norm_num) hk
  have big : ∀ {w : Int}, |w| ≤ 3 * (2 ^ 26 * 2 ^ k) →
      2 * w.natAbs < (2 ^ 25 - 1) * 2 ^ 253 * 1 := by
    intro w hw
    rw [Int.abs_eq_natAbs] at hw
    omega
  have hst' := abs_le.1 hst
  have hu' := abs_le.1 hu
  -- the difference
  have rd := sub_rounds fu fst
  have fd : finite (sub u st) = true :=
    rd.finite Nat.one_pos (big (abs_le.2 ⟨by linarith, by linarith⟩))
  have near : |value (sub u st) - (value u - value st)| ≤ |value u| := by
    have := (rd.nearest Nat.one_pos fd (F32.neg st)).1
    rw [value_neg] at this
    simp only [Nat.cast_one, mul_one] at this
    rwa [show -value st - (value u - value st) = -value u by ring, abs_neg] at this
  -- the product
  have rv := mul_rounds fd fg
  have hv : finite (mul (sub u st) g) = true ∧
      ((0 ≤ value (mul (sub u st) g) ∧ value (mul (sub u st) g) ≤ value (sub u st)) ∨
        (value (sub u st) ≤ value (mul (sub u st) g) ∧ value (mul (sub u st) g) ≤ 0)) := by
    rcases Int.le_total 0 (value (sub u st)) with h0 | h0
    · have hw : within c0 (sub u st) (mul (sub u st) g) = true :=
        rv.within (by positivity) (by decide) fd (by rw [show value c0 = 0 by decide]; push_cast; nlinarith)
          (by push_cast; nlinarith)
      have fv := finite_of_within (by decide) fd hw
      have := (within_iff (by decide) fd fv).1 hw
      rw [show value c0 = 0 by decide] at this
      exact ⟨fv, .inl this⟩
    · have hw : within (sub u st) c0 (mul (sub u st) g) = true :=
        rv.within (by positivity) fd (by decide) (by push_cast; nlinarith)
          (by rw [show value c0 = 0 by decide]; push_cast; nlinarith)
      have fv := finite_of_within fd (by decide) hw
      have := (within_iff fd (by decide) fv).1 hw
      rw [show value c0 = 0 by decide] at this
      exact ⟨fv, .inr this⟩
  obtain ⟨fv, hv⟩ := hv
  have hn := abs_le.1 (near.trans hu)
  -- monotone rounding of a sum
  have mono : ∀ {a b : Sample}, finite a = true → finite b = true → finite (add a b) = true →
      (∀ c, Rep c → c ≤ value a + value b → c ≤ value (add a b)) ∧
        (∀ c, Rep c → value a + value b ≤ c → value (add a b) ≤ c) := by
    intro a b fa fb fab
    have r := add_rounds fa fb
    constructor
    · rintro c ⟨x, hx, rfl⟩ h
      exact (le_iff hx fab).1 (r.le_of_ge Nat.one_pos hx (by push_cast; linarith))
    · rintro c ⟨x, hx, rfl⟩ h
      exact (le_iff fab hx).1 (r.le_of_le Nat.one_pos hx (by push_cast; linarith))
  -- the output and the new stage
  have fy : finite (add (mul (sub u st) g) st) = true :=
    (add_rounds fv fst).finite Nat.one_pos
      (big (abs_le.2 ⟨by rcases hv with h | h <;> linarith, by rcases hv with h | h <;> linarith⟩))
  have my := mono fv fst fy
  have hy2 : |value (add (mul (sub u st) g) st)| ≤ 2 ^ 26 * 2 ^ k := by
    refine (stage_bound (k := k) (z := value (mul (sub u st) g) + value (add (mul (sub u st) g) st))
      (rep_value fst) (rep_value fd) hM hQ hst hu near hv my.1 my.2 ?_ ?_).1 <;>
    · intro c _ h; linarith
  have hy' := abs_le.1 hy2
  have fz : finite (add (add (mul (sub u st) g) st) (mul (sub u st) g)) = true :=
    (add_rounds fy fv).finite Nat.one_pos
      (big (abs_le.2 ⟨by rcases hv with h | h <;> linarith, by rcases hv with h | h <;> linarith⟩))
  have mz := mono fy fv fz
  have hz := (stage_bound (k := k) (rep_value fst) (rep_value fd) hM hQ hst hu near hv my.1 my.2
    mz.1 mz.2).2
  exact ⟨⟨fy, hy2⟩, fz, hz⟩

end Sys2Proof.Machine
end

