-- ==== Sys2Proof/Laws/PerInstr.lean ====
section
/-! SUPPORT. Laws made per command: the header of a command selects its row of the table (R87), whatever
its selectors. -/

namespace Sys2Proof.Laws.HeaderRow

/-- The encoded header of a command selects the row of R87 whose match word has the command's opcode,
and no selector spills over into the opcode or the reserved field. -/
def Statement (i : Instr) : Prop :=
  (∃ r ∈ rows, r.selects (encodeHeader i) = true ∧ hdrOpc r.pattern = hdrOpc (encodeHeader i)) ∧
    hdrZero (encodeHeader i) = 0

theorem nop : Statement (.nop) := by
  refine ⟨⟨rows[0], List.getElem_mem _, ?_, ?_⟩, ?_⟩ <;>
    (simp only [encodeHeader]; decide)

theorem prepare (a : Sample) : Statement (.prepare a) := by
  refine ⟨⟨rows[1], List.getElem_mem _, ?_, ?_⟩, ?_⟩ <;>
    (simp only [encodeHeader]; decide)

theorem rderr : Statement (.rderr) := by
  refine ⟨⟨rows[2], List.getElem_mem _, ?_, ?_⟩, ?_⟩ <;>
    (simp only [encodeHeader]; decide)

theorem oscSetfreq (i : BitVec 2) (a : Sample) : Statement (.oscSetfreq i a) := by
  refine ⟨⟨rows[3], List.getElem_mem _, ?_, ?_⟩, ?_⟩ <;>
    (simp only [encodeHeader]; revert i; decide +kernel)

theorem oscSetwave (i : BitVec 2) (a : Sample) : Statement (.oscSetwave i a) := by
  refine ⟨⟨rows[4], List.getElem_mem _, ?_, ?_⟩, ?_⟩ <;>
    (simp only [encodeHeader]; revert i; decide +kernel)

theorem oscProc (i : BitVec 2) : Statement (.oscProc i) := by
  refine ⟨⟨rows[5], List.getElem_mem _, ?_, ?_⟩, ?_⟩ <;>
    (simp only [encodeHeader]; revert i; decide +kernel)

theorem oscProcfm (i : BitVec 2) (a : Sample) (b : Sample) : Statement (.oscProcfm i a b) := by
  refine ⟨⟨rows[6], List.getElem_mem _, ?_, ?_⟩, ?_⟩ <;>
    (simp only [encodeHeader]; revert i; decide +kernel)

theorem oscProcpm (i : BitVec 2) (a : Sample) : Statement (.oscProcpm i a) := by
  refine ⟨⟨rows[7], List.getElem_mem _, ?_, ?_⟩, ?_⟩ <;>
    (simp only [encodeHeader]; revert i; decide +kernel)

theorem oscSync (i : BitVec 2) : Statement (.oscSync i) := by
  refine ⟨⟨rows[8], List.getElem_mem _, ?_, ?_⟩, ?_⟩ <;>
    (simp only [encodeHeader]; revert i; decide +kernel)

theorem oscCycle (i : BitVec 2) : Statement (.oscCycle i) := by
  refine ⟨⟨rows[9], List.getElem_mem _, ?_, ?_⟩, ?_⟩ <;>
    (simp only [encodeHeader]; revert i; decide +kernel)

theorem oscSyncif (s : BitVec 2) (m : BitVec 2) : Statement (.oscSyncif s m) := by
  refine ⟨⟨rows[10], List.getElem_mem _, ?_, ?_⟩, ?_⟩ <;>
    (simp only [encodeHeader]; revert s m; decide +kernel)

theorem envSetdecay (j : BitVec 2) (a : Sample) : Statement (.envSetdecay j a) := by
  refine ⟨⟨rows[11], List.getElem_mem _, ?_, ?_⟩, ?_⟩ <;>
    (simp only [encodeHeader]; revert j; decide +kernel)

theorem envTrig (j : BitVec 2) (a : Sample) : Statement (.envTrig j a) := by
  refine ⟨⟨rows[12], List.getElem_mem _, ?_, ?_⟩, ?_⟩ <;>
    (simp only [encodeHeader]; revert j; decide +kernel)

theorem envProc (j : BitVec 2) : Statement (.envProc j) := by
  refine ⟨⟨rows[13], List.getElem_mem _, ?_, ?_⟩, ?_⟩ <;>
    (simp only [encodeHeader]; revert j; decide +kernel)

theorem envActive (j : BitVec 2) : Statement (.envActive j) := by
  refine ⟨⟨rows[14], List.getElem_mem _, ?_, ?_⟩, ?_⟩ <;>
    (simp only [encodeHeader]; revert j; decide +kernel)

theorem vcfSetcut (a : Sample) : Statement (.vcfSetcut a) := by
  refine ⟨⟨rows[15], List.getElem_mem _, ?_, ?_⟩, ?_⟩ <;>
    (simp only [encodeHeader]; decide)

theorem vcfSetres (a : Sample) : Statement (.vcfSetres a) := by
  refine ⟨⟨rows[16], List.getElem_mem _, ?_, ?_⟩, ?_⟩ <;>
    (simp only [encodeHeader]; decide)

theorem vcfSetmode (m : BitVec 1) : Statement (.vcfSetmode m) := by
  refine ⟨⟨rows[17], List.getElem_mem _, ?_, ?_⟩, ?_⟩ <;>
    (simp only [encodeHeader]; revert m; decide +kernel)

theorem vcfProc (a : Sample) : Statement (.vcfProc a) := by
  refine ⟨⟨rows[18], List.getElem_mem _, ?_, ?_⟩, ?_⟩ <;>
    (simp only [encodeHeader]; decide)

theorem mmSetslot (n : BitVec 2) (x : BitVec 4) (y : BitVec 4) (a : Sample) : Statement (.mmSetslot n x y a) := by
  refine ⟨⟨rows[19], List.getElem_mem _, ?_, ?_⟩, ?_⟩ <;>
    (simp only [encodeHeader]; revert n x y; decide +kernel)

theorem mmSetsrc (n : BitVec 4) (a : Sample) : Statement (.mmSetsrc n a) := by
  refine ⟨⟨rows[20], List.getElem_mem _, ?_, ?_⟩, ?_⟩ <;>
    (simp only [encodeHeader]; revert n; decide +kernel)

theorem mmEval : Statement (.mmEval) := by
  refine ⟨⟨rows[21], List.getElem_mem _, ?_, ?_⟩, ?_⟩ <;>
    (simp only [encodeHeader]; decide)

theorem mmRead (d : BitVec 4) : Statement (.mmRead d) := by
  refine ⟨⟨rows[22], List.getElem_mem _, ?_, ?_⟩, ?_⟩ <;>
    (simp only [encodeHeader]; revert d; decide +kernel)

end Sys2Proof.Laws.HeaderRow
end

