-- ==== Sys2Proof/Laws/Wave.lean ====
section
/-! SUPPORT. The blend of two samples in [-1,1] lies in [-1,1] after rounding (R12, R119), and the
position within a segment of the morph lies in [0,1] (R113). -/

namespace Sys2Proof.F32

theorem value_c0 : value c0 = 0 := by decide
theorem value_c1 : value c1 = 2 ^ 149 := by decide
theorem value_cNeg1 : value cNeg1 = -2 ^ 149 := by decide

/-- The range [-1,1] in values. -/
theorem inUnit_iff {x : Sample} (hx : finite x = true) :
    inUnit x = true ↔ |value x| ≤ 2 ^ 149 := by
  unfold inUnit
  rw [within_iff (by decide) (by decide) hx, value_c1, value_cNeg1, abs_le]

/-- Rounding brings anything up to half a unit of the last place above 1 back to at most 1. -/
theorem Rounds.inUnit {v : Int} {x : Sample} (h : Rounds v 1 x) (hv : |v| ≤ 2 ^ 149 + 2 ^ 125) :
    F32.inUnit x = true := by
  have hn : v.natAbs ≤ 2 ^ 149 + 2 ^ 125 := by
    rw [Int.abs_eq_natAbs] at hv
    exact_mod_cast hv
  have h1 : roundMag v.natAbs 1 ≤ roundMag (2 ^ 149 + 2 ^ 125) 1 :=
    roundMag_mono Nat.one_pos Nat.one_pos (by omega)
  have h2 : roundMag (2 ^ 149 + 2 ^ 125) 1 = magBits c1 := by decide
  rw [h2, ← h.magBits_eq] at h1
  have h3 : magBits c1 < infBits := by decide
  have hfin : F32.finite x = true := (finite_iff x).2 (by omega)
  rw [inUnit_iff hfin, Int.abs_eq_natAbs, natAbs_value]
  have h4 := (magnitude_le_iff ((finite_iff x).1 hfin) h3).2 h1
  have h5 : magnitude (magBits c1) = 2 ^ 149 := by decide
  rw [h5] at h4
  exact_mod_cast h4

/-- The blend of two samples in [-1,1] at a position in [0,1] lies in [-1,1]. -/
theorem inUnit_lerp {a b t : Sample} (ha : inUnit a = true) (hb : inUnit b = true)
    (ht : within c0 c1 t = true) : inUnit (lerp a b t) = true := by
  have fa := finite_of_inUnit ha
  have fb := finite_of_inUnit hb
  have ft := finite_of_within (by decide) (by decide) ht
  obtain ⟨t0, t1⟩ := (within_iff (by decide) (by decide) ft).1 ht
  rw [value_c0] at t0
  rw [value_c1] at t1
  have ha' := abs_le.1 ((inUnit_iff fa).1 ha)
  have hb' := abs_le.1 ((inUnit_iff fb).1 hb)
  -- 1 - t
  have hs := sub_rounds (a := c1) (b := t) (by decide) ft
  rw [value_c1] at hs
  have ws : within c0 c1 (sub c1 t) = true :=
    hs.within (by decide) (by decide) (by decide) (by rw [value_c0]; push_cast; linarith)
      (by rw [value_c1]; push_cast; linarith)
  have fs := finite_of_within (by decide) (by decide) ws
  obtain ⟨s0, -⟩ := (within_iff (by decide) (by decide) fs).1 ws
  rw [value_c0] at s0
  have hsum : value (sub c1 t) + value t ≤ 2 ^ 149 + 2 ^ 125 := by
    have he := hs.error Nat.one_pos fs
    have h1 := le_abs_self (value (sub c1 t) * ((1 : Nat) : Int) - (2 ^ 149 - value t))
    rw [abs_of_nonneg (a := 2 ^ 149 - value t) (by linarith)] at he
    push_cast at he h1
    rcases he with he | he <;> omega
  -- the two products
  have prod : ∀ {u c : Sample}, finite u = true → finite c = true → 0 ≤ value u →
      -2 ^ 149 ≤ value c → value c ≤ 2 ^ 149 →
      finite (mul u c) = true ∧ |value (mul u c)| ≤ value u := by
    intro u c fu fc u0 c1' c2'
    have hm := mul_rounds fu fc
    have hw : within (neg u) u (mul u c) = true := by
      refine hm.within (by positivity) (by simpa using fu) fu ?_ ?_
      · rw [value_neg]; push_cast; nlinarith
      · push_cast; nlinarith
    have fm := finite_of_within (by simpa using fu) fu hw
    have := (within_iff (by simpa using fu) fu fm).1 hw
    rw [value_neg] at this
    exact ⟨fm, abs_le.2 this⟩
  obtain ⟨f1, p1⟩ := prod fs fa s0 ha'.1 ha'.2
  obtain ⟨f2, p2⟩ := prod ft fb t0 hb'.1 hb'.2
  unfold lerp
  refine (add_rounds f1 f2).inUnit ?_
  exact (abs_add_le _ _).trans (by linarith)

/-- A quotient of two samples, the divisor positive and not the smaller, lies in [0,1]. -/
theorem div_within_one {a b : Sample} (ha : finite a = true) (hb : finite b = true)
    (h0 : 0 ≤ value a) (hpos : 0 < value b) (h1 : value a ≤ value b) :
    within c0 c1 (div a b) = true := by
  have hmag : (magnitude (magBits b) : Int) = value b := by
    have := natAbs_value b
    omega
  refine (div_rounds ha hb hpos).within (by omega) (by decide) (by decide) ?_ ?_
  · rw [value_c0]; simp; positivity
  · rw [value_c1, hmag]; nlinarith [show (0 : Int) < 2 ^ 149 by positivity]

/-- The difference of a sample and one below it, no more than a bound, lies between 0 and the bound. -/
theorem sub_within {p c m : Sample} (hp : finite p = true) (hc : finite c = true)
    (hm : finite m = true) (h0 : value c ≤ value p) (h1 : value p - value c ≤ value m) :
    finite (sub p c) = true ∧ 0 ≤ value (sub p c) ∧ value (sub p c) ≤ value m := by
  have hw : within c0 m (sub p c) = true :=
    (sub_rounds hp hc).within (by decide) (by decide) hm (by rw [value_c0]; push_cast; linarith)
      (by push_cast; linarith)
  have hf := finite_of_within (by decide) hm hw
  have := (within_iff (by decide) hm hf).1 hw
  rw [value_c0] at this
  exact ⟨hf, this⟩

end Sys2Proof.F32
end

