-- ==== Sys2Proof/Tests/Slice0.lean ====
section
/-! SUPPORT. The model's own tests. Words, packets and values are those of spec/95_test_vectors.md (T-…,
P…), of the examples in the rules, or written out from the encodings of R83 to R87. -/

namespace Sys2Proof.Tests

open Sys2Proof.Machine Sys2Proof.F32

/-! ### Helpers -/

/-- One value of the state a step answers. -/
def view {α : Type} (f : State → α) : Result → Option α
  | .next t => some (f t)
  | .fault _ => none
  | .refused _ => none

/-- The response (R84) of the state a step answers. -/
def response : Result → Option (BitVec 8 × Word) := view fun t => (t.rspStatus, t.rspResult)

/-- 48000.0. -/
def fs48 : Sample := 0x473B8000

/-- The block prepared at 48000 from power-on (R41). -/
def ready : State := preparedState .reset fs48 (clampCutoff fs48 c0) (cutoffCoeff fs48 (clampCutoff fs48 c0))

/-- The prepared block with oscillator 0 given. -/
def withOsc0 (o : Osc) : State := putOsc ready 0 o

/-- The prepared block with envelope 0 given. -/
def withEnv0 (e : Env) : State := putEnv ready 0 e

/-- The prepared block with the slots, the inputs and the counter given. -/
def withMatrix (sl : Bank4 Slot) (b : Srcin) (ctr : BitVec 32) : State :=
  putMm ready { ready.mm with slot := sl, srcin := b, randCtr := ctr }

/-- A slot that is OFF (R190). -/
def off : Slot := ⟨0, 0, c0⟩

/-! ### WellFormed: an ill-formed term for each check of R90 -/

theorem test_wellFormed_osc_instance : (Instr.oscProc 3).wellFormed = false := by decide
theorem test_wellFormed_env_instance : (Instr.envProc 3).wellFormed = false := by decide
theorem test_wellFormed_sync_slave : (Instr.oscSyncif 3 0).wellFormed = false := by decide
theorem test_wellFormed_sync_master : (Instr.oscSyncif 0 3).wellFormed = false := by decide
theorem test_wellFormed_source_zero : (Instr.mmSetsrc 0 0).wellFormed = false := by decide
theorem test_wellFormed_source_six : (Instr.mmSetsrc 6 0).wellFormed = false := by decide
theorem test_wellFormed_source_edges :
    (Instr.mmSetsrc 1 0).wellFormed = true ∧ (Instr.mmSetsrc 5 0).wellFormed = true := by decide

/-! ### Decode: every constructor from the word of R83 to R87 and T-ENC-1 to T-ENC-30 -/

theorem test_decode_system :
    decodePacket ⟨0x00000000, 0xFFFFFFFF, 0x12345678⟩ = .instr .nop ∧
    decodePacket ⟨0x01000000, 0x473B8000, 0⟩ = .instr (.prepare 0x473B8000) ∧
    decodePacket ⟨0x02000000, 0, 0⟩ = .instr .rderr := by decide

theorem test_decode_oscillator :
    decodePacket ⟨0x10100000, 0x43DC0000, 0⟩ = .instr (.oscSetfreq 1 0x43DC0000) ∧
    decodePacket ⟨0x11200000, 0x3F28F5C3, 0⟩ = .instr (.oscSetwave 2 0x3F28F5C3) ∧
    decodePacket ⟨0x12000000, 0x7FC00000, 0x7F800000⟩ = .instr (.oscProc 0) ∧
    decodePacket ⟨0x13000000, 0x3F000000, 0x3E800000⟩ =
      .instr (.oscProcfm 0 0x3F000000 0x3E800000) ∧
    decodePacket ⟨0x14100000, 0xC1400000, 0⟩ = .instr (.oscProcpm 1 0xC1400000) ∧
    decodePacket ⟨0x15000000, 0, 0⟩ = .instr (.oscSync 0) ∧
    decodePacket ⟨0x16100000, 0, 0⟩ = .instr (.oscCycle 1) ∧
    decodePacket ⟨0x17010000, 0, 0⟩ = .instr (.oscSyncif 0 1) ∧
    decodePacket ⟨0x17220000, 0, 0⟩ = .instr (.oscSyncif 2 2) := by decide

theorem test_decode_envelope :
    decodePacket ⟨0x20200000, 0x3E4CCCCD, 0⟩ = .instr (.envSetdecay 2 0x3E4CCCCD) ∧
    decodePacket ⟨0x21000000, 0x3F4CCCCD, 0⟩ = .instr (.envTrig 0 0x3F4CCCCD) ∧
    decodePacket ⟨0x22100000, 0, 0⟩ = .instr (.envProc 1) ∧
    decodePacket ⟨0x23200000, 0, 0⟩ = .instr (.envActive 2) := by decide

theorem test_decode_filter :
    decodePacket ⟨0x30000000, 0x447A0000, 0⟩ = .instr (.vcfSetcut 0x447A0000) ∧
    decodePacket ⟨0x31000000, 0x3F000000, 0⟩ = .instr (.vcfSetres 0x3F000000) ∧
    decodePacket ⟨0x32000000, 0, 0⟩ = .instr (.vcfSetmode 0) ∧
    decodePacket ⟨0x32010000, 0, 0⟩ = .instr (.vcfSetmode 1) ∧
    decodePacket ⟨0x33000000, 0x3E800000, 0⟩ = .instr (.vcfProc 0x3E800000) := by decide

theorem test_decode_matrix :
    decodePacket ⟨0x40233000, 0x3F000000, 0⟩ = .instr (.mmSetslot 2 3 3 0x3F000000) ∧
    decodePacket ⟨0x4036C000, 0xBF800000, 0⟩ = .instr (.mmSetslot 3 6 12 0xBF800000) ∧
    decodePacket ⟨0x41500000, 0x3E800000, 0⟩ = .instr (.mmSetsrc 5 0x3E800000) ∧
    decodePacket ⟨0x42000000, 0, 0⟩ = .instr .mmEval ∧
    decodePacket ⟨0x4300C000, 0, 0⟩ = .instr (.mmRead 12) ∧
    decodePacket ⟨0x4300F000, 0, 0⟩ = .instr (.mmRead 15) := by decide

/-- One header written field by field: `OPC` 0x17, `UNIT` 2, `X` 1, `Y` 0, `ZERO` 0 (R83, R128). -/
theorem test_decode_syncif_bits :
    decodePacket ⟨0b0001_0111_0010_0001_0000_0000_0000_0000, 0, 0⟩ = .instr (.oscSyncif 2 1) := by
  decide

/-- T-ENC-40 to T-ENC-45 and T-ENC-47, 50 to 54 and 58 to 62: no row matches. -/
theorem test_decode_no_row :
    ([0x05000000, 0x18000000, 0x24000000, 0x34000000, 0x44000000, 0xFF000000, 0x12400000, 0x17040000,
      0x12000001, 0x12010000, 0x32020000, 0x30100000, 0x40400000, 0x42001000, 0x43100000, 0x01100000,
      0x00000001] : List Word).all (fun w => decodePacket ⟨w, 0, 0⟩ = .refused .noRow) = true := by
  decide

/-- T-ENC-46, 48, 49, 55 to 57: a range check of R90 fails. -/
theorem test_decode_range :
    ([0x12300000, 0x22300000, 0x17030000, 0x41000000, 0x41600000, 0x41F00000] : List Word).all
      (fun w => decodePacket ⟨w, 0, 0⟩ = .refused .rangeCheck) = true := by decide

/-- The example of R63, and the same word read by `decodeTableWord`. -/
theorem test_bytes :
    decodeBytes [0x00, 0x00, 0x00, 0x10, 0x00, 0x00, 0xDC, 0x43, 0x00, 0x00, 0x00, 0x00] =
      (.instr (.oscSetfreq 0 0x43DC0000), []) ∧
    decodeTableWord 32 0x10100000 = some (.oscSetfreq 1 0) := by decide

/-- R63, R84: the bytes of the response to `OSC.CYCLE` refused before `PREPARE`, and of a result. -/
theorem test_response_bytes :
    view responseToBytes (exec (.oscCycle 0) .reset) = some [0x02, 0, 0, 0, 0, 0, 0, 0] ∧
    responseToBytes { State.reset with rspResult := 0x3E4CCCCD } =
      [0, 0, 0, 0, 0xCD, 0xCC, 0x4C, 0x3E] := by decide

/-- R207: the factors of the table. -/
theorem test_mmScale :
    mmScale 3 = some 12 ∧ mmScale 4 = some 12 ∧ mmScale 7 = some (1 / 2) ∧ mmScale 8 = some (1 / 2) ∧
    mmScale 12 = some (1 / 2) ∧ mmScale 6 = some (Config.mmScaleOpen 6) ∧ mmScale 13 = none := by
  simp [mmScale]

/-- R125, R240: at -1 octave the factor is above 0, and below -149 it may be 0. -/
theorem test_exp2_bound :
    Num.exp2FallMax cNeg1 < magBits c1 ∧ Num.exp2FallMax 0xC3150000 < magBits c1 ∧
    Num.exp2FallMax 0xC3150001 = magBits c1 := by decide

/-- The pseudo-commands of R94. -/
theorem test_pseudo :
    encode (pseudoClrslot 1) = ⟨0x40100000, 0, 0⟩ ∧ encode pseudoHp = ⟨0x32010000, 0, 0⟩ ∧
    encode pseudoLp = ⟨0x32000000, 0, 0⟩ ∧ encode (pseudoHardsync 0 1) = ⟨0x17010000, 0, 0⟩ := by
  decide

/-! ### Arithmetic -/

/-- R93: decimal operands of section 0 of the vectors. -/
theorem test_decimal :
    ofDecimal false 440 0 = 0x43DC0000 ∧ ofDecimal false 495 3 = 0x3EFD70A4 ∧
    ofDecimal true 3 1 = 0xBE99999A ∧ ofDecimal false 5 5 = 0x3851B717 := by decide

/-- R235, R241: `floor` and the corner of `wrap1` (`u = -1e-9`, `0xB089705F`). -/
theorem test_wrap :
    wrap1 0xB089705F = c0 ∧ wrap1 0xBE000000 = 0x3F600000 ∧ wrap1 c1 = c0 ∧
    wrap1 0x3F980000 = 0x3E400000 ∧ floor 0xB089705F = cNeg1 := by decide

/-- R242: a subnormal sum is kept; R234: `clamp(-0.0, 0, 1)` is -0.0. -/
theorem test_subnormal_and_clamp :
    add 0x00000001 0x00000001 = 0x00000002 ∧ mul c0_5 0x00800000 = 0x00400000 ∧
    clamp 0x80000000 c0 c1 = 0x80000000 ∧ clamp c2 c4 c1 = c1 := by decide

/-- R114: the position at morph 0.66 and at 1. -/
theorem test_positions :
    div (sub c0_66 c0_33) c0_33 = c1 ∧ div (sub c1 c0_66) c0_34 = 0x3F7FFFFF := by decide

/-- T-OSC-23: phases 0, 0.125, 0.5 and 0.75 at morph 0.495. -/
theorem test_morph_blend :
    [c0, 0x3E000000, c0_5, c0_75].map (Wave.morph Wave.reference 0x3EFD70A4) =
      [0x3EFFFFFE, 0x3F400000, 0xBEFFFFFE, 0xBF800000] := by decide

/-- T-OSC-24: phases 0, 0.375, 0.5 and 0.875 at morph 0.66. -/
theorem test_morph_square :
    [c0, 0x3EC00000, c0_5, 0x3F600000].map (Wave.morph Wave.reference c0_66) =
      [c1, c1, cNeg1, cNeg1] := by decide

/-- T-SYS-3 to T-SYS-5: `RAND_PERIOD`, and R246's saturation. -/
theorem test_randPeriod :
    randPeriod fs48 = 960 ∧ randPeriod 0x472C4400 = 882 ∧ randPeriod 0x41F00000 = 1 ∧
    randPeriod 0x42C80000 = 2 ∧ randPeriod 0x7F000000 = 2 ^ 32 - 1 := by decide

/-! ### System commands -/

/-- T-SYS-1, T-SYS-2. -/
theorem test_nop : response (exec .nop .reset) = some (0, 0) := by decide
theorem test_rderr : response (exec .rderr { ready with errflags := 7 }) = some (0, 7) := by decide

/-- `PREPARE` at a rate that is not subnormal completes, whatever the tangent. -/
theorem exec_prepare_of_normal {a : Sample} (hf : finite a = true) (hn : le minNormal a = true)
    (hz : le a c0 = false) (hpi : finite (mul cPi (clampCutoff a c0)) = true) :
    exec (.prepare a) .reset =
      .next (respond (preparedState .reset a (clampCutoff a c0) (cutoffCoeff a (clampCutoff a c0))) 0) := by
  show answer _ (needFinite [a] (if le a c0 = true then _ else withCutoff a c0 _)) = _
  rw [needFinite_one hf, if_neg (by rw [hz]; decide), withCutoff_of_normal hf hn (by decide) hpi]
  rfl

/-- `VCF.SETCUT` in the prepared block completes where the product with `PI` is finite. -/
theorem exec_setcut_ready {a : Sample} (ha : finite a = true)
    (hpi : finite (mul cPi (clampCutoff fs48 a)) = true) :
    exec (.vcfSetcut a) ready =
      .next (respond (putVcf ready { ready.vcf with
        cutoff := clampCutoff fs48 a
        g := cutoffCoeff fs48 (clampCutoff fs48 a) }) 0) := by
  show answer _ (whenPrepared ready (needFinite [a] (withCutoff fs48 a _))) = _
  rw [whenPrepared_of_prepared rfl, needFinite_one ha,
    withCutoff_of_normal (by decide) (by decide) ha hpi]
  rfl

/-- T-SYS-3, T-SYS-5. -/
theorem test_prepare :
    view (fun t => (t.prepared, t.fs, t.vcf.cutoff, t.rspStatus)) (exec (.prepare fs48) .reset) =
      some (true, fs48, 0x41A00000, 0) := by
  rw [exec_prepare_of_normal (by decide) (by decide) (by decide) (by decide)]; decide
theorem test_prepare_low :
    view (fun t => t.vcf.cutoff) (exec (.prepare 0x41F00000) .reset) = some 0x41580000 := by
  rw [exec_prepare_of_normal (by decide) (by decide) (by decide) (by decide)]; decide

/-! ### Oscillator -/

/-- T-OSC-1 and T-OSC-2. -/
theorem test_setfreq :
    view (fun t => t.osc.u0.inc) (exec (.oscSetfreq 0 0x45BB8000) ready) = some 0x3E000000 ∧
    view (fun t => t.osc.u0.inc) (exec (.oscSetfreq 0 0x43DC0000) ready) = some 0x3C162FC9 := by decide
/-- T-OSC-7 to T-OSC-9. -/
theorem test_setwave :
    view (fun t => t.osc.u0.morph) (exec (.oscSetwave 0 0x3FD9999A) ready) = some c1 ∧
    view (fun t => t.osc.u0.morph) (exec (.oscSetwave 0 0xBE99999A) ready) = some c0 ∧
    view (fun t => t.osc.u0.morph) (exec (.oscSetwave 0 0x80000000) ready) = some 0x80000000 := by
  decide
/-- T-OSC-55: `u = 1.0` exactly is a forward wrap to 0. -/
theorem test_proc :
    view (fun t => (t.osc.u0.phase, t.osc.u0.cyc, t.rspStatus))
      (exec (.oscProc 0) (withOsc0 ⟨c0, c0_25, c0_75, c0, false⟩)) = some (c0, true, 0) := by decide
/-- T-OSC-30 and T-OSC-32. -/
theorem test_procfm :
    view (fun t => (t.osc.u0.phase, t.osc.u0.cyc, t.osc.u0.inc))
      (exec (.oscProcfm 0 c0_5 c0_5) (withOsc0 ⟨c0, 0x3E000000, c0, c0_33, true⟩)) =
      some (c0_25, false, 0x3E000000) ∧
    view (fun t => (t.osc.u0.phase, t.osc.u0.cyc))
      (exec (.oscProcfm 0 cNeg1 c0_5) (withOsc0 ⟨c0, 0x3E000000, c0_25, c0_33, true⟩)) =
      some (0x3E000000, false) := by decide
/-- T-OSC-44: a factor of exactly 1. T-OSC-54: an overflow of `exp2`. -/
theorem test_procpm :
    view (fun t => (t.osc.u0.phase, t.osc.u0.cyc))
      (exec (.oscProcpm 0 c0) (withOsc0 ⟨c0, 0x3E000000, 0x3F600000, c0_33, false⟩)) =
      some (c0, true) ∧
    response (exec (.oscProcpm 0 0x44FA0000) (withOsc0 ⟨c0, 0x3E000000, c0_5, c0, false⟩)) =
      some (3, 0) := by decide
/-- T-OSC-39. -/
theorem test_sync :
    view (fun t => (t.osc.u0.phase, t.osc.u0.cyc))
      (exec (.oscSync 0) (withOsc0 ⟨c0, c0, 0x3E400000, c0, true⟩)) = some (c0, true) := by decide
/-- T-OSC-38. -/
theorem test_cycle :
    response (exec (.oscCycle 0) (withOsc0 ⟨c0, c0, 0x3E400000, c0, true⟩)) = some (0, 1) := by decide
/-- T-OSC-52 and T-OSC-51. -/
theorem test_syncif :
    view (fun t => (t.osc.u0.phase, t.osc.u0.cyc, t.rspResult))
      (exec (.oscSyncif 0 0) (withOsc0 ⟨c0, c0, c0_25, c0, true⟩)) = some (c0, true, 1) ∧
    view (fun t => (t.osc.u0.phase, t.rspResult))
      (exec (.oscSyncif 0 1) (withOsc0 ⟨c0, c0, 0x3EC00000, c0, true⟩)) =
      some (0x3EC00000, 0) := by decide

/-! ### Envelope -/

/-- T-ENV-4 and T-ENV-6. -/
theorem test_setdecay :
    view (fun t => (t.env.u0.coeff, t.env.u0.decay)) (exec (.envSetdecay 0 0xBE4CCCCD) ready) =
      some (c0, 0xBE4CCCCD) ∧
    response (exec (.envSetdecay 0 0x7E967699) ready) = some (3, 0) := by decide
/-- T-ENV-8 to T-ENV-10. -/
theorem test_trig :
    view (fun t => (t.env.u2.value, t.env.u2.active)) (exec (.envTrig 2 0x3FD9999A) ready) =
      some (c1, true) ∧
    view (fun t => (t.env.u2.value, t.env.u2.active)) (exec (.envTrig 2 0xBE99999A) ready) =
      some (c0, true) := by decide
/-- T-ENV-15: returned once, then snapped; and a product above the threshold is stored. -/
theorem test_envProc :
    view (fun t => (t.rspResult, t.env.u0.value, t.env.u0.active))
      (exec (.envProc 0) (withEnv0 ⟨0x3851B717, c0, c0_5, true⟩)) =
      some (0x3851B717, c0, false) ∧
    view (fun t => (t.rspResult, t.env.u0.value, t.env.u0.active))
      (exec (.envProc 0) (withEnv0 ⟨c1, c0, c0_5, true⟩)) = some (c1, c0_5, true) := by decide
/-- The threshold itself is not below itself (R152). -/
theorem test_envProc_threshold :
    view (fun t => (t.env.u0.value, t.env.u0.active))
      (exec (.envProc 0) (withEnv0 ⟨c0_0001, c0, c1, true⟩)) = some (c0_0001, true) := by decide
/-- T-ENV-13, and the flag after a trigger. -/
theorem test_active :
    response (exec (.envActive 0) ready) = some (0, 0) ∧
    response (exec (.envActive 0) (withEnv0 ⟨c1, c0, c0_5, true⟩)) = some (0, 1) := by decide

/-! ### Ladder filter -/

/-- T-VCF-4 and T-VCF-5. -/
theorem test_setcut :
    view (fun t => t.vcf.cutoff) (exec (.vcfSetcut 0x40A00000) ready) = some 0x41A00000 ∧
    view (fun t => t.vcf.cutoff) (exec (.vcfSetcut 0x46EA6000) ready) = some 0x46A8C000 := by
  rw [exec_setcut_ready (by decide) (by decide), exec_setcut_ready (by decide) (by decide)]; decide
/-- T-VCF-6: the clamp at 44100. -/
theorem test_setcut_44100 : clampCutoff 0x472C4400 0x469C4000 = 0x469B0A00 := by decide
/-- T-VCF-7. -/
theorem test_setres :
    view (fun t => (t.vcf.res, t.vcf.k)) (exec (.vcfSetres c0_5) ready) = some (c0_5, c2) ∧
    view (fun t => (t.vcf.res, t.vcf.k)) (exec (.vcfSetres 0x3FC00000) ready) = some (c1, c4) := by
  decide
/-- T-VCF-8. -/
theorem test_setmode :
    view (fun t => t.vcf.mode) (exec (.vcfSetmode 1) ready) = some .highpass := by decide
/-- T-VCF-10 at the coefficient 0.5, and T-VCF-11. -/
theorem test_vcfProc :
    view (fun t => (t.rspResult, t.vcf.stage))
      (exec (.vcfProc c0) (putVcf ready { ready.vcf with g := c0_5 })) =
      some (c0, ⟨c0, c0, c0, c0⟩) ∧
    response (exec (.vcfProc 0x7F800000) ready) = some (3, 0) := by decide +kernel
/-- R95 (4): a feedback that overflows refuses `VCF.PROC`, and the stages stay. -/
theorem test_vcfProc_overflow :
    view (fun t => (t.rspStatus, t.rspResult, t.vcf.stage))
      (exec (.vcfProc c0) (putVcf ready { ready.vcf with k := c4, stage := ⟨c0, c0, c0, 0x7F7FFFFF⟩ })) =
      some (3, 0, ⟨c0, c0, c0, 0x7F7FFFFF⟩) := by decide +kernel
/-- Row 6 of P3a: an impulse moves down the ladder, one stage a sample (input 0, `g = 0.5`, `k = 0`). -/
theorem test_vcfProc_shift :
    view (fun t => (t.rspResult, t.vcf.stage))
      (exec (.vcfProc c0) (putVcf ready
        { ready.vcf with g := c0_5, stage := ⟨c0_5, c0_25, 0x3E000000, 0x3D800000⟩ })) =
      some (0x3E400000, ⟨c0, c0_25, c0_25, 0x3E400000⟩) := by decide +kernel

/-! ### Modulation matrix -/

/-- T-MM-2 and T-MM-3. -/
theorem test_setslot :
    view (fun t => t.mm.slot.u2) (exec (.mmSetslot 2 5 3 c2) ready) = some ⟨5, 3, c1⟩ ∧
    view (fun t => t.mm.slot.u3) (exec (.mmSetslot 3 9 12 c0_75) ready) = some ⟨9, 12, c0_75⟩ := by
  decide
/-- T-MM-5 and T-MM-6. -/
theorem test_setsrc :
    view (fun t => t.mm.srcin.lfo) (exec (.mmSetsrc 1 0xC0400000) ready) = some cNeg1 ∧
    view (fun t => t.mm.srcin.vel) (exec (.mmSetsrc 5 0xC0400000) ready) = some c0 := by decide
/-- T-MM-8: two slots on one destination, summed in index order. -/
theorem test_eval :
    view (fun t => (t.mm.acc.cutoff, t.mm.acc.pan, t.mm.randCtr, t.draws))
      (exec .mmEval (withMatrix ⟨⟨1, 1, c0_5⟩, ⟨2, 1, cNeg1⟩, off, ⟨9, 12, c1⟩⟩
        ⟨0x3F4CCCCD, c0_75, c0, c0, c0⟩ 0)) = some (0xBDCCCCCC, c0, 0, 0) := by decide
/-- P4b, rows 4 and 6, at 48000: two RANDOM slots draw once and count once. -/
theorem test_eval_random :
    view (fun t => (t.mm.randCtr, t.draws))
      (exec .mmEval (withMatrix ⟨⟨6, 6, c0_5⟩, ⟨6, 6, c0_25⟩, off, off⟩
        ⟨c0, c0, c0, c0, c0⟩ 0)) = some (1, 1) ∧
    view (fun t => (t.mm.randCtr, t.draws, t.mm.randHold))
      (exec .mmEval (withMatrix ⟨⟨6, 6, c0_5⟩, off, off, off⟩
        ⟨c0, c0, c0, c0, c0⟩ 959)) = some (0, 0, c0) := by decide
/-- T-MM-11: the sum 4.0 is not clamped. -/
theorem test_eval_four :
    view (fun t => t.mm.acc.reso)
      (exec .mmEval (withMatrix ⟨⟨1, 2, c1⟩, ⟨1, 2, c1⟩, ⟨1, 2, c1⟩, ⟨1, 2, c1⟩⟩
        ⟨c1, c0, c0, c0, c0⟩ 0)) = some c4 := by decide
/-- R196: a code of a destination and one of none. -/
theorem test_read :
    response (exec (.mmRead 12) (putMm ready { ready.mm with acc := { ready.mm.acc with fmamt := c4 } })) =
      some (0, c4) ∧
    response (exec (.mmRead 13) ready) = some (0, 0) := by decide

/-! ### Refusals and steps -/

/-- T-ERR-1 to T-ERR-3, as steps. -/
theorem test_priority :
    view (fun t => (t.rspStatus, t.errflags))
      (step (presentPacket .reset ⟨0x12300000, 0x7FC00000, 0⟩)) = some (1, 1) ∧
    view (fun t => (t.rspStatus, t.errflags))
      (step (presentPacket .reset ⟨0x10000000, 0x7FC00000, 0⟩)) = some (2, 2) ∧
    view (fun t => (t.rspStatus, t.errflags))
      (step (presentPacket .reset ⟨0x01000000, 0x7FC00000, 0⟩)) = some (3, 4) := by decide

/-- T-SYS-7: a refused `PREPARE` leaves a prepared block as it was. -/
theorem test_refused_prepare :
    view (fun t => (t.prepared, t.fs, t.osc.u0.phase, t.rspStatus))
      (exec (.prepare 0xC73B8000) (withOsc0 ⟨c0, c0, c0_5, c0, false⟩)) =
      some (true, fs48, c0_5, 3) := by decide

/-- A table word presented from reset is the command that the next step runs. -/
theorem test_fetch :
    response (step (State.reset.withFetchWord 32 0x02000000)) = some (0, 0) ∧
    response (step (State.reset.withFetchWord 32 0x12000000)) = some (2, 0) := by decide

/-! ### Witnesses: the hypotheses of the statements are met together -/

theorem ready_osc (k : Fin 3) : (ready.osc.get k).Inv ready.fs := by
  fin_cases k <;> exact ⟨by decide, by decide, by decide, by decide, by decide, by decide⟩

theorem ready_env (k : Fin 3) : (ready.env.get k).Inv := by
  fin_cases k <;> exact ⟨by decide, by decide, by decide, fun _ => rfl⟩

theorem ready_g : legalCoeff ready.vcf.g = true :=
  cutoffCoeff_legal (fs := fs48) (fc := clampCutoff fs48 c0) (by decide) (by decide) (by decide)
    (by decide) (by decide) (by decide)

theorem ready_g_eq : ready.vcf.g = cutoffCoeff ready.fs ready.vcf.cutoff := by
  unfold ready
  simp only [preparedState, preparedVcf]

theorem ready_cutoff :
    finite ready.vcf.cutoff = true ∧ le ready.vcf.cutoff (mul c0_45 ready.fs) = true ∧
      le c20 ready.vcf.cutoff = true :=
  (by decide : finite (clampCutoff fs48 c0) = true ∧
    le (clampCutoff fs48 c0) (mul c0_45 fs48) = true ∧ le c20 (clampCutoff fs48 c0) = true)

theorem ready_res : within c0 c1 ready.vcf.res = true ∧ ready.vcf.k = mul c4 ready.vcf.res := by decide

theorem ready_vcf : ready.vcf.Inv ready.fs :=
  ⟨ready_cutoff.1, ready_cutoff.2.1, .inl ready_cutoff.2.2, by decide,
    Bool.and_eq_true_iff.1 ready_g, ready_g_eq, ready_res.1, ready_res.2⟩

theorem ready_mm : ready.mm.Inv ready.fs where
  amt_range := by intro k; fin_cases k <;> decide
  lfo_range := by decide
  env0_range := by decide
  env1_range := by decide
  env2_range := by decide
  vel_range := by decide
  acc_range := by decide
  hold_range := by decide
  ctr_lt := by decide

/-- The prepared block meets the invariant. -/
theorem ready_preparedInv : ready.PreparedInv :=
  ⟨by decide, by decide, ready_osc, ready_env, ready_vcf, ready_mm⟩

theorem witness_inv : ready.Inv ∧ ready.prepared = true :=
  ⟨⟨by decide, by decide, fun h => absurd rfl h, fun _ => ready_preparedInv⟩, rfl⟩

/-- `StepKeepsTheInvariant`, `FilterStagesStayBounded`: a prepared state that meets the invariant and
the bounds, and a step of it. -/
theorem witness_step_from_inv :
    (presentPacket ready ⟨0x31000000, 0x3F000000, 0⟩).Inv ∧
    (presentPacket ready ⟨0x31000000, 0x3F000000, 0⟩).vcf.StagesBounded ∧
    view (fun t => (t.prepared, t.rspStatus))
      (step (presentPacket ready ⟨0x31000000, 0x3F000000, 0⟩)) = some (true, 0) :=
  ⟨⟨by decide, by decide, fun h => absurd rfl h,
      fun _ => ⟨by decide, by decide, ready_osc, ready_env, ready_vcf, ready_mm⟩⟩,
    by unfold Vcf.StagesBounded; decide, by decide⟩

/-- `EncodedCommandDecodesToItself` and `DecodedCommandIsItsPacket`. -/
theorem witness_decoded :
    (Instr.oscProcfm 2 c1 c2).wellFormed = true ∧
    decodePacket ⟨0x13200000, c1, c2⟩ = .instr (.oscProcfm 2 c1 c2) := by decide

/-- `DecodingFollowsTheMatchAndMaskTable`: a header that a row selects, one that none does, and one
whose range check fails. -/
theorem witness_rows :
    (∃ r ∈ rows, (0x12200000#32) &&& r.mask = r.pattern) ∧
    (∀ r ∈ rows, (0x05000000#32) &&& r.mask ≠ r.pattern) ∧
    (∃ r ∈ rows, (0x12300000#32) &&& r.mask = r.pattern) := by decide

/-- `IllegalHeaderIsRefused`: the boundary values of each selector. -/
theorem witness_headers :
    ([0x12200000, 0x17220000, 0x32010000, 0x40300000, 0x41100000, 0x41500000, 0x4300F000] : List Word).all
      legalHeader = true ∧
    ([0x12300000, 0x17230000, 0x32020000, 0x40400000, 0x41000000, 0x41600000, 0x43010000, 0x18000000] :
      List Word).any legalHeader = false := by decide

/-- `StepRunsTheDecodedCommand`, and the port of `IllegalHeaderIsRefused`,
`RefusedCommandWritesOnlyItsResponse` and `ErrorFlagsAreSticky`, whose refused step is
`test_priority`. -/
theorem witness_port :
    (presentPacket State.reset ⟨0x00000000, 0, 0⟩).port = [⟨0x00000000, 0, 0⟩] ∧
    decodePacket ⟨0x00000000, 0, 0⟩ = .instr .nop ∧ decodeTableWord 32 0x40000000 = some (.mmSetslot 0 0 0 0) :=
  ⟨rfl, by decide, by decide⟩

/-- `BlockNeverHalts`: an idle port. -/
theorem witness_idle : State.reset.port = [] := rfl

/-- `PacketBytesAreLittleEndian`: eleven bytes. -/
theorem witness_partial : (List.replicate 11 (0#8)).length < 12 := by decide

/-- `StatusFollowsThePriorityOrder`: both sides of the premise, and each of the four statuses. -/
theorem witness_status :
    (ready.prepared = true ∧ finite ready.fs = true ∧ lt c0 ready.fs = true) ∧
    State.reset.prepared = false ∧
    (statusOf ready .nop).code = 0 ∧ (statusOf State.reset (.oscProc 3)).code = 1 ∧
    (statusOf State.reset (.oscProc 2)).code = 2 ∧ (statusOf ready (.envTrig 2 0x7F800000)).code = 3 := by
  decide

/-- `ErrorFlagsAreSticky`: two runs in a row that end with no flag set. -/
theorem witness_run :
    run 1 (presentPacket State.reset ⟨0, 0, 0⟩) = .next State.reset ∧
    run 1 State.reset = .next State.reset ∧ State.reset.NothingRefused :=
  ⟨by rfl, by rfl, rfl⟩

/-- `OnlyPrepareChangesTheRate`: a command that changes the rate. -/
theorem witness_rate :
    view (fun t => decide (t.fs ≠ State.reset.fs)) (exec (.prepare fs48) .reset) = some true := by
  rw [exec_prepare_of_normal (by decide) (by decide) (by decide) (by decide)]; decide

/-- `CommandsKeepToTheirUnit` and `RepeatedSettingIsIdempotent`: a command of each class, no `PREPARE`,
and a pure read. -/
theorem witness_units :
    (Instr.oscSetwave 2 c1).unitClass = 1 ∧ (Instr.envTrig 2 c1).unitClass = 2 ∧
    (Instr.vcfSetres c1).unitClass = 3 ∧ Instr.mmEval.unitClass = 4 ∧ Instr.nop.unitClass = 0 ∧
    (Instr.mmRead 12).pureRead = true ∧ (Instr.oscSetwave 2 c1).stateAdvancing = false ∧
    view (fun t => t.rspStatus) (exec (.oscSetwave 2 c1) ready) = some 0 := by decide

/-- `UnspecifiedStateIsUnobservable`: two states that differ in an unspecified element. -/
theorem witness_unspecified :
    State.reset.SameVisible { State.reset with fs := c1 } ∧ State.reset ≠ { State.reset with fs := c1 } :=
  ⟨⟨rfl, rfl, rfl, rfl, rfl, rfl, fun h => absurd h (by decide)⟩, by decide⟩

/-- The hypotheses of the oscillator and envelope statements, at both ends of the instance numbers. -/
theorem witness_instances :
    (0 : BitVec 2).toNat = (0 : Fin 3).val ∧ (2 : BitVec 2).toNat = (2 : Fin 3).val ∧
    ready.prepared = true := by decide

/-- `PrepareInitialisesEveryElement`: a rate of each kind. -/
theorem witness_rates :
    (finite 0x00000001 = true ∧ lt c0 0x00000001 = true) ∧ le c0 c0 = true ∧
    le 0x80000000 c0 = true ∧ le 0x80000001 c0 = true ∧ finite 0x7F800000 = false ∧
    finite 0x7F7FFFFF = true := by decide

/-- `OscSetfreqWritesTheIncrement`: the largest frequency is refused at the rate 0.5 and not at 48000. -/
theorem witness_setfreq :
    (finite 0x7F7FFFFF = true ∧ finite (div 0x7F7FFFFF ready.fs) = true) ∧
    finite (div 0x7F7FFFFF ({ ready with fs := c0_5 } : State).fs) = false ∧
    finite 0x7FC00000 = false := by decide

/-- The process statements: finite increments and sums, and ones that are not. -/
theorem witness_process :
    let o : Osc := ⟨c0, 0x3E000000, c0_5, c0_33, false⟩
    (finite o.inc = true ∧ finite (add o.phase o.inc) = true) ∧
    (finite c1 = true ∧ finite (mul o.inc (add c1 (mul (mul c1 c1) c4))) = true ∧
      finite (add o.phase (mul o.inc (add c1 (mul (mul c1 c1) c4)))) = true) ∧
    finite (mul o.inc (add c1 (mul (mul 0x7F7FFFFF c2) c4))) = false ∧
    (finite (mul o.inc (Num.exp2 (div c0 c12))) = true ∧
      finite (add o.phase (mul o.inc (Num.exp2 (div c0 c12)))) = true) ∧
    finite (mul o.inc (Num.exp2 (div 0x44FA0000 c12))) = false := by decide

/-- `MorphLandmarks` and `OscillatorOutputStaysInRange`: four waveforms of the range (all zero), the
positions at the ends, and the prepared block's positions. -/
theorem witness_waves :
    (⟨fun _ => c0, fun _ => c0, fun _ => c0, fun _ => c0⟩ : Wave.Fns).InRange ∧
    within c0 c1 c0 = true ∧ within c0 c1 c1 = true ∧
    (∀ k, within c0 c1 (ready.osc.get k).morph = true) :=
  ⟨fun _ => (by decide : inUnit c0 = true ∧ inUnit c0 = true ∧ inUnit c0 = true ∧ inUnit c0 = true),
    by decide, by decide, by decide⟩

/-- The formula of `MorphLandmarks`: the last position of each segment and the first of the next. -/
theorem witness_segments :
    le 0x3EA8F5C3 0x3EA8F5C3 = true ∧
    (le 0x3EA8F5C4 0x3EA8F5C3 = false ∧ le 0x3EA8F5C4 0x3F28F5C3 = true) ∧
    (le 0x3F28F5C3 0x3EA8F5C3 = false ∧ le 0x3F28F5C3 0x3F28F5C3 = true) ∧
    (le 0x3F28F5C4 0x3EA8F5C3 = false ∧ le 0x3F28F5C4 0x3F28F5C3 = false) := by decide

/-- `WrappedPhaseStaysInCycle`: an ordinary phase, and `u = -1e-9` of R241, whose difference rounds to 1. -/
theorem witness_wrap :
    (finite 0xBE000000 = true ∧ lt (sub 0xBE000000 (floor 0xBE000000)) 0x3F800000 = true) ∧
    (finite 0xB089705F = true ∧ le 0x3F800000 (sub 0xB089705F (floor 0xB089705F)) = true) := by decide

/-- An `OK` process command (`OscillatorOutputStaysInRange`). -/
theorem witness_process_ok :
    view (fun t => t.rspStatus) (exec (.oscProc 2) ready) = some 0 ∧
    view (fun t => t.rspStatus) (exec (.oscProcfm 2 c1 c1) ready) = some 0 ∧
    view (fun t => t.rspStatus) (exec (.oscProcpm 2 c0) ready) = some 0 := by decide

/-- `OnlyProcessCommandsWriteTheCycleFlag`: a wrap that sets the flag. -/
theorem witness_cycle :
    view (fun t => decide ((t.osc.get 2).cyc ≠ (ready.osc.get 2).cyc))
      (exec (.oscProc 2) { ready with osc := ready.osc.set 2 ⟨c1, c0_5, c0_5, c0, false⟩ }) = some true := by
  decide

/-- `EnvSetdecayWritesTheCoefficient`: sample counts above 0, equal to 0 and below, and one that
overflows. -/
theorem witness_setdecay :
    (finite c1 = true ∧ finite (mul c1 ready.fs) = true ∧ le (mul c1 ready.fs) c0 = false) ∧
    le (mul c0 ready.fs) c0 = true ∧ le (mul cNeg1 ready.fs) c0 = true ∧
    finite (mul 0x7E967699 ready.fs) = false := by decide

/-- `EnvProcDecaysOrSnaps`: products on both sides of the threshold, and on it. -/
theorem witness_envProc :
    lt (mul 0x38D1B716 c1) c0_0001 = true ∧ lt (mul c0_0001 c1) c0_0001 = false ∧
    lt (mul c1 c1) c0_0001 = false := by decide

/-- `EnvelopeNeverGrows`: an envelope that runs and one that idles meet the invariant. -/
theorem witness_envelope :
    (⟨c1, c1, c0_5, true⟩ : Env).Inv ∧ (⟨c0, c0, c0, false⟩ : Env).Inv :=
  ⟨⟨by decide, by decide, by decide, fun h => by cases h⟩, ⟨by decide, by decide, by decide, fun _ => rfl⟩⟩

/-- `VcfSetcutWritesTheCoefficient`, `TangentArgumentStaysInItsInterval`: an ordinary rate, the least one
that is not subnormal, where the argument is greatest, and a rate at which the product with `PI`
overflows. -/
theorem witness_setcut :
    (finite fs48 = true ∧ le 0x00800000 fs48 = true ∧ finite (mul cPi (clampCutoff fs48 c1)) = true ∧
      finite (tanArgument fs48 (clampCutoff fs48 c1)) = true) ∧
    (finite 0x00800000 = true ∧ le 0x00800000 0x00800000 = true ∧
      finite (mul cPi (clampCutoff 0x00800000 c1)) = true) ∧
    tanArgument 0x00800000 (clampCutoff 0x00800000 c1) = 0x3FB4F4AD ∧
    finite (tanArgument 0x7F7FFFFF (clampCutoff 0x7F7FFFFF 0x7F7FFFFF)) = false := by decide

/-- `VcfProcStepsTheLadder`: a filter whose values are all finite, and one whose feedback is not. -/
theorem witness_vcfProc :
    (finite c0 = true ∧
      (filterValues { ready.vcf with g := c0_5, stage := ⟨c0_5, c0_25, 0x3E000000, 0x3D800000⟩ } c0).all
        finite = true) ∧
    finite (mul 0x7F7FFFFF c4) = false := by decide +kernel

/-- `PrepareInitialisesEveryElement` and `VcfSetcutWritesTheCoefficient`: the coefficient is legal at the
least rate that is not subnormal and at 48000. -/
theorem witness_coefficient :
    legalCoeff (cutoffCoeff 0x00800000 (clampCutoff 0x00800000 c0)) = true ∧
    legalCoeff (cutoffCoeff fs48 (clampCutoff fs48 c1)) = true :=
  ⟨cutoffCoeff_legal (by decide) (by decide) (by decide) (by decide) (by decide) (by decide),
    cutoffCoeff_legal (by decide) (by decide) (by decide) (by decide) (by decide) (by decide)⟩

/-- R30: the ends of the legal coefficients, and `T / (1 + T)` at 2^24 - 1 and at 2^24. -/
theorem test_legalCoeff :
    legalCoeff c0 = true ∧ legalCoeff 0x3F7FFFFF = true ∧ legalCoeff c1 = false ∧
    legalCoeff 0x80000001 = false ∧ legalCoeff 0x7FC00000 = false ∧
    div 0x4B7FFFFF (add c1 0x4B7FFFFF) = 0x3F7FFFFF ∧ div 0x4B800000 (add c1 0x4B800000) = c1 := by decide

/-- The second clause of `FilterStagesStayBounded`: an input at the bound of the highpass mode. -/
theorem witness_highpass :
    ready.vcf.StagesBounded ∧ ready.vcf.mode = .lowpass ∧
    finite 0x7F000000 = true ∧ boundedBy 0x7F000000 0x7F000000 = true ∧
    boundedBy 0x7F000000 0xFF000000 = true :=
  ⟨by unfold Vcf.StagesBounded; decide, rfl, by decide, by decide, by decide⟩

/-- `MmSetslotStoresTheRecord`, `MmSetsrcWritesOneInput`: the ends of the slot and input numbers. -/
theorem witness_matrix_numbers :
    (0 : BitVec 2).toNat = (0 : Fin 4).val ∧ (3 : BitVec 2).toNat = (3 : Fin 4).val ∧
    (1 ≤ (1 : BitVec 4).toNat ∧ (5 : BitVec 4).toNat ≤ 5) ∧ (0 : BitVec 4).toNat = 0 ∧
    6 ≤ (6 : BitVec 4).toNat ∧ 6 ≤ (15 : BitVec 4).toNat := by decide

/-- `ActiveSlotsAndSourceValues`, `MmEvalSumsTheSlots`, `InactiveSlotsNeverMatter`: slots at the ends of
the codes. -/
theorem witness_slots :
    (⟨1, 12, c1⟩ : Slot).isActive = true ∧ (⟨6, 1, c1⟩ : Slot).isActive = true ∧
    (⟨0, 1, c1⟩ : Slot).isActive = false ∧ (⟨7, 1, c1⟩ : Slot).isActive = false ∧
    (⟨1, 0, c1⟩ : Slot).isActive = false ∧ (⟨1, 13, c1⟩ : Slot).isActive = false ∧
    (ready.mm.slot.get 3).isActive = false ∧ ready.prepared = true := by decide

/-- `AccumulatorsStayWithinFour`, and the range clause of `ActiveSlotsAndSourceValues`. -/
theorem witness_accumulators : ready.prepared = true ∧ ready.mm.Inv ready.fs :=
  ⟨rfl, ready_preparedInv.mm⟩

/-- `RandomHoldIsRedrawnEveryPeriod`: a block with an active RANDOM slot, the counter at 0, and one
evaluation presented. -/
theorem witness_random :
    let s : State := { withMatrix ⟨⟨6, 6, c1⟩, off, off, off⟩ ⟨c0, c0, c0, c0, c0⟩ 0 with
      port := List.replicate 1 (encode .mmEval) }
    s.prepared = true ∧ s.mm.randCtr = 0 ∧ (∃ k, (s.mm.slot.get k).usesRandom = true) ∧
    s.port = List.replicate 1 (encode .mmEval) :=
  ⟨rfl, rfl, ⟨0, by decide⟩, rfl⟩

/-- The period of `RandomHoldIsRedrawnEveryPeriod`: rates below 50, at 50 and at 100, and the rates on
both sides of the saturation at 50 * 2^32. -/
theorem witness_period :
    (finite 0x41F00000 = true ∧ lt c0 0x41F00000 = true ∧ randPeriod 0x41F00000 = 1) ∧
    randPeriod 0x42480000 = 1 ∧ randPeriod 0x42C80000 = 2 ∧
    (randPeriod 0x5247FFFF = 2 ^ 32 - 256 ∧ randPeriod 0x52480000 = 2 ^ 32 - 1 ∧
      randPeriod 0x7F7FFFFF = 2 ^ 32 - 1) := by decide

/-- The clauses of `OperationsAreCorrectlyRounded`: the largest sample on both sides of the overflow
threshold, overflows of each operation and of each sign, and divisors of each sign. -/
theorem witness_rounding :
    add 0x7F7FFFFF 0x72FFFFFF = 0x7F7FFFFF ∧ add 0x7F7FFFFF 0x73000000 = 0x7F800000 ∧
    sub 0xFF7FFFFF 0x73000000 = 0xFF800000 ∧ mul 0x7F7FFFFF 0xC0000000 = 0xFF800000 ∧
    div 0x7F7FFFFF 0xBF000000 = 0xFF800000 ∧ div 0xBF800000 0xC0400000 = 0x3EAAAAAB ∧
    (value c2 > 0 ∧ value 0xBF000000 < 0) := by decide

/-- The clauses of `ClampUpperBoundWins`: bounds in order with a sample below, above, at and between
them, and bounds out of order. -/
theorem witness_clamp :
    (le c0 c1 = true ∧ lt cNeg1 c0 = true ∧ clamp cNeg1 c0 c1 = c0) ∧
    (lt c1 c2 = true ∧ clamp c2 c0 c1 = c1) ∧
    (le c0 c0_5 = true ∧ le c0_5 c1 = true ∧ clamp c0_5 c0 c1 = c0_5) ∧
    (le c0 0x80000000 = true ∧ clamp 0x80000000 c0 c1 = 0x80000000) ∧
    (lt c1 c4 = true ∧ clamp c2 c4 c1 = c1) := by decide

/-- `OperationsAreCorrectlyRounded`, `ClampUpperBoundWins`, `FloorIsExact`,
`WrappedPhaseStaysInCycle`. -/
theorem witness_arithmetic :
    (finite c1 = true ∧ finite c0_33 = true ∧ finite (add c1 c0_33) = true ∧
      finite (sub c1 c0_33) = true ∧ finite (mul c1 c0_33) = true ∧ 0 < value c0_33 ∧
      finite (div c1 c0_33) = true) ∧
    (le c0 c1 = true ∧ lt c1 c2 = true ∧ le c0 c0_5 = true ∧ le c0_5 c1 = true) := by decide

/-- The numeric properties: arguments at the ends of the intervals. -/
theorem witness_numerics :
    (le cNeg1 c0 = true ∧ finite cNeg1 = true) ∧
    (lt c0 0x00000001 = true ∧ le 0x00000001 0x3FB4F4AD = true ∧ le 0x3FB4F4AD 0x3FB4F4AD = true) ∧
    (lt c0 0x7F800000 = true ∧ le 0x00000001 0x7F800000 = true) ∧
    (finite 0xC3150000 = true ∧ le 0xC3150000 0xC3150000 = true ∧ le 0xC3150000 0xC3150001 = false) ∧
    (finite 0x43000000 = true ∧ le 0x43000000 0x43000000 = true ∧ finite 0x7F7FFFFF = true) := by decide

end Sys2Proof.Tests
end

section
/-! PROOFS of the scope family (R12, R18, R112 to R114, R234, R241): the block never halts, the clamp
and its order, the wrapped phase, and the landmarks of the morph. -/

namespace Sys2Proof.Machine

/-! ### The block never halts (R18) -/

/-- A step of a block with a packet at its port answers a next state and takes exactly that packet. -/
theorem step_takes_packet {s : State} {p : Packet} {rest : List Packet} (h : s.port = p :: rest) :
    ∃ t, step s = .next t ∧ t.port = rest := by
  rw [step_of_packet h]
  cases decodePacket p with
  | refused e => exact ⟨_, rfl, rfl⟩
  | instr i =>
    rcases exec_cases i { s with port := rest } with ⟨t, w, he, -, hport⟩ | ⟨st, -, he⟩
    · exact ⟨_, he, hport⟩
    · exact ⟨_, he, rfl⟩

theorem run_succ_of_step {s t : State} (h : step s = .next t) (n : Nat) :
    run (n + 1) s = run n t := by
  simp only [run, h]

/-- As many steps as packets empty the port, by induction on the packets. -/
theorem run_empties_port {s : State} {ps : List Packet} (h : s.port = ps) :
    ∃ t, run ps.length s = .next t ∧ t.port = [] := by
  induction ps generalizing s with
  | nil => exact ⟨s, rfl, h⟩
  | cons p rest ih =>
    obtain ⟨t, hstep, hport⟩ := step_takes_packet h
    rw [List.length_cons, run_succ_of_step hstep]
    exact ih hport

/-- Settles O8: each step takes one packet and answers a next state, so as many steps as packets
empty the port. -/
theorem blockNeverHalts : Obligations.BlockNeverHalts :=
  ⟨fun _ => step_of_idle, fun _ => run_empties_port rfl⟩

end Sys2Proof.Machine

namespace Sys2Proof.F32

/-! ### The order, `min`, `max` and the clamp (R12, R234) -/

theorem le_of_lt {a b : Sample} (h : lt a b = true) : le a b = true := by
  simp only [lt, le, Bool.and_eq_true, decide_eq_true_eq] at h ⊢
  exact ⟨h.1, h.2.le⟩

theorem not_le_of_lt {a b : Sample} (h : lt a b = true) : le b a = false := by
  simp only [lt, Bool.and_eq_true, decide_eq_true_eq] at h
  simp [le, h.2]

theorem lt_of_lt_of_le {a b c : Sample} (h1 : lt a b = true) (h2 : le b c = true) :
    lt a c = true := by
  simp only [lt, le, Bool.and_eq_true, Bool.not_eq_true', decide_eq_true_eq] at h1 h2 ⊢
  exact ⟨⟨h1.1.1, h2.1.2⟩, h1.2.trans_le h2.2⟩

theorem fmax_of_le {a b : Sample} (h : le b a = true) : fmax a b = a := by simp [fmax, h]

theorem fmax_of_lt {a b : Sample} (h : lt a b = true) : fmax a b = b := by
  simp [fmax, not_le_of_lt h]

theorem fmin_of_le {a b : Sample} (h : le a b = true) : fmin a b = a := by simp [fmin, h]

theorem fmin_of_lt {a b : Sample} (h : lt b a = true) : fmin a b = b := by
  simp [fmin, not_le_of_lt h]

theorem le_fmax_right (a : Sample) {b : Sample} (hb : isNaN b = false) :
    le b (fmax a b) = true := by
  unfold fmax
  split_ifs with h
  · exact h
  · exact le_refl hb

theorem fmin_le_right (a : Sample) {b : Sample} (hb : isNaN b = false) :
    le (fmin a b) b = true := by
  unfold fmin
  split_ifs with h
  · exact h
  · exact le_refl hb

/-- Where the bounds are out of order, the upper bound wins. -/
theorem clamp_of_reversed (x : Sample) {lo hi : Sample} (hlo : isNaN lo = false)
    (h : lt hi lo = true) : clamp x lo hi = hi :=
  fmin_of_lt (lt_of_lt_of_le h (le_fmax_right x hlo))

theorem clamp_of_lt_lo {x lo hi : Sample} (h : le lo hi = true) (hx : lt x lo = true) :
    clamp x lo hi = lo := by
  rw [clamp, fmax_of_lt hx, fmin_of_le h]

theorem clamp_of_hi_lt {x lo hi : Sample} (h : le lo hi = true) (hx : lt hi x = true) :
    clamp x lo hi = hi := by
  rw [clamp, fmax_of_le (le_trans h (le_of_lt hx)), fmin_of_lt hx]

/-- Settles O53: the order is `le_iff` and `lt_iff`, and each clause of the clamp is the branch that
`max` and then `min` take. -/
theorem clampUpperBoundWins : Obligations.ClampUpperBoundWins := by
  refine ⟨fun a b ha hb => ⟨le_iff ha hb, lt_iff ha hb⟩, fun x lo hi hx hlo hhi => ?_⟩
  refine ⟨fmin_le_right _ (isNaN_of_finite hhi), clamp_of_reversed x (isNaN_of_finite hlo),
    fun hle => ⟨?_, clamp_of_lt_lo hle, clamp_of_hi_lt hle, fun h1 h2 => ?_⟩⟩
  · exact (Bool.and_eq_true_iff.1 (within_clamp hx hlo hhi hle)).1
  · exact clamp_of_within (Bool.and_eq_true_iff.2 ⟨h1, h2⟩)

/-! ### The wrapped phase (R12, R235, R241) -/

/-- The largest magnitude of a finite sample. -/
theorem natAbs_value_le {x : Sample} (hx : finite x = true) :
    (value x).natAbs ≤ (2 ^ 24 - 1) * 2 ^ 253 := by
  have htop : magnitude (infBits - 1) = (2 ^ 24 - 1) * 2 ^ 253 := by decide
  rw [finite_iff] at hx
  rw [natAbs_value, ← htop]
  exact (magnitude_le_iff hx (by decide)).2 (by omega)

/-- The floor lies less than 1 below the sample. -/
theorem floorInt_bounds (x : Sample) :
    floorInt x * 2 ^ 149 ≤ value x ∧ value x < floorInt x * 2 ^ 149 + 2 ^ 149 := by
  unfold floorInt
  omega

/-- What `floor` does to a finite sample: the integer not above it, rounded once. -/
theorem floor_rounds {x : Sample} (hx : finite x = true) :
    Rounds (floorInt x * 2 ^ 149) 1 (floor x) := by
  have hr := (roundMag_le_inf ((floorInt x).natAbs * 2 ^ 149) 1).trans_lt infBits_lt
  rw [floor, if_pos hx]
  refine ⟨?_, fun h => ?_, fun h => ?_⟩
  · rw [magBits_pack _ hr, Int.natAbs_mul]; rfl
  · rw [signBit_pack _ hr]; simp; omega
  · rw [signBit_pack _ hr]; simp; omega

theorem finite_floor {x : Sample} (hx : finite x = true) : finite (floor x) = true := by
  have h1 := natAbs_value_le hx
  obtain ⟨h2, h3⟩ := floorInt_bounds x
  exact (floor_rounds hx).finite Nat.one_pos (by omega)

theorem value_floor_le {x : Sample} (hx : finite x = true) : value (floor x) ≤ value x := by
  have hle := (floor_rounds hx).le_of_le Nat.one_pos hx (by have := (floorInt_bounds x).1; omega)
  exact (le_iff (finite_floor hx) hx).1 hle

/-- The fractional part of a finite sample is not below 0, rounding included. -/
theorem le_c0_sub_floor {u : Sample} (hu : finite u = true) : le c0 (sub u (floor u)) = true := by
  have hf := value_floor_le hu
  refine (sub_rounds hu (finite_floor hu)).le_of_ge Nat.one_pos (by decide) ?_
  rw [value_c0]
  omega

theorem wrap1_of_lt {u : Sample} (h : lt (sub u (floor u)) c1 = true) :
    wrap1 u = sub u (floor u) := by
  simp [wrap1, not_le_of_lt h]

theorem wrap1_of_ge {u : Sample} (h : le c1 (sub u (floor u)) = true) : wrap1 u = c0 := by
  simp [wrap1, h]

/-- Settles O30: the difference is not below 0 because `floor u` is not above `u`, and one that is
not below 1 is replaced by +0.0. -/
theorem wrappedPhaseStaysInCycle : Obligations.WrappedPhaseStaysInCycle := by
  intro u hu
  have hpos := le_c0_sub_floor hu
  have hnan : isNaN (sub u (floor u)) = false := (sub_rounds hu (finite_floor hu)).isNaN
  refine ⟨wrap1_of_lt, wrap1_of_ge, ?_⟩
  cases hlt : lt (sub u (floor u)) c1 with
  | true => rw [wrap1_of_lt hlt]; exact ⟨hpos, hlt⟩
  | false =>
    rw [wrap1_of_ge ((not_lt_iff_le hnan (by decide)).1 hlt)]
    decide

/-! ### The blend at its two ends (R12, R232) -/

/-- An exact result that is the value of a finite sample is the value of the rounded result. -/
theorem Rounds.value_eq {v : Int} {d : Nat} {x c : Sample} (h : Rounds v d x) (hd : 0 < d)
    (hc : F32.finite c = true) (hv : v = value c * d) : F32.finite x = true ∧ value x = value c := by
  have hw := h.within hd hc hc hv.ge hv.le
  have hx := finite_of_within hc hc hw
  obtain ⟨h1, h2⟩ := (within_iff hc hc hx).1 hw
  exact ⟨hx, le_antisymm h2 h1⟩

theorem value_c0_mul {a : Sample} (ha : finite a = true) :
    finite (mul c0 a) = true ∧ value (mul c0 a) = 0 :=
  (mul_rounds (by decide) ha).value_eq (c := c0) (by positivity) (by decide) (by simp [value_c0])

theorem value_c1_mul {a : Sample} (ha : finite a = true) :
    finite (mul c1 a) = true ∧ value (mul c1 a) = value a :=
  (mul_rounds (by decide) ha).value_eq (by positivity) ha
    (by rw [value_c1, Int.mul_comm]; push_cast; rfl)

theorem value_lerp_c0 {a b : Sample} (ha : finite a = true) (hb : finite b = true) :
    value (lerp a b c0) = value a := by
  have hs : sub c1 c0 = c1 := by decide
  obtain ⟨f1, v1⟩ := value_c1_mul ha
  obtain ⟨f2, v2⟩ := value_c0_mul hb
  rw [lerp, hs]
  exact ((add_rounds f1 f2).value_eq Nat.one_pos ha (by rw [v1, v2]; simp)).2

theorem value_lerp_c1 {a b : Sample} (ha : finite a = true) (hb : finite b = true) :
    value (lerp a b c1) = value b := by
  have hs : sub c1 c1 = c0 := by decide
  obtain ⟨f1, v1⟩ := value_c0_mul ha
  obtain ⟨f2, v2⟩ := value_c1_mul hb
  rw [lerp, hs]
  exact ((add_rounds f1 f2).value_eq Nat.one_pos hb (by rw [v1, v2]; simp)).2

end Sys2Proof.F32

namespace Sys2Proof.Wave

open Sys2Proof.F32

/-! ### The morph, segment by segment (R113, R114) -/

theorem morph_first_segment (w : Fns) {p : Sample} (ph : Sample) (h : le p c0_33 = true) :
    morph w p ph = lerp (w.sine ph) (w.tri ph) (div p c0_33) := by
  simp [morph, h]

theorem morph_second_segment (w : Fns) {p : Sample} (ph : Sample) (h1 : le p c0_33 = false)
    (h2 : le p c0_66 = true) :
    morph w p ph = lerp (w.tri ph) (w.square ph) (div (sub p c0_33) c0_33) := by
  simp [morph, h1, h2]

theorem morph_third_segment (w : Fns) {p : Sample} (ph : Sample) (h1 : le p c0_33 = false)
    (h2 : le p c0_66 = false) :
    morph w p ph = lerp (w.square ph) (w.chaos ph) (div (sub p c0_66) c0_34) := by
  simp [morph, h1, h2]

theorem morph_at_0 (w : Fns) (ph : Sample) : morph w c0 ph = lerp (w.sine ph) (w.tri ph) c0 := by
  rw [morph_first_segment w ph (by decide), show div c0 c0_33 = c0 by decide]

theorem morph_at_033 (w : Fns) (ph : Sample) :
    morph w c0_33 ph = lerp (w.sine ph) (w.tri ph) c1 := by
  rw [morph_first_segment w ph (by decide), show div c0_33 c0_33 = c1 by decide]

theorem morph_at_066 (w : Fns) (ph : Sample) :
    morph w c0_66 ph = lerp (w.tri ph) (w.square ph) c1 := by
  rw [morph_second_segment w ph (by decide) (by decide),
    show div (sub c0_66 c0_33) c0_33 = c1 by decide]

/-- At 1 the position within the last segment rounds to the sample before 1 (R114). -/
theorem morph_at_1 (w : Fns) (ph : Sample) :
    morph w c1 ph = lerp (w.square ph) (w.chaos ph) 0x3F7FFFFF := by
  rw [morph_third_segment w ph (by decide) (by decide),
    show div (sub c1 c0_66) c0_34 = 0x3F7FFFFF by decide]

/-- Settles O28: each segment is its branch of the morph, and at a landmark the position within the
segment is 0, 1 or, at morph 1, 0x3F7FFFFF. -/
theorem morphLandmarks : Obligations.MorphLandmarks := by
  refine ⟨fun _ _ => rfl, fun w p ph => ⟨morph_first_segment w ph, morph_second_segment w ph,
    morph_third_segment w ph⟩, fun w ph hw => ?_⟩
  obtain ⟨hsine, htri, hsquare, -⟩ := hw ph
  have fsine := finite_of_inUnit hsine
  have ftri := finite_of_inUnit htri
  have fsquare := finite_of_inUnit hsquare
  refine ⟨?_, ?_, ?_, morph_at_1 w ph⟩
  · exact (congrArg value (morph_at_0 w ph)).trans (value_lerp_c0 fsine ftri)
  · exact (congrArg value (morph_at_033 w ph)).trans (value_lerp_c1 fsine ftri)
  · exact (congrArg value (morph_at_066 w ph)).trans (value_lerp_c1 ftri fsquare)

end Sys2Proof.Wave
end

section
/-! PROOFS of the state family (R24 to R41, R152, R170, R203, R237): what a command writes, the invariant
of the machine, the error flags, the rate, and the rules of the units that the invariant rests on. -/

namespace Sys2Proof.F32

/-! ### Ranges of sums and products (R232) -/

/-- Without a NaN, `b <= a` fails only where `a < b`: so `PREPARE` and `ENV.SETDECAY` test for `0 < a`. -/
theorem lt_of_not_le {a b : Sample} (ha : isNaN a = false) (hb : isNaN b = false)
    (h : le b a = false) : lt a b = true := by
  cases hlt : lt a b with
  | true => rfl
  | false => rw [(not_lt_iff_le ha hb).1 hlt] at h; exact absurd h (by decide)

/-- The range `[-m, m]` in values; `inUnit` is that of 1. -/
theorem boundedBy_iff {m x : Sample} (hm : finite m = true) :
    Machine.boundedBy m x = true ↔ finite x = true ∧ |value x| ≤ value m := by
  have hn : finite (neg m) = true := by rwa [finite_neg]
  constructor
  · intro h
    have hx := finite_of_within hn hm h
    have := (within_iff hn hm hx).1 h
    rw [value_neg] at this
    exact ⟨hx, abs_le.2 this⟩
  · rintro ⟨hx, h⟩
    rw [Machine.boundedBy, within_iff hn hm hx, value_neg]
    exact abs_le.1 h

theorem boundedBy_mono {m m' x : Sample} (hm : finite m = true) (hm' : finite m' = true)
    (hle : value m ≤ value m') (h : Machine.boundedBy m x = true) :
    Machine.boundedBy m' x = true := by
  obtain ⟨hx, hb⟩ := (boundedBy_iff hm).1 h
  exact (boundedBy_iff hm').2 ⟨hx, hb.trans hle⟩

/-- A sum of bounded samples is bounded by any sample not below the sum of the bounds. -/
theorem boundedBy_add {a b A B C : Sample} (hA : finite A = true) (hB : finite B = true)
    (hC : finite C = true) (hABC : value A + value B ≤ value C)
    (ha : Machine.boundedBy A a = true) (hb : Machine.boundedBy B b = true) :
    Machine.boundedBy C (add a b) = true := by
  obtain ⟨fa, ba⟩ := (boundedBy_iff hA).1 ha
  obtain ⟨fb, bb⟩ := (boundedBy_iff hB).1 hb
  have hsum := abs_le.1 ((abs_add_le (value a) (value b)).trans ((add_le_add ba bb).trans hABC))
  refine (add_rounds fa fb).within Nat.one_pos (by rwa [finite_neg]) hC ?_ ?_
  · rw [value_neg]; push_cast; linarith
  · push_cast; linarith

/-- A product of two samples in [-1,1] lies in [-1,1]. -/
theorem inUnit_mul {a b : Sample} (ha : inUnit a = true) (hb : inUnit b = true) :
    inUnit (mul a b) = true := by
  have fa := finite_of_inUnit ha
  have fb := finite_of_inUnit hb
  have hprod : |value a * value b| ≤ 2 ^ 149 * 2 ^ 149 := by
    rw [abs_mul]
    exact mul_le_mul ((inUnit_iff fa).1 ha) ((inUnit_iff fb).1 hb) (abs_nonneg _) (by positivity)
  obtain ⟨h1, h2⟩ := abs_le.1 hprod
  refine (mul_rounds fa fb).within (by positivity) (by decide) (by decide) ?_ ?_
  · rw [value_cNeg1]; push_cast; linarith
  · rw [value_c1]; push_cast; linarith

/-- A product of two samples in [0,1] lies between 0 and the first. -/
theorem within_mul {v c : Sample} (hv : within c0 c1 v = true) (hc : within c0 c1 c = true) :
    within c0 v (mul v c) = true := by
  have fv := finite_of_within (by decide) (by decide) hv
  have fc := finite_of_within (by decide) (by decide) hc
  obtain ⟨v0, -⟩ := (within_iff (by decide) (by decide) fv).1 hv
  obtain ⟨k0, k1⟩ := (within_iff (by decide) (by decide) fc).1 hc
  rw [value_c0] at v0 k0
  rw [value_c1] at k1
  refine (mul_rounds fv fc).within (by positivity) (by decide) fv ?_ ?_
  · rw [value_c0, zero_mul]; exact mul_nonneg v0 k0
  · push_cast; exact mul_le_mul_of_nonneg_left k1 v0

theorem within_trans {lo hi hi' x : Sample} (h : within lo hi x = true) (hle : le hi hi' = true) :
    within lo hi' x = true := by
  obtain ⟨h1, h2⟩ := Bool.and_eq_true_iff.1 h
  exact Bool.and_eq_true_iff.2 ⟨h1, le_trans h2 hle⟩

/-- The reciprocal of a finite sample above 0 is above 0: it is at least 2^-128. -/
theorem lt_c0_div_c1 {n : Sample} (hn : finite n = true) (hpos : lt c0 n = true) :
    lt c0 (div c1 n) = true := by
  have hv := Machine.value_pos_of_lt hn hpos
  have hmag := natAbs_value n
  have htop := natAbs_value_le hn
  refine lt_of_lt_of_le (b := 0x00200000#32) (by decide)
    ((div_rounds (by decide) hn hv).le_of_ge (by omega) (by decide) ?_)
  rw [value_c1, show value 0x00200000#32 = 2 ^ 21 by decide]
  omega

/-- +0.0 divided by a finite sample above 0 is +0.0 (R232). -/
theorem div_c0 {b : Sample} (hb : finite b = true) (hpos : 0 < value b) : div c0 b = c0 := by
  have hz : isZero b = false := by
    have hmag := natAbs_value b
    have hne : magBits b ≠ 0 := fun h0 => by
      rw [h0, show magnitude 0 = 0 by decide] at hmag
      omega
    simp [isZero, hne]
  have hm : magnitude (magBits b) ≠ 0 := by have := natAbs_value b; omega
  have hr : roundMag (magnitude (magBits c0) * 2 ^ 149) (magnitude (magBits b)) = 0 := by
    rw [show magnitude (magBits c0) = 0 by decide, zero_mul, roundMag_zero (by omega)]
  unfold div
  rw [isNaN_of_finite hb, isInf_of_finite hb, hz, Machine.signBit_of_value_pos hpos, hr]
  rfl

/-- The remap `2v - 1` takes [0,1] into [-1,1]. -/
theorem inUnit_bipolar {v : Sample} (hv : within c0 c1 v = true) :
    inUnit (Machine.bipolar v) = true := by
  have fv := finite_of_within (by decide) (by decide) hv
  obtain ⟨v0, v1⟩ := (within_iff (by decide) (by decide) fv).1 hv
  rw [value_c0] at v0
  rw [value_c1] at v1
  have h2 : value c2 = 2 ^ 150 := by decide
  have hw : within c0 c2 (mul c2 v) = true := by
    refine (mul_rounds (by decide) fv).within (by positivity) (by decide) (by decide) ?_ ?_
    · rw [value_c0, h2]; push_cast; linarith
    · rw [h2]; push_cast; linarith
  have fw := finite_of_within (by decide) (by decide) hw
  obtain ⟨w0, w1⟩ := (within_iff (by decide) (by decide) fw).1 hw
  rw [value_c0] at w0
  rw [h2] at w1
  refine (sub_rounds fw (by decide)).within Nat.one_pos (by decide) (by decide) ?_ ?_
  · rw [value_cNeg1, value_c1]; push_cast; linarith
  · rw [value_c1]; push_cast; linarith

end Sys2Proof.F32

namespace Sys2Proof.Wave

open Sys2Proof.F32

/-- The morph of waveforms in range lies in [-1,1]: in each segment the position lies in [0,1]
(R113, R119). -/
theorem inUnit_morph {w : Fns} (hw : w.InRange) {p : Sample} (ph : Sample)
    (hp : within c0 c1 p = true) : inUnit (morph w p ph) = true := by
  have fp := finite_of_within (by decide) (by decide) hp
  have v33 : value c0_33 = 11072963 * 2 ^ 124 := by decide
  have v66 : value c0_66 = 11072963 * 2 ^ 125 := by decide
  have v34 : value c0_34 = 11408507 * 2 ^ 124 := by decide
  obtain ⟨p0, p1⟩ := (within_iff (by decide) (by decide) fp).1 hp
  rw [value_c0] at p0
  rw [value_c1] at p1
  obtain ⟨hsine, htri, hsquare, hchaos⟩ := hw ph
  have above : ∀ {c : Sample}, finite c = true → le p c = false → value c ≤ value p := fun hc h =>
    ((lt_iff hc fp).1 (lt_of_not_le (isNaN_of_finite hc) (isNaN_of_finite fp) h)).le
  cases h1 : le p c0_33 with
  | true =>
    rw [morph_first_segment w ph h1]
    have hle := (le_iff fp (by decide)).1 h1
    exact inUnit_lerp hsine htri (div_within_one fp (by decide) p0 (by decide) hle)
  | false =>
    have hge := above (by decide) h1
    cases h2 : le p c0_66 with
    | true =>
      rw [morph_second_segment w ph h1 h2]
      have hle := (le_iff fp (by decide)).1 h2
      obtain ⟨fd, d0, d1⟩ := sub_within (m := c0_33) fp (by decide) (by decide) hge (by omega)
      exact inUnit_lerp htri hsquare (div_within_one fd (by decide) d0 (by decide) d1)
    | false =>
      rw [morph_third_segment w ph h1 h2]
      have hge2 := above (by decide) h2
      obtain ⟨fd, d0, d1⟩ := sub_within (m := c0_34) fp (by decide) (by decide) hge2 (by omega)
      exact inUnit_lerp hsquare hchaos (div_within_one fd (by decide) d0 (by decide) d1)

/-- The sample an oscillator produces at a legal morph lies in [-1,1]. -/
theorem inUnit_wave {p : Sample} (ph : Sample) (hp : within c0 c1 p = true) :
    inUnit (wave p ph) = true := inUnit_morph config_inRange ph hp

end Sys2Proof.Wave

namespace Sys2Proof.Machine

open Sys2Proof.F32

/-! ### Oscillators keep their invariant (R27) -/

theorem Osc.Inv.setFreq {fs a : Sample} {o : Osc} (h : o.Inv fs) (ha : finite a = true)
    (hinc : finite (div a fs) = true) : Osc.Inv fs { o with freq := a, inc := div a fs } :=
  { h with freq_finite := ha, inc_finite := hinc, inc_eq := rfl }

theorem Osc.Inv.setMorph {fs a : Sample} {o : Osc} (h : o.Inv fs) (ha : finite a = true) :
    Osc.Inv fs { o with morph := clamp a c0 c1 } :=
  { h with morph_range := within_clamp ha (by decide) (by decide) (by decide) }

theorem Osc.Inv.resetPhase {fs : Sample} {o : Osc} (h : o.Inv fs) :
    Osc.Inv fs { o with phase := c0 } :=
  { h with
    phase_nonneg := (by decide : le c0 c0 = true)
    phase_lt_one := (by decide : lt c0 c1 = true) }

theorem Osc.Inv.advance {fs u : Sample} {o : Osc} (h : o.Inv fs) (hu : finite u = true) (c : Bool) :
    Osc.Inv fs { o with phase := wrap1 u, cyc := c } := by
  obtain ⟨-, -, h0, h1⟩ := wrappedPhaseStaysInCycle u hu
  exact { h with phase_nonneg := h0, phase_lt_one := h1 }

/-! ### Envelopes keep their invariant (R29, R152) -/

theorem decayCoeff_range {n : Sample} (hn : finite n = true) : within c0 c1 (decayCoeff n) = true := by
  unfold decayCoeff
  split_ifs with h
  · decide
  · exact Num.pow_range (lt_c0_div_c1 hn
      (lt_of_not_le (by decide) (isNaN_of_finite hn) (Bool.eq_false_iff.2 h)))

theorem Env.Inv.setDecay {a n : Sample} {e : Env} (h : e.Inv) (ha : finite a = true)
    (hn : finite n = true) : Env.Inv { e with decay := a, coeff := decayCoeff n } :=
  { h with decay_finite := ha, coeff_range := decayCoeff_range hn }

theorem Env.Inv.trigger {a : Sample} {e : Env} (h : e.Inv) (ha : finite a = true) :
    Env.Inv { e with value := clamp a c0 c1, active := true } :=
  { h with
    value_range := within_clamp ha (by decide) (by decide) (by decide)
    idle_value := fun hc => Bool.noConfusion hc }

theorem decayed_of_snaps {e : Env} (h : snaps (mul e.value e.coeff) = true) :
    decayed e = { e with value := c0, active := false } := by simp [decayed, h]

theorem decayed_of_not_snaps {e : Env} (h : snaps (mul e.value e.coeff) = false) :
    decayed e = { e with value := mul e.value e.coeff } := by simp [decayed, h]

theorem Env.Inv.finite_value {e : Env} (h : e.Inv) : finite e.value = true :=
  finite_of_within (by decide) (by decide) h.value_range

theorem Env.Inv.product_range {e : Env} (h : e.Inv) :
    within c0 e.value (mul e.value e.coeff) = true := within_mul h.value_range h.coeff_range

/-- A product that does not snap is at least 0.0001. -/
theorem Env.Inv.le_product_of_not_snaps {e : Env} (h : e.Inv)
    (hs : snaps (mul e.value e.coeff) = false) : le c0_0001 (mul e.value e.coeff) = true :=
  (not_lt_iff_le (isNaN_of_finite (finite_of_within (by decide) h.finite_value h.product_range))
    (by decide)).1 hs

/-- The product of an idle envelope is not above 0, so it snaps. -/
theorem Env.Inv.snaps_of_idle {e : Env} (h : e.Inv) (hidle : e.active = false) :
    snaps (mul e.value e.coeff) = true := by
  cases hs : snaps (mul e.value e.coeff) with
  | true => rfl
  | false =>
    have hle := le_trans (h.le_product_of_not_snaps hs) (Bool.and_eq_true_iff.1 h.product_range).2
    rw [h.idle_value hidle] at hle
    exact absurd hle (by decide)

/-- An idle envelope stays as it is. -/
theorem Env.Inv.decayed_of_idle {e : Env} (h : e.Inv) (hidle : e.active = false) : decayed e = e := by
  rw [decayed_of_snaps (h.snaps_of_idle hidle), ← h.idle_value hidle, ← hidle]

theorem Env.Inv.decayed {e : Env} (h : e.Inv) : (decayed e).Inv := by
  cases hs : snaps (mul e.value e.coeff) with
  | true =>
    rw [decayed_of_snaps hs]
    exact { h with
      value_range := (by decide : within c0 c1 c0 = true)
      idle_value := fun _ => rfl }
  | false =>
    rw [decayed_of_not_snaps hs]
    exact { h with
      value_range := within_trans h.product_range (Bool.and_eq_true_iff.1 h.value_range).2
      idle_value := fun hidle => by rw [h.snaps_of_idle hidle] at hs; exact absurd hs (by decide) }

/-! ### The filter keeps its invariant (R30, R31) -/

theorem Vcf.Inv.setCutoff {fs a : Sample} {v : Vcf} (h : v.Inv fs) (hf : finite fs = true)
    (hp : lt c0 fs = true) (ha : finite a = true)
    (hg : legalCoeff (cutoffCoeff fs (clampCutoff fs a)) = true) :
    Vcf.Inv fs { v with cutoff := clampCutoff fs a, g := cutoffCoeff fs (clampCutoff fs a) } := by
  obtain ⟨hfin, -, hle, hge⟩ := clampCutoff_spec hf (value_pos_of_lt hf hp) ha
  exact { h with
    cutoff_finite := hfin
    cutoff_le := hle
    le_cutoff := hge
    g_range := Bool.and_eq_true_iff.1 hg
    g_eq := rfl }

theorem Vcf.Inv.setRes {fs a : Sample} {v : Vcf} (h : v.Inv fs) (ha : finite a = true) :
    Vcf.Inv fs { v with res := clamp a c0 c1, k := mul c4 (clamp a c0 c1) } :=
  { h with
    res_range := within_clamp ha (by decide) (by decide) (by decide)
    k_eq := rfl }

theorem Vcf.Inv.setMode {fs : Sample} {v : Vcf} (h : v.Inv fs) (m : FilterMode) :
    Vcf.Inv fs { v with mode := m } := { h with }

/-- The check of `VCF.PROC` says that the new stages and the output are finite. -/
theorem finite_of_filterValues {v : Vcf} {a : Sample} (h : (filterValues v a).all finite = true) :
    (∀ k, finite ((filtered v a).stage.get k) = true) ∧ finite (filterOutput v a) = true := by
  simp only [filterValues, Bank4.toList, List.cons_append, List.nil_append, List.all_cons,
    List.all_nil, Bool.and_true, Bool.and_eq_true] at h
  obtain ⟨-, h0, h1, h2, h3, hout⟩ := h
  refine ⟨fun k => ?_, hout⟩
  match k with
  | 0 => exact h0
  | 1 => exact h1
  | 2 => exact h2
  | 3 => exact h3

theorem Vcf.Inv.filtered {fs a : Sample} {v : Vcf} (h : v.Inv fs)
    (hfin : (filterValues v a).all finite = true) : (filtered v a).Inv fs :=
  { h with stage_finite := (finite_of_filterValues hfin).1 }

/-- The filter that `PREPARE` writes (R41). -/
theorem preparedVcf_inv {fs : Sample} (hf : finite fs = true) (hp : lt c0 fs = true)
    (hg : legalCoeff (cutoffCoeff fs (clampCutoff fs c0)) = true) :
    (preparedVcf (clampCutoff fs c0) (cutoffCoeff fs (clampCutoff fs c0))).Inv fs := by
  obtain ⟨hfin, -, hle, hge⟩ := clampCutoff_spec hf (value_pos_of_lt hf hp) (a := c0) (by decide)
  have hstage : ∀ k, finite ((Bank4.mk c0 c0 c0 c0).get k) = true := by decide
  have hk : c0 = mul c4 c0 := by decide
  exact ⟨hfin, hle, hge, hstage, Bool.and_eq_true_iff.1 hg, rfl, rfl, hk⟩

/-! ### The matrix keeps its invariant (R32 to R35, R193, R195, R198) -/

theorem randPeriod_pos (fs : Sample) : 0 < randPeriod fs := by
  unfold randPeriod
  simp only [Nat.min_def, Nat.max_def]
  split_ifs <;> omega

theorem randPeriod_le (fs : Sample) : randPeriod fs ≤ 2 ^ 32 - 1 := Nat.min_le_left _ _

theorem Mm.Inv.setSlot {fs a : Sample} {m : Mm} (h : m.Inv fs) (k : Fin 4) (src dst : BitVec 4)
    (ha : finite a = true) :
    Mm.Inv fs { m with slot := m.slot.set k ⟨src, dst, clamp a cNeg1 c1⟩ } :=
  { h with
    amt_range := Bank4.forall_set (P := fun x : Slot => inUnit x.amt = true) m.slot k _ h.amt_range
      (within_clamp ha (by decide) (by decide) (by decide)) }

theorem Mm.Inv.setSrcin {fs a : Sample} {m : Mm} {n : BitVec 4} {b : Srcin} (h : m.Inv fs)
    (hb : m.srcin.write n a = some b) (ha : finite a = true) : Mm.Inv fs { m with srcin := b } := by
  have hbi : inUnit (clamp a cNeg1 c1) = true :=
    within_clamp ha (by decide) (by decide) (by decide)
  have huni : within c0 c1 (clamp a c0 c1) = true :=
    within_clamp ha (by decide) (by decide) (by decide)
  unfold Srcin.write at hb
  split at hb
  case h_1 => cases hb; exact { h with lfo_range := hbi }
  case h_2 => cases hb; exact { h with env0_range := huni }
  case h_3 => cases hb; exact { h with env1_range := huni }
  case h_4 => cases hb; exact { h with env2_range := huni }
  case h_5 => cases hb; exact { h with vel_range := huni }
  case h_6 => cases hb

/-- The value of every source lies in [-1,1] (R193). -/
theorem Mm.Inv.inUnit_srcval {fs : Sample} {m : Mm} (h : m.Inv fs) (c : BitVec 4) :
    inUnit (srcval m c) = true := by
  unfold srcval
  split
  · exact h.lfo_range
  · exact inUnit_bipolar h.env0_range
  · exact inUnit_bipolar h.env1_range
  · exact inUnit_bipolar h.env2_range
  · exact inUnit_bipolar h.vel_range
  · exact h.hold_range
  · rfl

theorem Mm.Inv.inUnit_contribution {fs : Sample} {m : Mm} (h : m.Inv fs) (k : Fin 4) :
    inUnit (contribution m (m.slot.get k)) = true :=
  inUnit_mul (h.inUnit_srcval _) (h.amt_range k)

/-- A slot's turn raises the bound on a sum by 1. -/
theorem boundedBy_addSlot {fs A C sum : Sample} {m : Mm} (h : m.Inv fs) (d : BitVec 4) (k : Fin 4)
    (hA : finite A = true) (hC : finite C = true) (hAC : value A + value c1 = value C)
    (hsum : boundedBy A sum = true) : boundedBy C (addSlot m d sum (m.slot.get k)) = true := by
  unfold addSlot
  split_ifs
  · exact boundedBy_add hA (by decide) hC hAC.le hsum (h.inUnit_contribution k)
  · refine boundedBy_mono hA hC ?_ hsum
    rw [← hAC, value_c1]
    omega

/-- Four turns from +0.0 stay within [-4,4] (R198). -/
theorem Mm.Inv.slotSum_range {fs : Sample} {m : Mm} (h : m.Inv fs) (d : BitVec 4) :
    within cNeg4 c4 (slotSum m d) = true := by
  have b1 := boundedBy_addSlot h d 0 (A := c0) (C := c1) (sum := c0) (by decide) (by decide)
    (by decide) (by decide)
  have b2 := boundedBy_addSlot h d 1 (C := c2) (by decide) (by decide) (by decide) b1
  have b3 := boundedBy_addSlot h d 2 (C := 0x40400000#32) (by decide) (by decide) (by decide) b2
  exact boundedBy_addSlot h d 3 (C := c4) (by decide) (by decide) (by decide) b3

theorem inUnit_draw (n : Nat) : inUnit (draw n) = true := inUnit_restrictUnit _

/-- The counter after an evaluation that counts, as a number: it counts modulo the period. -/
theorem toNat_advanceCtr {fs : Sample} {c : BitVec 32} (hc : c.toNat < randPeriod fs) :
    (if randPeriod fs ≤ c.toNat + 1 then (0 : BitVec 32) else c + 1).toNat =
      (c.toNat + 1) % randPeriod fs := by
  have hle := randPeriod_le fs
  split_ifs with h
  · have : c.toNat + 1 = randPeriod fs := by omega
    simp [this]
  · rw [Nat.mod_eq_of_lt (by omega), BitVec.toNat_add]
    simp
    omega

theorem Mm.Inv.advanceRandom {fs : Sample} {m : Mm} (h : m.Inv fs) (n : Nat) :
    (advanceRandom fs n m).Inv fs := by
  unfold Machine.advanceRandom
  split
  · refine { h with hold_range := ?_, ctr_lt := ?_ }
    · dsimp only
      split
      · exact inUnit_draw n
      · exact h.hold_range
    · exact (toNat_advanceCtr h.ctr_lt).trans_lt (Nat.mod_lt _ (randPeriod_pos fs))
  · exact h

theorem Mm.Inv.evaluated {fs : Sample} {m : Mm} (h : m.Inv fs) (n : Nat) :
    (evaluated fs n m).Inv fs := by
  have hr := h.advanceRandom n
  refine { hr with acc_range := fun d => ?_ }
  by_cases hd : 1 ≤ d.toNat ∧ d.toNat ≤ 12
  · exact (congrArg (within cNeg4 c4) (Acc.read_ofFn _ hd.1 hd.2)).trans (hr.slotSum_range d)
  · exact (congrArg (within cNeg4 c4) (Acc.read_of_no_destination _ (by omega))).trans rfl

/-- The matrix that `PREPARE` writes (R41). -/
theorem preparedMm_inv (fs : Sample) : preparedMm.Inv fs where
  amt_range := by decide
  lfo_range := rfl
  env0_range := rfl
  env1_range := rfl
  env2_range := rfl
  vel_range := rfl
  acc_range := by decide
  hold_range := rfl
  ctr_lt := randPeriod_pos fs

/-! ### What a done reply says, through the guards of R95 -/

/-- What holds of the state and the result of a reply that is done; a refusal says nothing. -/
def Reply.Sat (P : State → Word → Prop) : Reply → Prop
  | .done t w => P t w
  | .refuse _ => True

theorem Reply.sat_refuse (P : State → Word → Prop) (st : Status) : (Reply.refuse st).Sat P := trivial

theorem Reply.Sat.mono {P Q : State → Word → Prop} {r : Reply} (h : r.Sat P)
    (hPQ : ∀ t w, P t w → Q t w) : r.Sat Q := by
  cases r with
  | done t w => exact hPQ t w h
  | refuse st => trivial

section
variable {P : State → Word → Prop}

theorem sat_whenPrepared {s : State} {r : Reply} (h : s.prepared = true → r.Sat P) :
    (whenPrepared s r).Sat P := by
  rcases whenPrepared_cases s r with ⟨hp, he⟩ | ⟨-, he⟩ <;> rw [he]
  · exact h hp
  · exact Reply.sat_refuse P _

theorem sat_needFinite {xs : List Sample} {r : Reply} (h : xs.all finite = true → r.Sat P) :
    (needFinite xs r).Sat P := by
  rcases needFinite_cases xs r with ⟨hx, he⟩ | ⟨-, he⟩ <;> rw [he]
  · exact h hx
  · exact Reply.sat_refuse P _

theorem sat_needFinite_one {x : Sample} {r : Reply} (h : finite x = true → r.Sat P) :
    (needFinite [x] r).Sat P := sat_needFinite fun hx => h (by simpa using hx)

theorem sat_withInstance {u : BitVec 2} {f : Fin 3 → Reply} (h : ∀ k, (f k).Sat P) :
    (withInstance u f).Sat P := by
  rcases withInstance_cases u f with ⟨k, -, he⟩ | ⟨-, he⟩ <;> rw [he]
  · exact h k
  · exact Reply.sat_refuse P _

theorem sat_withCutoff {fs a : Sample} {f : Sample → Sample → Reply}
    (h : legalCoeff (cutoffCoeff fs (clampCutoff fs a)) = true →
      (f (clampCutoff fs a) (cutoffCoeff fs (clampCutoff fs a))).Sat P) :
    (withCutoff fs a f).Sat P := by
  rcases withCutoff_cases fs a f with ⟨-, hg, he⟩ | ⟨-, he⟩ <;> rw [he]
  · exact h hg
  · exact Reply.sat_refuse P _

end

/-- A property of each element of a bank of three. -/
theorem Bank3.forall_of_each {α : Type} {P : α → Prop} {a b c : α} (ha : P a) (hb : P b) (hc : P c) :
    ∀ k, P ((Bank3.mk a b c).get k)
  | 0 => ha
  | 1 => hb
  | 2 => hc

/-! ### What a command writes -/

/-- A prepared block keeps the invariants of its units (R25). -/
def State.Sound (s : State) : Prop := s.prepared = true → s.PreparedInv

/-- What a command other than `PREPARE` can do when it is done (R25, R61, R65): it only reads, or, in a
prepared block, it writes one unit, to a value that meets the unit's invariant if all units met theirs. -/
inductive Effect (s : State) : State → Word → Prop
  | read {w : Word} (h : s.Sound → finite w = true) : Effect s s w
  | osc {k : Fin 3} {o : Osc} {w : Word} (hp : s.prepared = true)
      (h : s.PreparedInv → finite w = true ∧ o.Inv s.fs) : Effect s (putOsc s k o) w
  | env {k : Fin 3} {e : Env} {w : Word} (hp : s.prepared = true)
      (h : s.PreparedInv → finite w = true ∧ e.Inv) : Effect s (putEnv s k e) w
  | vcf {v : Vcf} {w : Word} (hp : s.prepared = true)
      (h : s.PreparedInv → finite w = true ∧ v.Inv s.fs) : Effect s (putVcf s v) w
  | mm {m : Mm} {n : Nat} {w : Word} (hp : s.prepared = true)
      (h : s.PreparedInv → finite w = true ∧ m.Inv s.fs) :
      Effect s { putMm s m with draws := n } w

theorem Effect.fs_prepared {s t : State} {w : Word} (h : Effect s t w) :
    t.fs = s.fs ∧ t.prepared = s.prepared := by
  cases h <;> exact ⟨rfl, rfl⟩

theorem Effect.sound {s t : State} {w : Word} (h : Effect s t w) (hs : s.Sound) :
    finite w = true ∧ t.Sound := by
  cases h with
  | read h => exact ⟨h hs, hs⟩
  | osc hp h =>
    obtain ⟨hw, ho⟩ := h (hs hp)
    exact ⟨hw, fun _ => { hs hp with osc := Bank3.forall_set s.osc _ _ (hs hp).osc ho }⟩
  | env hp h =>
    obtain ⟨hw, he⟩ := h (hs hp)
    exact ⟨hw, fun _ => { hs hp with env := Bank3.forall_set s.env _ _ (hs hp).env he }⟩
  | vcf hp h =>
    obtain ⟨hw, hv⟩ := h (hs hp)
    exact ⟨hw, fun _ => { hs hp with vcf := hv }⟩
  | mm hp h =>
    obtain ⟨hw, hm⟩ := h (hs hp)
    exact ⟨hw, fun _ => { hs hp with mm := hm }⟩

theorem finite_resultB (c : Bool) : finite (resultB c) = true := by cases c <;> decide

theorem finite_resultFlags (e : BitVec 3) : finite (resultFlags e) = true := by revert e; decide

theorem finite_zero : finite (0 : Word) = true := by decide

theorem sat_oscStep {s : State} {k : Fin 3} {einc : Sample} (hp : s.prepared = true) :
    (oscStep k einc s).Sat (Effect s) := by
  rcases oscStep_cases k einc s with ⟨-, hu, he⟩ | ⟨-, he⟩ <;> rw [he]
  · exact .osc hp fun hs => ⟨finite_of_inUnit (Wave.inUnit_wave _ (hs.osc k).morph_range),
      (hs.osc k).advance hu _⟩
  · exact Reply.sat_refuse _ _

/-- Every command other than `PREPARE` is answered by a reply that, if done, has such an effect. -/
theorem exec_sat_effect (i : Instr) (s : State) (hi : ∀ a, i ≠ .prepare a) :
    ∃ r : Reply, exec i s = answer s r ∧ r.Sat (Effect s) := by
  cases i with
  | nop => exact ⟨_, rfl, .read fun _ => finite_zero⟩
  | prepare a => exact absurd rfl (hi a)
  | rderr => exact ⟨_, rfl, .read fun _ => finite_resultFlags _⟩
  | oscSetfreq u a =>
    exact ⟨_, rfl, sat_withInstance fun k => sat_whenPrepared fun hp => sat_needFinite_one fun ha =>
      sat_needFinite_one fun hinc => .osc hp fun hs => ⟨finite_zero, (hs.osc k).setFreq ha hinc⟩⟩
  | oscSetwave u a =>
    exact ⟨_, rfl, sat_withInstance fun k => sat_whenPrepared fun hp => sat_needFinite_one fun ha =>
      .osc hp fun hs => ⟨finite_zero, (hs.osc k).setMorph ha⟩⟩
  | oscProc u => exact ⟨_, rfl, sat_withInstance fun k => sat_whenPrepared sat_oscStep⟩
  | oscProcfm u a b =>
    exact ⟨_, rfl, sat_withInstance fun k => sat_whenPrepared fun hp => sat_needFinite fun _ =>
      sat_oscStep hp⟩
  | oscProcpm u a =>
    exact ⟨_, rfl, sat_withInstance fun k => sat_whenPrepared fun hp => sat_needFinite fun _ =>
      sat_oscStep hp⟩
  | oscSync u =>
    exact ⟨_, rfl, sat_withInstance fun k => sat_whenPrepared fun hp =>
      .osc hp fun hs => ⟨finite_zero, (hs.osc k).resetPhase⟩⟩
  | oscCycle u =>
    exact ⟨_, rfl, sat_withInstance fun k => sat_whenPrepared fun _ =>
      .read fun _ => finite_resultB _⟩
  | oscSyncif u v =>
    refine ⟨_, rfl, sat_withInstance fun k => sat_withInstance fun m => sat_whenPrepared fun hp => ?_⟩
    cases hc : (s.osc.get m).cyc with
    | true => exact .osc hp fun hs => ⟨finite_resultB _, (hs.osc k).resetPhase⟩
    | false => exact .read fun _ => finite_resultB _
  | envSetdecay j a =>
    exact ⟨_, rfl, sat_withInstance fun k => sat_whenPrepared fun hp => sat_needFinite_one fun ha =>
      sat_needFinite_one fun hn => .env hp fun hs => ⟨finite_zero, (hs.env k).setDecay ha hn⟩⟩
  | envTrig j a =>
    exact ⟨_, rfl, sat_withInstance fun k => sat_whenPrepared fun hp => sat_needFinite_one fun ha =>
      .env hp fun hs => ⟨finite_zero, (hs.env k).trigger ha⟩⟩
  | envProc j =>
    exact ⟨_, rfl, sat_withInstance fun k => sat_whenPrepared fun hp =>
      .env hp fun hs => ⟨(hs.env k).finite_value, (hs.env k).decayed⟩⟩
  | envActive j =>
    exact ⟨_, rfl, sat_withInstance fun k => sat_whenPrepared fun _ =>
      .read fun _ => finite_resultB _⟩
  | vcfSetcut a =>
    exact ⟨_, rfl, sat_whenPrepared fun hp => sat_needFinite_one fun ha => sat_withCutoff fun hg =>
      .vcf hp fun hs => ⟨finite_zero, hs.vcf.setCutoff hs.fs_finite hs.fs_pos ha hg⟩⟩
  | vcfSetres a =>
    exact ⟨_, rfl, sat_whenPrepared fun hp => sat_needFinite_one fun ha =>
      .vcf hp fun hs => ⟨finite_zero, hs.vcf.setRes ha⟩⟩
  | vcfSetmode m =>
    exact ⟨_, rfl, sat_whenPrepared fun hp => .vcf hp fun hs => ⟨finite_zero, hs.vcf.setMode _⟩⟩
  | vcfProc a =>
    exact ⟨_, rfl, sat_whenPrepared fun hp => sat_needFinite_one fun _ => sat_needFinite fun hall =>
      .vcf hp fun hs => ⟨(finite_of_filterValues hall).2, hs.vcf.filtered hall⟩⟩
  | mmSetslot n x y a =>
    exact ⟨_, rfl, sat_whenPrepared fun hp => sat_needFinite_one fun ha =>
      .mm (n := s.draws) hp fun hs => ⟨finite_zero, hs.mm.setSlot _ x y ha⟩⟩
  | mmSetsrc n a =>
    refine ⟨_, rfl, ?_⟩
    cases hb : s.mm.srcin.write n a with
    | none => exact Reply.sat_refuse _ _
    | some b =>
      exact sat_whenPrepared fun hp => sat_needFinite_one fun ha =>
        .mm (n := s.draws) hp fun hs => ⟨finite_zero, hs.mm.setSrcin hb ha⟩
  | mmEval =>
    exact ⟨_, rfl, sat_whenPrepared fun hp => .mm hp fun hs => ⟨finite_zero, hs.mm.evaluated _⟩⟩
  | mmRead d =>
    exact ⟨_, rfl, sat_whenPrepared fun hp => .read fun hs =>
      finite_of_within (by decide) (by decide) ((hs hp).mm.acc_range d)⟩

/-- The oscillators that `PREPARE` writes (R41): with freq +0.0 the increment is +0.0 at every rate. -/
theorem preparedOsc_inv {fs : Sample} (hf : finite fs = true) (hp : lt c0 fs = true) :
    ∀ k, Osc.Inv fs ((Bank3.mk (Osc.mk c0 c0 c0 c0 false) (Osc.mk c0 c0 c0 c0 false)
      (Osc.mk c0 c0 c0 c0 false)).get k) := by
  have h : Osc.Inv fs (Osc.mk c0 c0 c0 c0 false) :=
    ⟨by decide, by decide, (div_c0 hf (value_pos_of_lt hf hp)).symm, by decide, by decide, by decide⟩
  exact Bank3.forall_of_each h h h

/-- The envelopes that `PREPARE` writes (R41). -/
theorem preparedEnv_inv : ∀ k, Env.Inv ((Bank3.mk (Env.mk c0 c0 c0 false) (Env.mk c0 c0 c0 false)
    (Env.mk c0 c0 c0 false)).get k) := by
  have h : Env.Inv (Env.mk c0 c0 c0 false) := ⟨by decide, by decide, by decide, fun _ => rfl⟩
  exact Bank3.forall_of_each h h h

/-- `PREPARE` is answered by a reply that, if done, leaves its operand as the rate and a prepared block
that meets the invariant. -/
theorem execPrepare_sat (a : Sample) (s : State) :
    ∃ r : Reply, exec (.prepare a) s = answer s r ∧
      r.Sat fun t w => w = 0 ∧ t.fs = a ∧ t.prepared = true ∧ t.PreparedInv := by
  refine ⟨_, rfl, sat_needFinite_one fun ha => ?_⟩
  cases hle : le a c0 with
  | true => exact Reply.sat_refuse _ _
  | false =>
    have hpos := lt_of_not_le (by decide) (isNaN_of_finite ha) hle
    rw [if_neg Bool.false_ne_true]
    refine sat_withCutoff fun hg => ?_
    exact ⟨rfl, rfl, rfl, ha, hpos, preparedOsc_inv ha hpos, preparedEnv_inv, preparedVcf_inv ha hpos hg,
      preparedMm_inv a⟩

/-! ### Every step keeps the invariant of the machine -/

theorem State.Sound.inv_respond {s : State} {w : Word} (hs : s.Sound) (hw : finite w = true) :
    (respond s w).Inv where
  status_le := Nat.zero_le _
  result_finite := hw
  result_zero := fun h => absurd rfl h
  prepared := fun hp => { hs hp with }

theorem Status.code_le (st : Status) : st.code.toNat ≤ 3 := by cases st <;> decide

theorem State.Sound.inv_raiseStatus {s : State} (hs : s.Sound) (st : Status) :
    (raiseStatus st s).Inv where
  status_le := st.code_le
  result_finite := finite_zero
  result_zero := fun _ => rfl
  prepared := fun hp => { hs hp with }

/-- A reply settles to a state that meets the invariant if, done, it leaves a sound state and a finite
result. -/
theorem State.Sound.inv_settle {s : State} {r : Reply} (hs : s.Sound)
    (hr : r.Sat fun t w => finite w = true ∧ t.Sound) : (settle s r).Inv := by
  cases r with
  | done t w => exact hr.2.inv_respond hr.1
  | refuse st => exact hs.inv_raiseStatus st

theorem State.Sound.inv_exec {i : Instr} {s t : State} (hs : s.Sound) (h : exec i s = .next t) :
    t.Inv := by
  obtain ⟨r, he, hr⟩ : ∃ r : Reply, exec i s = answer s r ∧
      r.Sat fun t w => finite w = true ∧ t.Sound := by
    by_cases hi : ∃ a, i = .prepare a
    · obtain ⟨a, rfl⟩ := hi
      obtain ⟨r, he, hr⟩ := execPrepare_sat a s
      refine ⟨r, he, hr.mono ?_⟩
      rintro t w ⟨rfl, -, -, hinv⟩
      exact ⟨finite_zero, fun _ => hinv⟩
    · obtain ⟨r, he, hr⟩ := exec_sat_effect i s fun a ha => hi ⟨a, ha⟩
      exact ⟨r, he, hr.mono fun _ _ heff => heff.sound hs⟩
  rw [he, answer_eq_next_iff] at h
  exact h ▸ hs.inv_settle hr

/-- Settles O60: an idle step changes nothing, a refused packet writes the response alone, and a command
leaves its unit within the unit's invariant (`Effect.sound`, and `execPrepare_sat` for `PREPARE`). -/
theorem stepKeepsTheInvariant : Obligations.StepKeepsTheInvariant := by
  intro s t hs hstep
  rcases step_cases s with ⟨-, he⟩ | ⟨p, rest, -, ⟨e, -, he⟩ | ⟨i, -, he⟩⟩ <;> rw [he] at hstep
  · cases hstep
    exact hs
  · cases hstep
    exact State.Sound.inv_raiseStatus (s := { s with port := rest }) (fun hp => { hs.prepared hp with }) _
  · exact State.Sound.inv_exec (s := { s with port := rest }) (fun hp => { hs.prepared hp with }) hstep

/-! ### Power-on reset and the banks (R26, R28, R32, R40) -/

/-- Settles O59: an unprepared block is asked nothing of its units. -/
theorem resetState : Obligations.ResetState :=
  ⟨rfl, rfl, rfl, rfl, by decide, finite_zero, fun _ => rfl, fun h => absurd h (by decide)⟩

theorem Bank3.get_set {α : Type} (b : Bank3 α) (k j : Fin 3) (a : α) :
    (b.set k a).get j = if j = k then a else b.get j := by
  split_ifs with h
  · rw [h, Bank3.get_set_same]
  · exact Bank3.get_set_of_ne b a h

theorem Bank4.get_set {α : Type} (b : Bank4 α) (k j : Fin 4) (a : α) :
    (b.set k a).get j = if j = k then a else b.get j := by
  split_ifs with h
  · rw [h, Bank4.get_set_same]
  · exact Bank4.get_set_of_ne b a h

/-- Settles O17: the read-after-write law of the banks. -/
theorem bankWriteReachesOneElement : Obligations.BankWriteReachesOneElement :=
  ⟨Bank3.get_set, Bank3.get_set, Bank4.get_set⟩

/-! ### The error flags are sticky (R24, R300) -/

/-- The sticky bit as the code of the status gives it. -/
theorem Status.sticky_eq (st : Status) : st.sticky =
    if st.code = 0x01 then 0b001 else if st.code = 0x02 then 0b010
      else if st.code = 0x03 then 0b100 else 0b000 := by
  cases st <;> decide

/-- A command ends with a status and sets its sticky bit. -/
theorem errflags_exec {i : Instr} {s t : State} (h : exec i s = .next t) :
    ∃ st : Status, t.rspStatus = st.code ∧ t.errflags = s.errflags ||| st.sticky := by
  rcases exec_cases i s with ⟨u, w, he, herr, -⟩ | ⟨st, -, he⟩ <;> rw [he] at h <;> cases h
  · exact ⟨.ok, rfl, by simp [herr, Status.sticky]⟩
  · exact ⟨st, rfl, rfl⟩

/-- A step that takes a packet ends with a status and sets its sticky bit. -/
theorem errflags_step {s t : State} {p : Packet} {rest : List Packet} (hport : s.port = p :: rest)
    (h : step s = .next t) :
    ∃ st : Status, t.rspStatus = st.code ∧ t.errflags = s.errflags ||| st.sticky := by
  rw [step_of_packet hport] at h
  cases hd : decodePacket p with
  | instr i =>
    rw [hd] at h
    exact errflags_exec (s := { s with port := rest }) h
  | refused e =>
    rw [hd] at h
    cases h
    exact ⟨.illegal, rfl, rfl⟩

theorem nothingRefused_of_step {s t : State} (h : step s = .next t) (ht : t.NothingRefused) :
    s.NothingRefused := by
  cases hport : s.port with
  | nil =>
    rw [step_of_idle hport] at h
    cases h
    exact ht
  | cons p rest =>
    obtain ⟨st, -, herr⟩ := errflags_step hport h
    exact (BitVec.or_eq_zero_iff.1 (herr.symm.trans ht)).1

theorem run_succ_eq_next {n : Nat} {s t : State} (h : run (n + 1) s = .next t) :
    ∃ u, step s = .next u ∧ run n u = .next t := by
  cases hstep : step s with
  | next u => exact ⟨u, rfl, by rwa [run_succ_of_step hstep] at h⟩
  | fault f => cases f
  | refused r => simp [run, hstep] at h

theorem nothingRefused_of_run {n : Nat} {s t : State} (h : run n s = .next t)
    (ht : t.NothingRefused) : s.NothingRefused := by
  induction n generalizing s with
  | zero => cases h; exact ht
  | succ n ih =>
    obtain ⟨u, hstep, hrun⟩ := run_succ_eq_next h
    exact nothingRefused_of_step hstep (ih hrun)

/-- Settles O11: a step adds the sticky bit of its status to the flags, so flags that are clear after a
run were clear before each of its steps. -/
theorem errorFlagsAreSticky : Obligations.ErrorFlagsAreSticky := by
  refine ⟨rfl, fun s => ⟨_, rfl, rfl⟩, fun s t p rest hport h => ?_,
    fun m n s u t _ hrun => nothingRefused_of_run hrun⟩
  obtain ⟨st, hst, herr⟩ := errflags_step hport h
  rw [herr, hst, st.sticky_eq]

/-! ### Only `PREPARE` changes the rate (R25, R335) -/

/-- The state that a command answers has its response written over what a done reply satisfies, or over the
state before it. -/
theorem exec_sat_or_refused {i : Instr} {s t : State} {r : Reply} {P : State → Word → Prop}
    (he : exec i s = answer s r) (hr : r.Sat P) (h : exec i s = .next t) :
    (∃ u w, P u w ∧ t = respond u w) ∨ ∃ st, t = raiseStatus st s := by
  rw [he, answer_eq_next_iff] at h
  cases r with
  | done u w => exact .inl ⟨u, w, hr, h.symm⟩
  | refuse st => exact .inr ⟨st, h.symm⟩

/-- Settles O12: a refused command and, by `Effect.fs_prepared`, every command but `PREPARE` keep both;
a `PREPARE` that is done leaves them as `execPrepare_sat` says. -/
theorem onlyPrepareChangesTheRate : Obligations.OnlyPrepareChangesTheRate := by
  intro i s t h hchange
  by_cases hi : ∃ a, i = .prepare a
  · obtain ⟨a, rfl⟩ := hi
    obtain ⟨r, he, hr⟩ := execPrepare_sat a s
    rcases exec_sat_or_refused he hr h with ⟨u, w, ⟨-, hfs, hp, hinv⟩, rfl⟩ | ⟨st, rfl⟩
    · exact ⟨a, rfl, hfs, hp, rfl, hfs ▸ hinv.fs_finite, hfs ▸ hinv.fs_pos⟩
    · exact absurd hchange (by simp)
  · obtain ⟨r, he, hr⟩ := exec_sat_effect i s fun a ha => hi ⟨a, ha⟩
    rcases exec_sat_or_refused he hr h with ⟨u, w, heff, rfl⟩ | ⟨st, rfl⟩
    · exact absurd hchange (by simp [heff.fs_prepared])
    · exact absurd hchange (by simp)

/-! ### A process command of an envelope (R29, R152) -/

theorem exec_envProc {j : BitVec 2} {k : Fin 3} {s : State} (hj : j.toNat = k.val)
    (hp : s.prepared = true) :
    exec (.envProc j) s =
      .next (respond (putEnv s k (decayed (s.env.get k))) (s.env.get k).value) := by
  change answer s (withInstance j _) = _
  rw [withInstance_some ((instanceOf_eq_some_iff j k).2 hj), whenPrepared_of_prepared hp, answer_eq,
    settle_done]

/-- A decayed envelope is at 0 or at 0.0001 and above, and not above its old value (R29 (b)). -/
theorem Env.Inv.decayed_value {e : Env} (h : e.Inv) :
    ((Machine.decayed e).value = c0 ∨ le c0_0001 (Machine.decayed e).value = true) ∧
      le (Machine.decayed e).value e.value = true := by
  cases hs : snaps (mul e.value e.coeff) with
  | true =>
    rw [decayed_of_snaps hs]
    exact ⟨.inl rfl, (Bool.and_eq_true_iff.1 h.value_range).1⟩
  | false =>
    rw [decayed_of_not_snaps hs]
    exact ⟨.inr (h.le_product_of_not_snaps hs), (Bool.and_eq_true_iff.1 h.product_range).2⟩

/-- A decay never sets the activity flag. -/
theorem active_of_decayed {e : Env} (h : (decayed e).active = true) : e.active = true := by
  cases hs : snaps (mul e.value e.coeff) with
  | true => rw [decayed_of_snaps hs] at h; exact absurd h Bool.false_ne_true
  | false => rwa [decayed_of_not_snaps hs] at h

/-- Settles O36: what `decayed` does to an envelope that meets its invariant. -/
theorem envelopeNeverGrows : Obligations.EnvelopeNeverGrows := by
  intro j k s hj hp hinv
  refine ⟨_, exec_envProc hj hp, ?_⟩
  simp only [respond_env, putEnv_env, Bank3.get_set_same, respond_rspResult]
  obtain ⟨hfloor, hle⟩ := hinv.decayed_value
  exact ⟨hfloor, hle, active_of_decayed, fun hidle =>
    ⟨hinv.idle_value hidle, hinv.decayed_of_idle hidle⟩⟩

/-! ### The cutoff and its coefficient, written or refused (R41, R170, R221) -/

theorem needFinite_of_not {x : Sample} (h : finite x = false) (body : Reply) :
    needFinite [x] body = .refuse .badOperand := by simp [needFinite_cons, h]

theorem withCutoff_of_legal {fs a : Sample} (hx : finite (tanArgument fs (clampCutoff fs a)) = true)
    (hg : legalCoeff (cutoffCoeff fs (clampCutoff fs a)) = true) (body : Sample → Sample → Reply) :
    withCutoff fs a body = body (clampCutoff fs a) (cutoffCoeff fs (clampCutoff fs a)) := by
  simp [withCutoff, hx, hg]

theorem withCutoff_of_not {fs a : Sample}
    (h : finite (tanArgument fs (clampCutoff fs a)) = false ∨
      legalCoeff (cutoffCoeff fs (clampCutoff fs a)) = false) (body : Sample → Sample → Reply) :
    withCutoff fs a body = .refuse .badOperand := by
  rcases withCutoff_cases fs a body with ⟨hx, hg, -⟩ | ⟨-, he⟩
  · simp [hx, hg] at h
  · exact he

theorem legalCoeff_eq_false_iff (g : Sample) :
    legalCoeff g = false ↔ le c0 g = false ∨ lt g c1 = false := Bool.and_eq_false_iff

theorem exec_vcfSetcut_done {a : Sample} {s : State} (hp : s.prepared = true)
    (ha : finite a = true) (hx : finite (tanArgument s.fs (clampCutoff s.fs a)) = true)
    (hg : legalCoeff (cutoffCoeff s.fs (clampCutoff s.fs a)) = true) :
    exec (.vcfSetcut a) s = .next (respond (putVcf s { s.vcf with
      cutoff := clampCutoff s.fs a
      g := cutoffCoeff s.fs (clampCutoff s.fs a) }) 0) := by
  change answer s (whenPrepared s (needFinite [a] (withCutoff s.fs a _))) = _
  rw [whenPrepared_of_prepared hp, needFinite_one ha, withCutoff_of_legal hx hg, answer_eq,
    settle_done]

theorem exec_vcfSetcut_refused {a : Sample} {s : State} (hp : s.prepared = true)
    (h : finite a = false ∨ finite (tanArgument s.fs (clampCutoff s.fs a)) = false ∨
      legalCoeff (cutoffCoeff s.fs (clampCutoff s.fs a)) = false) :
    exec (.vcfSetcut a) s = .next (raiseStatus .badOperand s) := by
  change answer s (whenPrepared s (needFinite [a] (withCutoff s.fs a _))) = _
  rw [whenPrepared_of_prepared hp]
  cases ha : finite a with
  | false => rw [needFinite_of_not ha, answer_eq, settle_refuse]
  | true =>
    rw [needFinite_one ha, withCutoff_of_not (h.resolve_left (by simp [ha])), answer_eq,
      settle_refuse]

/-- Settles O37: `withCutoff` gives its body or refuses. -/
theorem vcfSetcutWritesTheCoefficient : Obligations.VcfSetcutWritesTheCoefficient := by
  intro a s hp
  refine ⟨rfl, fun ha hx h0 h1 => exec_vcfSetcut_done hp ha hx (Bool.and_eq_true_iff.2 ⟨h0, h1⟩),
    fun h => exec_vcfSetcut_refused hp ?_⟩
  rwa [legalCoeff_eq_false_iff]

theorem exec_prepare_done {a : Sample} (s : State) (ha : finite a = true) (hpos : lt c0 a = true)
    (hx : finite (tanArgument a (clampCutoff a c0)) = true)
    (hg : legalCoeff (cutoffCoeff a (clampCutoff a c0)) = true) :
    exec (.prepare a) s = .next (respond
      (preparedState s a (clampCutoff a c0) (cutoffCoeff a (clampCutoff a c0))) 0) := by
  change answer s (needFinite [a] (if le a c0 = true then _ else withCutoff a c0 _)) = _
  rw [needFinite_one ha, if_neg (Bool.eq_false_iff.1 (not_le_of_lt hpos)),
    withCutoff_of_legal hx hg, answer_eq, settle_done]

theorem exec_prepare_refused {a : Sample} (s : State)
    (h : finite a = false ∨ le a c0 = true ∨ finite (tanArgument a (clampCutoff a c0)) = false ∨
      legalCoeff (cutoffCoeff a (clampCutoff a c0)) = false) :
    exec (.prepare a) s = .next (raiseStatus .badOperand s) := by
  change answer s (needFinite [a] (if le a c0 = true then _ else withCutoff a c0 _)) = _
  cases ha : finite a with
  | false => rw [needFinite_of_not ha, answer_eq, settle_refuse]
  | true =>
    rw [needFinite_one ha]
    split_ifs with hle
    · rfl
    · rw [withCutoff_of_not ((h.resolve_left (by simp [ha])).resolve_left hle), answer_eq,
        settle_refuse]

/-- A cutoff request of 0 is clamped to at most 20. -/
theorem le_clampCutoff_c0 {fs : Sample} (hf : finite fs = true) (hp : 0 < value fs) :
    le (clampCutoff fs c0) c20 = true := by
  have hhi := (upperCutoff hf hp).1
  have hmax : fmax c0 c20 = c20 := by decide
  unfold clampCutoff clamp
  rw [hmax]
  unfold fmin
  split_ifs with h
  · decide
  · exact (F32.le_total (by decide) (isNaN_of_finite hhi)).resolve_left h

/-- The product of a clamped cutoff request of 0 with `PI` is at most 64. -/
theorem finite_cPi_mul_clampCutoff_c0 {fs : Sample} (hf : finite fs = true) (hp : 0 < value fs) :
    finite (mul cPi (clampCutoff fs c0)) = true := by
  obtain ⟨hfc, hsign, -, -⟩ := clampCutoff_spec hf hp (a := c0) (by decide)
  have hle := (le_iff hfc (by decide)).1 (le_clampCutoff_c0 hf hp)
  have hnonneg := value_nonneg_of_signBit hsign
  have hr := mul_rounds (a := cPi) (by decide) hfc
  rw [value_cPi] at hr
  rw [show value c20 = 5 * 2 ^ 151 by decide] at hle
  refine finite_of_within (lo := c0) (hi := 0x42800000#32) (by decide) (by decide)
    (hr.within (by positivity) (by decide) (by decide) ?_ ?_)
  · rw [value_c0, zero_mul]; positivity
  · rw [show value 0x42800000#32 = 2 ^ 155 by decide]; push_cast; linarith

/-- At a rate that is not subnormal, and where the product with `PI` is finite, the tangent's argument of
a clamped request lies in the interval of R237 and the coefficient is legal (R30; log entry 7). -/
theorem cutoff_of_normal {fs a : Sample} (hf : finite fs = true) (hn : le minNormal fs = true)
    (ha : finite a = true) (hpi : finite (mul cPi (clampCutoff fs a)) = true) :
    signBit (tanArgument fs (clampCutoff fs a)) = false ∧
      magBits (tanArgument fs (clampCutoff fs a)) ≤ Num.tanTop ∧
      legalCoeff (cutoffCoeff fs (clampCutoff fs a)) = true := by
  obtain ⟨hfc, hsign, hle, -⟩ := clampCutoff_spec hf (value_pos_of_normal hf hn) ha
  obtain ⟨hs, hm⟩ := tanArgument_le hf hn hfc hsign hle hpi
  exact ⟨hs, hm, cutoffCoeff_legal hf hn hfc hsign hle hpi⟩

/-- Settles O19: a cutoff of 0 is legal at every rate that is not subnormal, and `withCutoff` gives its
body or refuses. -/
theorem prepareInitialisesEveryElement : Obligations.PrepareInitialisesEveryElement := by
  intro a s
  refine ⟨rfl, fun ha hn => ?_, fun ha hpos hx h0 h1 => ?_, fun h => exec_prepare_refused s ?_⟩
  · obtain ⟨-, hm, hg⟩ := cutoff_of_normal (a := c0) ha hn (by decide)
      (finite_cPi_mul_clampCutoff_c0 ha (value_pos_of_normal ha hn))
    exact ⟨(finite_iff _).2 (hm.trans_lt (by decide)), Bool.and_eq_true_iff.1 hg⟩
  · exact exec_prepare_done s ha hpos hx (Bool.and_eq_true_iff.2 ⟨h0, h1⟩)
  · rwa [legalCoeff_eq_false_iff]

end Sys2Proof.Machine

namespace Sys2Proof.Num

open Sys2Proof.F32

/-! ### The tangent on its interval (R237) -/

/-- The magnitude bits of `NUM.tan` on its interval: 0 at 0, and above 0 after it. -/
def tanMag (m : Nat) : Nat := if m = 0 then 0 else 1 + min (tanMost - 1) (Config.tanRise m)

theorem tanMag_le (m : Nat) : tanMag m ≤ tanMost := by
  have h1 : 1 ≤ tanMost := by decide
  unfold tanMag
  split_ifs <;> omega

theorem tanMag_pos {m : Nat} (h : m ≠ 0) : 0 < tanMag m := by
  rw [tanMag, if_neg h]
  omega

theorem tanMag_mono {m n : Nat} (h : m ≤ n) : tanMag m ≤ tanMag n := by
  have hrise := Config.tanRise.monotone h
  unfold tanMag
  split_ifs <;> omega

/-- On its interval, both zeros included, the tangent has these magnitude bits and is not below 0. -/
theorem tan_eq_tanMag {x : Sample} (hs : signBit x = false ∨ magBits x = 0)
    (hx : magBits x ≤ tanTop) :
    magBits (tan x) = tanMag (magBits x) ∧ key (tan x) = tanMag (magBits x) := by
  by_cases h0 : magBits x = 0
  · have ht : tan x = x := if_pos (decide_eq_true h0)
    simp [ht, tanMag, key, h0]
  · have hsign := hs.resolve_right h0
    have ht : tan x = pack false (tanMag (magBits x)) := by
      simp [tan, isZero, tanMag, h0, hsign, hx]
    have hlt : tanMag (magBits x) < 2 ^ 31 := (tanMag_le _).trans_lt (by decide)
    rw [ht, key, signBit_pack _ hlt, magBits_pack _ hlt]
    simp

theorem isNaN_tan {x : Sample} (hs : signBit x = false ∨ magBits x = 0) (hx : magBits x ≤ tanTop) :
    isNaN (tan x) = false := by
  have hle := (tanMag_le (magBits x)).trans (show tanMost ≤ infBits by decide)
  simp [isNaN, (tan_eq_tanMag hs hx).1, hle]

/-- The samples from 0 to the last argument of the interval. -/
theorem interval_of_le {x : Sample} (h0 : le c0 x = true) (h1 : le x 0x3FB4F4AD#32 = true) :
    (signBit x = false ∨ magBits x = 0) ∧ magBits x ≤ tanTop := by
  simp only [le, Bool.and_eq_true, decide_eq_true_eq, show key c0 = 0 by decide,
    show key 0x3FB4F4AD#32 = tanTop by decide] at h0 h1
  have hk0 := h0.2
  have hk1 := h1.2
  unfold key at hk0 hk1
  cases hs : signBit x with
  | false => simp [hs] at hk1; exact ⟨.inl rfl, hk1⟩
  | true => simp [hs] at hk0; exact ⟨.inr hk0, by omega⟩

theorem le_of_interval {x : Sample} (hs : signBit x = false) (hx : magBits x ≤ tanTop) :
    le c0 x = true ∧ le x 0x3FB4F4AD#32 = true := by
  have hnan : isNaN x = false := by
    have := hx.trans (show tanTop ≤ infBits by decide)
    simpa [isNaN] using this
  have hk : key x = magBits x := by simp [key, hs]
  constructor
  · simp [le, hnan, hk, show isNaN c0 = false by decide, show key c0 = 0 by decide]
  · simp [le, hnan, hk, hx, show isNaN 0x3FB4F4AD#32 = false by decide,
      show key 0x3FB4F4AD#32 = tanTop by decide]

theorem magBits_ne_zero_of_lt {x : Sample} (h : lt c0 x = true) : magBits x ≠ 0 := by
  intro h0
  have hk : key x = 0 := by simp [key, h0]
  simp [lt, hk, show key c0 = 0 by decide] at h

/-- Where neither is below 0, the order is that of the magnitude bits. -/
theorem magBits_le_of_le {x y : Sample} (hx : signBit x = false ∨ magBits x = 0)
    (hy : signBit y = false ∨ magBits y = 0) (h : le x y = true) : magBits x ≤ magBits y := by
  have hkey : ∀ {z : Sample}, (signBit z = false ∨ magBits z = 0) → key z = magBits z := by
    rintro z (h0 | h0) <;> simp [key, h0]
  simp only [le, Bool.and_eq_true, decide_eq_true_eq, hkey hx, hkey hy] at h
  exact_mod_cast h.2

/-- Settles O56: on the interval the tangent is `tanMag` of the magnitude bits. -/
theorem tangentProperties : Obligations.TangentProperties := by
  refine ⟨tan_zero, fun x h0 h1 => ?_, fun x y h0 hxy h1 => ?_⟩
  · obtain ⟨hs, hx⟩ := interval_of_le (le_of_lt h0) h1
    obtain ⟨hmag, hkey⟩ := tan_eq_tanMag hs hx
    have hpos := tanMag_pos (magBits_ne_zero_of_lt h0)
    have hmost := tanMag_le (magBits x)
    refine ⟨?_, ?_, ?_⟩
    · rw [finite_iff, hmag]
      exact hmost.trans_lt (by decide)
    · simp [lt, isNaN_tan hs hx, hkey, show isNaN c0 = false by decide, show key c0 = 0 by decide, hpos]
    · simp [le, isNaN_tan hs hx, hkey, show isNaN 0x4B7FFFFF#32 = false by decide,
        show key 0x4B7FFFFF#32 = tanMost by decide, hmost]
  · obtain ⟨hsx, hx⟩ := interval_of_le h0 (le_trans hxy h1)
    obtain ⟨hsy, hy⟩ := interval_of_le (le_trans h0 hxy) h1
    have hmono := tanMag_mono (magBits_le_of_le hsx hsy hxy)
    simp [le, isNaN_tan hsx hx, isNaN_tan hsy hy, (tan_eq_tanMag hsx hx).2, (tan_eq_tanMag hsy hy).2,
      hmono]

end Sys2Proof.Num

namespace Sys2Proof.Machine

open Sys2Proof.F32

/-- Settles O41: `cutoff_of_normal`, the interval read in the order of the samples. -/
theorem tangentArgumentStaysInItsInterval : Obligations.TangentArgumentStaysInItsInterval := by
  refine ⟨by decide, fun fs a hf hn ha hpi => ?_⟩
  obtain ⟨hs, hm, hg⟩ := cutoff_of_normal hf hn ha hpi
  obtain ⟨h0, h1⟩ := Num.le_of_interval hs hm
  obtain ⟨hg0, hg1⟩ := Bool.and_eq_true_iff.1 hg
  exact ⟨h0, h1, hg0, hg1⟩

/-! ### The random source (R35, R195, R203) -/

/-- Every natural number below 2^24 is the value of a sample. -/
theorem rep_natCast {n : Nat} (h : n < 2 ^ 24) : Rep (n * 2 ^ 149) := by
  rcases Nat.eq_zero_or_pos n with rfl | hpos
  · simpa using rep_zero
  have hlow := Nat.log2_self_le hpos.ne'
  have hhigh : n < 2 ^ (n.log2 + 1) := Nat.lt_log2_self
  have hlog : n.log2 < 24 := (Nat.log2_lt hpos.ne').2 h
  obtain ⟨k, hk⟩ : ∃ k, n.log2 + k = 23 := ⟨23 - n.log2, by omega⟩
  have hq1 : 2 ^ 23 ≤ n * 2 ^ k := by
    rw [← hk, Nat.pow_add]; exact Nat.mul_le_mul_right _ hlow
  have hq2 : n * 2 ^ k < 2 ^ 24 := by
    rw [show 24 = n.log2 + 1 + k by omega, Nat.pow_add]
    exact Nat.mul_lt_mul_of_pos_right hhigh (by positivity)
  obtain ⟨e, he⟩ : ∃ e, e + k = 149 := ⟨149 - k, by omega⟩
  have hm : e * 2 ^ 23 + n * 2 ^ k < infBits := by unfold infBits; omega
  refine ⟨pack false (e * 2 ^ 23 + n * 2 ^ k), ?_, ?_⟩
  · rw [finite_pack _ (hm.trans infBits_lt), decide_eq_true hm]
  · rw [value_pack_false (hm.trans infBits_lt), magnitude_scaled hq2.le (.inr hq1), ← he, pow_add]
    push_cast
    ring

/-- The floor of a finite sample is the value of a sample: from 2^23 on the sample is an integer itself,
and below it the floor is a small integer. -/
theorem rep_floorInt {x : Sample} (hx : finite x = true) : Rep (floorInt x * 2 ^ 149) := by
  obtain ⟨h1, h2⟩ := floorInt_bounds x
  by_cases hbig : 2 ^ 23 * 2 ^ 149 ≤ magnitude (magBits x)
  · have hdvd : (2 : Int) ^ 149 ∣ value x := by
      rw [← Int.dvd_natAbs, natAbs_value]
      exact_mod_cast dvd_magnitude hbig
    have : floorInt x * 2 ^ 149 = value x := Int.ediv_mul_cancel hdvd
    exact this ▸ rep_value hx
  · rw [← natAbs_value] at hbig
    have hsmall : (floorInt x).natAbs < 2 ^ 24 := by omega
    rcases Int.natAbs_eq (floorInt x) with h | h <;> rw [h]
    · exact rep_natCast hsmall
    · rw [neg_mul]; exact (rep_natCast hsmall).neg

/-- `floor` is exact (R235). -/
theorem value_floor {x : Sample} (hx : finite x = true) : value (floor x) = floorInt x * 2 ^ 149 := by
  obtain ⟨c, hc, hv⟩ := rep_floorInt hx
  rw [((floor_rounds hx).value_eq Nat.one_pos hc (by rw [hv]; simp)).2, hv]

/-- The rate over 50 is finite. -/
theorem finite_div_c50 {fs : Sample} (hf : finite fs = true) (hpos : lt c0 fs = true) :
    finite (div fs c50) = true := by
  have hv := value_pos_of_lt hf hpos
  have h50 : value c50 = 50 * 2 ^ 149 := by decide
  have hmag : magnitude (magBits c50) = 50 * 2 ^ 149 := by decide
  refine finite_of_within (lo := c0) (hi := fs) (by decide) hf
    ((div_rounds hf (by decide) (by decide)).within (by decide) (by decide) hf ?_ ?_)
  · rw [value_c0, zero_mul]; positivity
  · rw [hmag]; push_cast; linarith

theorem randPeriod_eq {fs : Sample} (hf : finite fs = true) (hpos : lt c0 fs = true) :
    randPeriod fs = min (2 ^ 32 - 1) (max 1 (value (floor (div fs c50)) / 2 ^ 149).toNat) := by
  rw [value_floor (finite_div_c50 hf hpos), Int.mul_ediv_cancel _ (by positivity)]
  rfl

theorem Bank4.any_toList_of_get {α : Type} {p : α → Bool} (b : Bank4 α) {k : Fin 4}
    (h : p (b.get k) = true) : b.toList.any p = true := by
  refine List.any_eq_true.2 ⟨b.get k, ?_, h⟩
  match k with
  | 0 => simp [Bank4.toList, Bank4.get]
  | 1 => simp [Bank4.toList, Bank4.get]
  | 2 => simp [Bank4.toList, Bank4.get]
  | 3 => simp [Bank4.toList, Bank4.get]

/-- The state that `MM.EVAL` computes (R195). -/
def evalState (s : State) : State :=
  { s with
    mm := evaluated s.fs s.draws s.mm
    draws := if drawsNow s.mm then s.draws + 1 else s.draws }

theorem exec_mmEval {s : State} (hp : s.prepared = true) :
    exec .mmEval s = .next (respond (evalState s) 0) := by
  change answer s (whenPrepared s (.done (evalState s) 0)) = _
  rw [whenPrepared_of_prepared hp, answer_eq, settle_done]

/-- What an evaluation does to the slots and the random source, with an active RANDOM slot (R195). -/
theorem evaluated_random {m : Mm} (fs : Sample) (n : Nat) (h : m.slot.toList.any Slot.usesRandom = true) :
    (evaluated fs n m).slot = m.slot ∧
      (evaluated fs n m).randHold = (if m.randCtr = 0 then draw n else m.randHold) ∧
      (evaluated fs n m).randCtr =
        (if randPeriod fs ≤ m.randCtr.toNat + 1 then 0 else m.randCtr + 1) := by
  simp [evaluated, advanceRandom, h]

/-- `s` is the state after `j` evaluations from `s0`, as far as the random source goes: counter and draws
follow `j` by the period, and the hold is the last value drawn. -/
structure AfterEvals (s0 : State) (j : Nat) (s : State) : Prop where
  prepared : s.prepared = true
  fs : s.fs = s0.fs
  usesRandom : s.mm.slot.toList.any Slot.usesRandom = true
  ctr : s.mm.randCtr.toNat = j % randPeriod s0.fs
  draws : s.draws = s0.draws + (j + randPeriod s0.fs - 1) / randPeriod s0.fs
  hold : 0 < j → s.mm.randHold = draw (s.draws - 1)

/-- The number of multiples of `p` below `j + 1`, from that below `j`: both are quotients rounded up. -/
theorem ceil_succ {p j : Nat} (hp : 0 < p) :
    (j + 1 + p - 1) / p = (j + p - 1) / p + if j % p = 0 then 1 else 0 := by
  have hdvd : p ∣ j + p - 1 + 1 ↔ j % p = 0 := by
    rw [show j + p - 1 + 1 = j + p by omega, Nat.dvd_add_self_right, Nat.dvd_iff_mod_eq_zero]
  rw [show j + 1 + p - 1 = j + p - 1 + 1 by omega, Nat.succ_div]
  simp only [hdvd]

/-- One more evaluation: at counter 0 it draws, and the counter goes on modulo the period. -/
theorem AfterEvals.evaluate {s0 s : State} {j : Nat} (h : AfterEvals s0 j s) :
    AfterEvals s0 (j + 1) (respond (evalState s) 0) := by
  have hpos := randPeriod_pos s0.fs
  have hctr : s.mm.randCtr = 0 ↔ j % randPeriod s0.fs = 0 := by
    rw [← h.ctr, ← BitVec.toNat_inj]
    rfl
  have hdraws : (evalState s).draws = if s.mm.randCtr = 0 then s.draws + 1 else s.draws := by
    simp [evalState, drawsNow, h.usesRandom]
  obtain ⟨hslot, hhold, hnext⟩ := evaluated_random s.fs s.draws h.usesRandom
  refine ⟨h.prepared, h.fs, ?_, ?_, ?_, fun _ => ?_⟩
  · exact (congrArg (fun b : Bank4 Slot => b.toList.any Slot.usesRandom) hslot).trans h.usesRandom
  · have hlt : s.mm.randCtr.toNat < randPeriod s.fs := by
      rw [h.ctr, h.fs]
      exact Nat.mod_lt _ hpos
    calc (evaluated s.fs s.draws s.mm).randCtr.toNat
        = (s.mm.randCtr.toNat + 1) % randPeriod s.fs := by rw [hnext, toNat_advanceCtr hlt]
      _ = (j + 1) % randPeriod s0.fs := by rw [h.ctr, h.fs, Nat.mod_add_mod]
  · rw [respond_draws, hdraws, h.draws, ceil_succ hpos]
    simp only [hctr]
    split_ifs <;> rfl
  · rw [respond_draws, hdraws]
    refine hhold.trans ?_
    split_ifs with h0
    · rfl
    · refine h.hold (Nat.pos_of_ne_zero ?_)
      rintro rfl
      exact h0 (hctr.2 (Nat.zero_mod _))

theorem AfterEvals.step {s0 s : State} {j : Nat} {rest : List Packet} (h : AfterEvals s0 j s)
    (hport : s.port = encode .mmEval :: rest) :
    ∃ t, step s = .next t ∧ t.port = rest ∧ AfterEvals s0 (j + 1) t := by
  have hd : decodePacket (encode .mmEval) = .instr .mmEval := by decide
  have hs : AfterEvals s0 j { s with port := rest } := { h with }
  refine ⟨_, ?_, rfl, hs.evaluate⟩
  rw [step_of_packet hport, hd]
  exact exec_mmEval hs.prepared

/-- A run of evaluations, by induction on the packets. -/
theorem AfterEvals.run {s0 : State} {n j : Nat} {s : State} (h : AfterEvals s0 j s)
    (hport : s.port = List.replicate n (encode .mmEval)) :
    ∃ t, run n s = .next t ∧ AfterEvals s0 (j + n) t := by
  induction n generalizing j s with
  | zero => exact ⟨s, rfl, h⟩
  | succ n ih =>
    obtain ⟨u, hstep, hrest, hu⟩ := h.step hport
    obtain ⟨t, hrun, ht⟩ := ih hu hrest
    exact ⟨t, (run_succ_of_step hstep n).trans hrun, by rwa [Nat.add_assoc, Nat.add_comm 1 n] at ht⟩

/-- Settles O50: `floor` is exact, and a run of evaluations counts and draws by the period. -/
theorem randomHoldIsRedrawnEveryPeriod : Obligations.RandomHoldIsRedrawnEveryPeriod := by
  refine ⟨fun fs hf hpos => randPeriod_eq hf hpos, fun n s hp hctr huses hport => ?_⟩
  obtain ⟨k, hk⟩ := huses
  have hpos := randPeriod_pos s.fs
  have hstart : AfterEvals s 0 s :=
    ⟨hp, rfl, Bank4.any_toList_of_get s.mm.slot hk, by simp [hctr],
      by rw [Nat.div_eq_of_lt (by omega)]; rfl, fun h => absurd h (Nat.lt_irrefl 0)⟩
  obtain ⟨t, hrun, ht⟩ := hstart.run hport
  rw [Nat.zero_add] at ht
  exact ⟨t, hrun, ht.draws, ht.ctr, ht.hold⟩

end Sys2Proof.Machine
end

section
/-! PROOFS of the memory family (R61, R63 to R66, R82 to R90): the serialised forms of a packet and of
the response, the round trip of the encoder and the decoder, the step, the unit that a command may write,
and the commands that are idempotent. -/

namespace Sys2Proof

/-! ### The fields of an encoded header (R83) -/

section
variable (opc : BitVec 8) (unit x y : BitVec 4)

@[simp] theorem hdrOpc_header : hdrOpc (header opc unit x y) = opc := (hdr_append opc unit x y 0).1

@[simp] theorem hdrUnit_header : hdrUnit (header opc unit x y) = unit :=
  (hdr_append opc unit x y 0).2.1

@[simp] theorem hdrX_header : hdrX (header opc unit x y) = x := (hdr_append opc unit x y 0).2.2.1

@[simp] theorem hdrY_header : hdrY (header opc unit x y) = y := (hdr_append opc unit x y 0).2.2.2.1

@[simp] theorem hdrUnit2_header : hdrUnit2 (header opc unit x y) = unit.setWidth 2 :=
  (BitVec.setWidth_extractLsb'_of_le (by decide)).symm.trans
    (congrArg (·.setWidth 2) (hdrUnit_header opc unit x y))

@[simp] theorem hdrX2_header : hdrX2 (header opc unit x y) = x.setWidth 2 :=
  (BitVec.setWidth_extractLsb'_of_le (by decide)).symm.trans
    (congrArg (·.setWidth 2) (hdrX_header opc unit x y))

@[simp] theorem hdrX0_header : hdrX0 (header opc unit x y) = x.setWidth 1 :=
  (BitVec.setWidth_extractLsb'_of_le (by decide)).symm.trans
    (congrArg (·.setWidth 1) (hdrX_header opc unit x y))

end

/-! ### A header selects at most one row of the table (R87) -/

theorem hdrOpc_and (v w : Word) : hdrOpc (v &&& w) = hdrOpc v &&& hdrOpc w := BitVec.extractLsb'_and

/-- Every mask of the table takes the opcode whole. -/
theorem hdrOpc_mask : ∀ r ∈ rows, hdrOpc r.mask = BitVec.allOnes 8 := by decide

/-- The opcodes of the table's rows are pairwise different. -/
theorem nodup_rows_opcode : (rows.map fun r => hdrOpc r.pattern).Nodup := by decide

/-- A row that is selected has the header's opcode. -/
theorem Row.opcode_of_selects {r : Row} {w0 : Word} (hr : r ∈ rows) (h : r.selects w0 = true) :
    hdrOpc r.pattern = hdrOpc w0 := by
  have hpattern : w0 &&& r.mask = r.pattern := by simpa [Row.selects] using h
  rw [← hpattern, hdrOpc_and, hdrOpc_mask r hr, BitVec.and_allOnes]

/-- A header that some row selects is answered by the one row that has its opcode. -/
theorem selectRow_of_opcode {r : Row} {w0 : Word} (hr : r ∈ rows) (hopc : hdrOpc r.pattern = hdrOpc w0)
    (hsome : ∃ r' ∈ rows, r'.selects w0 = true) : selectRow w0 = some r := by
  obtain ⟨q, hq⟩ := Option.isSome_iff_exists.1 (List.find?_isSome.2 hsome)
  have hmem := List.mem_of_find?_eq_some hq
  have hsel : q.selects w0 = true := List.find?_some (p := fun r : Row => r.selects w0) hq
  have hopc' := Row.opcode_of_selects hmem hsel
  rw [selectRow, hq, List.inj_on_of_nodup_map nodup_rows_opcode hmem hr (hopc'.trans hopc.symm)]

/-! ### The round trip (R63, R82, R83, R87, R90) -/

section
variable {opc : BitVec 8} {unit x y : BitVec 4}

/-! A selector narrower than its header field is read back from it. -/

theorem hdrUnit2_header_setWidth {u : BitVec 2} : hdrUnit2 (header opc (u.setWidth 4) x y) = u := by
  simp

theorem hdrX2_header_setWidth {v : BitVec 2} : hdrX2 (header opc unit (v.setWidth 4) y) = v := by
  simp

theorem hdrX0_header_setWidth {m : BitVec 1} : hdrX0 (header opc unit (m.setWidth 4) y) = m := by
  simp

/-- An encoded command decodes to itself if the row that has its opcode reads it back: `Laws.HeaderRow`
says that some row selects its header, and no other row has that opcode. -/
theorem decodePacket_encode_of_row (n : Nat) (hn : n < rows.length) {i : Instr}
    (hsel : Laws.HeaderRow.Statement i)
    (hheader : encodeHeader i = header opc unit x y) (hrow : hdrOpc rows[n].pattern = opc)
    (hbuild : rows[n].build (encode i) = i) :
    i.wellFormed = true → decodePacket (encode i) = .instr i := by
  intro hw
  obtain ⟨⟨r, hr, hsel, -⟩, -⟩ := hsel
  have hopc : hdrOpc rows[n].pattern = hdrOpc (encodeHeader i) := by rw [hheader, hdrOpc_header, hrow]
  have hselect : selectRow (encode i).w0 = some rows[n] :=
    selectRow_of_opcode (List.getElem_mem hn) hopc ⟨r, hr, hsel⟩
  simp [decodePacket, hselect, hbuild, hw]

end

/-- Every well-formed command is read back from its packet: each case names the row of its opcode, and
the row reads the command's selectors from the fields they were written to. -/
theorem decodePacket_encode (i : Instr) :
    i.wellFormed = true → decodePacket (encode i) = .instr i := by
  cases i with
  | nop => exact decodePacket_encode_of_row 0 (by decide) Laws.HeaderRow.nop rfl rfl rfl
  | prepare a =>
    exact decodePacket_encode_of_row 1 (by decide) (Laws.HeaderRow.prepare a) rfl rfl rfl
  | rderr => exact decodePacket_encode_of_row 2 (by decide) Laws.HeaderRow.rderr rfl rfl rfl
  | oscSetfreq u a =>
    exact decodePacket_encode_of_row 3 (by decide) (Laws.HeaderRow.oscSetfreq u a) rfl rfl
      (congrArg (Instr.oscSetfreq · a) hdrUnit2_header_setWidth)
  | oscSetwave u a =>
    exact decodePacket_encode_of_row 4 (by decide) (Laws.HeaderRow.oscSetwave u a) rfl rfl
      (congrArg (Instr.oscSetwave · a) hdrUnit2_header_setWidth)
  | oscProc u =>
    exact decodePacket_encode_of_row 5 (by decide) (Laws.HeaderRow.oscProc u) rfl rfl
      (congrArg Instr.oscProc hdrUnit2_header_setWidth)
  | oscProcfm u a b =>
    exact decodePacket_encode_of_row 6 (by decide) (Laws.HeaderRow.oscProcfm u a b) rfl rfl
      (congrArg (Instr.oscProcfm · a b) hdrUnit2_header_setWidth)
  | oscProcpm u a =>
    exact decodePacket_encode_of_row 7 (by decide) (Laws.HeaderRow.oscProcpm u a) rfl rfl
      (congrArg (Instr.oscProcpm · a) hdrUnit2_header_setWidth)
  | oscSync u =>
    exact decodePacket_encode_of_row 8 (by decide) (Laws.HeaderRow.oscSync u) rfl rfl
      (congrArg Instr.oscSync hdrUnit2_header_setWidth)
  | oscCycle u =>
    exact decodePacket_encode_of_row 9 (by decide) (Laws.HeaderRow.oscCycle u) rfl rfl
      (congrArg Instr.oscCycle hdrUnit2_header_setWidth)
  | oscSyncif u v =>
    exact decodePacket_encode_of_row 10 (by decide) (Laws.HeaderRow.oscSyncif u v) rfl rfl
      (congrArg₂ Instr.oscSyncif hdrUnit2_header_setWidth hdrX2_header_setWidth)
  | envSetdecay u a =>
    exact decodePacket_encode_of_row 11 (by decide) (Laws.HeaderRow.envSetdecay u a) rfl rfl
      (congrArg (Instr.envSetdecay · a) hdrUnit2_header_setWidth)
  | envTrig u a =>
    exact decodePacket_encode_of_row 12 (by decide) (Laws.HeaderRow.envTrig u a) rfl rfl
      (congrArg (Instr.envTrig · a) hdrUnit2_header_setWidth)
  | envProc u =>
    exact decodePacket_encode_of_row 13 (by decide) (Laws.HeaderRow.envProc u) rfl rfl
      (congrArg Instr.envProc hdrUnit2_header_setWidth)
  | envActive u =>
    exact decodePacket_encode_of_row 14 (by decide) (Laws.HeaderRow.envActive u) rfl rfl
      (congrArg Instr.envActive hdrUnit2_header_setWidth)
  | vcfSetcut a =>
    exact decodePacket_encode_of_row 15 (by decide) (Laws.HeaderRow.vcfSetcut a) rfl rfl rfl
  | vcfSetres a =>
    exact decodePacket_encode_of_row 16 (by decide) (Laws.HeaderRow.vcfSetres a) rfl rfl rfl
  | vcfSetmode m =>
    exact decodePacket_encode_of_row 17 (by decide) (Laws.HeaderRow.vcfSetmode m) rfl rfl
      (congrArg Instr.vcfSetmode hdrX0_header_setWidth)
  | vcfProc a =>
    exact decodePacket_encode_of_row 18 (by decide) (Laws.HeaderRow.vcfProc a) rfl rfl rfl
  | mmSetslot n src dst a =>
    exact decodePacket_encode_of_row 19 (by decide) (Laws.HeaderRow.mmSetslot n src dst a) rfl rfl
      (congrFun (congr (congrArg₂ Instr.mmSetslot
        hdrUnit2_header_setWidth (hdrX_header _ _ src _)) (hdrY_header _ _ _ dst)) a)
  | mmSetsrc n a =>
    exact decodePacket_encode_of_row 20 (by decide) (Laws.HeaderRow.mmSetsrc n a) rfl rfl
      (congrArg (Instr.mmSetsrc · a) (hdrUnit_header _ n _ _))
  | mmEval => exact decodePacket_encode_of_row 21 (by decide) Laws.HeaderRow.mmEval rfl rfl rfl
  | mmRead d =>
    exact decodePacket_encode_of_row 22 (by decide) (Laws.HeaderRow.mmRead d) rfl rfl
      (congrArg Instr.mmRead (hdrY_header _ _ _ d))

/-- Settles O1: the bytes give the packet back (`packetOfBytes_packetToBytes`), and the packet the
command. -/
theorem encodedCommandDecodesToItself : Obligations.EncodedCommandDecodesToItself := by
  intro i rest hw
  simp only [decodeBytes, packetOfBytes_packetToBytes, decodePacket_encode i hw]

/-! ### The bytes of a packet (R63, R64) -/

/-- Fewer bytes than a packet has are refused as a partial packet, and none is consumed (R64). -/
theorem decodeBytes_of_length_lt {bs : List Byte} (h : bs.length < 12) :
    decodeBytes bs = (.refused .partialPacket, bs) := by
  have hnone : packetOfBytes bs = none := by
    unfold packetOfBytes
    split
    · simp only [List.length_cons] at h
      omega
    · rfl
  simp only [decodeBytes, hnone]

/-- Settles O6: the example by evaluation; four bytes give their word back, so twelve their packet. -/
theorem packetBytesAreLittleEndian : Obligations.PacketBytesAreLittleEndian :=
  ⟨by decide, packetOfBytes_packetToBytes, fun _ => decodeBytes_of_length_lt⟩

/-- A table word is read as its packet is. -/
theorem decodePacket_of_decodeTableWord {nbits w : Nat} {i : Instr}
    (h : decodeTableWord nbits w = some i) : decodePacket (packetOfTableWord nbits w) = .instr i := by
  have hbytes : decodeBytes (packetToBytes (packetOfTableWord nbits w)) =
      (decodePacket (packetOfTableWord nbits w), []) := by
    rw [decodeBytes, ← List.append_nil (packetToBytes _), packetOfBytes_packetToBytes]
  rw [decodeTableWord, hbytes] at h
  cases hd : decodePacket (packetOfTableWord nbits w) with
  | instr j =>
    rw [hd] at h
    exact congrArg Decoded.instr (Option.some.inj h)
  | refused e => simp [hd] at h

end Sys2Proof

namespace Sys2Proof.Machine

open Sys2Proof.F32

/-! ### The step (R66, R95) -/

theorem step_of_decoded {s : State} {p : Packet} {rest : List Packet} {i : Instr}
    (hport : s.port = p :: rest) (hd : decodePacket p = .instr i) :
    step s = exec i { s with port := rest } := by
  rw [step_of_packet hport, hd]

/-- Settles O7: a presented table word is the packet at the head of the port, and taking it gives the
state back. -/
theorem stepRunsTheDecodedCommand : Obligations.StepRunsTheDecodedCommand :=
  ⟨fun _ _ _ _ => step_of_decoded, fun s w _ h =>
    step_of_decoded (presentPacket_port s (packetOfTableWord 32 w)) (decodePacket_of_decodeTableWord h)⟩

/-! ### The response packet (R63, R84) -/

section
variable (s : State) {start len : Nat}

theorem extractLsb'_responseR0_of_le (h : start + len ≤ 8) :
    (responseR0 s).extractLsb' start len = s.rspStatus.extractLsb' start len :=
  BitVec.extractLsb'_setWidth_of_le (by omega)

theorem extractLsb'_responseR0_of_ge (h : 8 ≤ start) :
    (responseR0 s).extractLsb' start len = 0#len := by
  have happend : responseR0 s = 0#24 ++ s.rspStatus := BitVec.setWidth_eq_append (by decide)
  rw [happend]
  exact (BitVec.extractLsb'_append_eq_of_le h).trans BitVec.extractLsb'_zero

theorem extractLsb'_responsePacket_of_le (h : start + len ≤ 32) :
    (responsePacket s).extractLsb' start len = (responseR0 s).extractLsb' start len :=
  BitVec.extractLsb'_append_eq_of_add_le h

theorem extractLsb'_responsePacket_of_ge (h : 32 ≤ start) :
    (responsePacket s).extractLsb' start len = s.rspResult.extractLsb' (start - 32) len :=
  BitVec.extractLsb'_append_eq_of_le h

end

/-- The bytes of a response are those of the 64-bit packet from its least significant byte on. -/
theorem responseToBytes_eq_map (s : State) :
    responseToBytes s = (List.range 8).map fun i => (responsePacket s).extractLsb' (8 * i) 8 := by
  simp [responseToBytes, bytesOfWord, responseR1, List.range_succ, extractLsb'_responsePacket_of_le,
    extractLsb'_responsePacket_of_ge]

/-- The status, the zeros and the result, byte by byte. -/
theorem responseToBytes_eq (s : State) :
    responseToBytes s = [s.rspStatus, 0x00, 0x00, 0x00, s.rspResult.extractLsb' 0 8,
      s.rspResult.extractLsb' 8 8, s.rspResult.extractLsb' 16 8, s.rspResult.extractLsb' 24 8] := by
  simp [responseToBytes, bytesOfWord, responseR1, extractLsb'_responseR0_of_le,
    extractLsb'_responseR0_of_ge, BitVec.extractLsb'_eq_self]

/-- Settles O16: every field and every byte lies within one part of the packet, the status, the zeros
or the result. -/
theorem responsePacketLayout : Obligations.ResponsePacketLayout := by
  refine fun s => ⟨?status, ?zeros, ?result, responseToBytes_eq s, responseToBytes_eq_map s⟩
  case status =>
    rw [extractLsb'_responsePacket_of_le s (by decide), extractLsb'_responseR0_of_le s (by decide),
      BitVec.extractLsb'_eq_self]
  case zeros =>
    rw [extractLsb'_responsePacket_of_le s (by decide), extractLsb'_responseR0_of_ge s (by decide)]
    rfl
  case result =>
    rw [extractLsb'_responsePacket_of_ge s (by decide)]
    exact BitVec.extractLsb'_eq_self

/-! ### The unit that a command may write (R61, R65, R85) -/

/-- The unit class is read from the opcode alone (R85). -/
theorem unitClass_of_header {i : Instr} {opc : BitVec 8} {unit x y c : BitVec 4}
    (h : encodeHeader i = header opc unit x y) (hc : opc.extractLsb' 4 4 = c) : i.unitClass = c := by
  rw [Instr.unitClass, h, hdrOpc_header, hc]

/-- What a command other than `PREPARE` can have written when it is done: nothing, or the unit of its
class if it is no pure read. -/
inductive ClassWrite (i : Instr) (s : State) : State → Word → Prop
  | none {w : Word} : ClassWrite i s s w
  | osc {k : Fin 3} {o : Osc} {w : Word} (hc : i.unitClass = 1) (hr : i.pureRead = false) :
      ClassWrite i s (putOsc s k o) w
  | env {k : Fin 3} {e : Env} {w : Word} (hc : i.unitClass = 2) (hr : i.pureRead = false) :
      ClassWrite i s (putEnv s k e) w
  | vcf {v : Vcf} {w : Word} (hc : i.unitClass = 3) (hr : i.pureRead = false) :
      ClassWrite i s (putVcf s v) w
  | mm {t : State} {w : Word} (hc : i.unitClass = 4) (hr : i.pureRead = false)
      (ht : t = { s with mm := t.mm, draws := t.draws }) : ClassWrite i s t w

theorem classWrite_oscStep {i : Instr} {s : State} (k : Fin 3) (einc : Sample)
    (hc : i.unitClass = 1) (hr : i.pureRead = false) : (oscStep k einc s).Sat (ClassWrite i s) :=
  sat_needFinite fun _ => .osc hc hr

/-- Every command other than `PREPARE` is answered by a reply that, if done, has written no other unit
than that of its class. -/
theorem exec_sat_classWrite (i : Instr) (s : State) (hi : ∀ a, i ≠ .prepare a) :
    ∃ r : Reply, exec i s = answer s r ∧ r.Sat (ClassWrite i s) := by
  cases i with
  | nop => exact ⟨_, rfl, .none⟩
  | prepare a => exact absurd rfl (hi a)
  | rderr => exact ⟨_, rfl, .none⟩
  | oscSetfreq u a =>
    exact ⟨_, rfl, sat_withInstance fun k => sat_whenPrepared fun _ => sat_needFinite fun _ =>
      sat_needFinite fun _ => .osc (unitClass_of_header rfl rfl) rfl⟩
  | oscSetwave u a =>
    exact ⟨_, rfl, sat_withInstance fun k => sat_whenPrepared fun _ => sat_needFinite fun _ =>
      .osc (unitClass_of_header rfl rfl) rfl⟩
  | oscProc u =>
    exact ⟨_, rfl, sat_withInstance fun k => sat_whenPrepared fun _ =>
      classWrite_oscStep k _ (unitClass_of_header rfl rfl) rfl⟩
  | oscProcfm u a b =>
    exact ⟨_, rfl, sat_withInstance fun k => sat_whenPrepared fun _ => sat_needFinite fun _ =>
      classWrite_oscStep k _ (unitClass_of_header rfl rfl) rfl⟩
  | oscProcpm u a =>
    exact ⟨_, rfl, sat_withInstance fun k => sat_whenPrepared fun _ => sat_needFinite fun _ =>
      classWrite_oscStep k _ (unitClass_of_header rfl rfl) rfl⟩
  | oscSync u =>
    exact ⟨_, rfl, sat_withInstance fun k => sat_whenPrepared fun _ =>
      .osc (unitClass_of_header rfl rfl) rfl⟩
  | oscCycle u => exact ⟨_, rfl, sat_withInstance fun k => sat_whenPrepared fun _ => .none⟩
  | oscSyncif u v =>
    refine ⟨_, rfl, sat_withInstance fun k => sat_withInstance fun m => sat_whenPrepared fun _ => ?_⟩
    cases hcyc : (s.osc.get m).cyc with
    | true => exact .osc (unitClass_of_header rfl rfl) rfl
    | false => exact .none
  | envSetdecay j a =>
    exact ⟨_, rfl, sat_withInstance fun k => sat_whenPrepared fun _ => sat_needFinite fun _ =>
      sat_needFinite fun _ => .env (unitClass_of_header rfl rfl) rfl⟩
  | envTrig j a =>
    exact ⟨_, rfl, sat_withInstance fun k => sat_whenPrepared fun _ => sat_needFinite fun _ =>
      .env (unitClass_of_header rfl rfl) rfl⟩
  | envProc j =>
    exact ⟨_, rfl, sat_withInstance fun k => sat_whenPrepared fun _ =>
      .env (unitClass_of_header rfl rfl) rfl⟩
  | envActive j => exact ⟨_, rfl, sat_withInstance fun k => sat_whenPrepared fun _ => .none⟩
  | vcfSetcut a =>
    exact ⟨_, rfl, sat_whenPrepared fun _ => sat_needFinite fun _ => sat_withCutoff fun _ =>
      .vcf (unitClass_of_header rfl rfl) rfl⟩
  | vcfSetres a =>
    exact ⟨_, rfl, sat_whenPrepared fun _ => sat_needFinite fun _ =>
      .vcf (unitClass_of_header rfl rfl) rfl⟩
  | vcfSetmode m => exact ⟨_, rfl, sat_whenPrepared fun _ => .vcf (unitClass_of_header rfl rfl) rfl⟩
  | vcfProc a =>
    exact ⟨_, rfl, sat_whenPrepared fun _ => sat_needFinite fun _ => sat_needFinite fun _ =>
      .vcf (unitClass_of_header rfl rfl) rfl⟩
  | mmSetslot n src dst a =>
    exact ⟨_, rfl, sat_whenPrepared fun _ => sat_needFinite fun _ =>
      .mm (unitClass_of_header rfl rfl) rfl rfl⟩
  | mmSetsrc n a =>
    refine ⟨_, rfl, ?_⟩
    cases s.mm.srcin.write n a with
    | none => exact Reply.sat_refuse _ _
    | some b =>
      exact sat_whenPrepared fun _ => sat_needFinite fun _ =>
        .mm (unitClass_of_header rfl rfl) rfl rfl
  | mmEval => exact ⟨_, rfl, sat_whenPrepared fun _ => .mm (unitClass_of_header rfl rfl) rfl rfl⟩
  | mmRead d => exact ⟨_, rfl, sat_whenPrepared fun _ => .none⟩

/-- A write within the class of the command keeps the other units, the port and the rate, and a pure
read writes nothing. -/
theorem ClassWrite.frame {i : Instr} {s t : State} {w : Word} (h : ClassWrite i s t w) :
    (i.unitClass ≠ 1 → t.osc = s.osc) ∧ (i.unitClass ≠ 2 → t.env = s.env) ∧
    (i.unitClass ≠ 3 → t.vcf = s.vcf) ∧ (i.unitClass ≠ 4 → t.mm = s.mm ∧ t.draws = s.draws) ∧
    t.port = s.port ∧ t.fs = s.fs ∧ t.prepared = s.prepared ∧ (i.pureRead = true → t = s) := by
  cases h with
  | none => simp
  | osc hc hr => simp [hc, hr]
  | env hc hr => simp [hc, hr]
  | vcf hc hr => simp [hc, hr]
  | mm hc hr ht =>
    rw [ht]
    simp [hc, hr]

/-- Settles O13: the response of a command is written over a state that `ClassWrite` describes, or over
the state before it. -/
theorem commandsKeepToTheirUnit : Obligations.CommandsKeepToTheirUnit := by
  intro i s t h hi
  obtain ⟨r, he, hr⟩ := exec_sat_classWrite i s hi
  rcases exec_sat_or_refused he hr h with ⟨u, w, hwrite, rfl⟩ | ⟨st, rfl⟩
  · obtain ⟨hosc, henv, hvcf, hmm, hport, hfs, hprep, hread⟩ := hwrite.frame
    exact ⟨hosc, henv, hvcf, hmm, hport, hfs, hprep, fun hp => by rw [hread hp]; rfl⟩
  · exact ⟨fun _ => rfl, fun _ => rfl, fun _ => rfl, fun _ => ⟨rfl, rfl⟩, rfl, rfl, rfl, fun _ => rfl⟩

/-! ### The idempotent commands (R65) -/

theorem Bank3.set_set {α : Type} (b : Bank3 α) (k : Fin 3) (a a' : α) :
    (b.set k a).set k a' = b.set k a' := by
  match k with
  | 0 => rfl
  | 1 => rfl
  | 2 => rfl

theorem Bank4.set_set {α : Type} (b : Bank4 α) (k : Fin 4) (a a' : α) :
    (b.set k a).set k a' = b.set k a' := by
  match k with
  | 0 => rfl
  | 1 => rfl
  | 2 => rfl
  | 3 => rfl

/-- A source input written again with the same value is unchanged. -/
theorem Srcin.write_write {b c : Srcin} {n : BitVec 4} {a : Sample} (h : b.write n a = some c) :
    c.write n a = some c := by
  unfold Srcin.write at h ⊢
  split at h <;> cases h <;> simp only [*]

/-- The flags of a status are set at most once. -/
theorem raiseStatus_raiseStatus (st : Status) (s : State) :
    raiseStatus st (raiseStatus st s) = raiseStatus st s := by
  simp only [raiseStatus, BitVec.or_assoc, BitVec.or_self]

/-- A reply, as a function of the state, that settled a second time changes nothing, and that leaves the
rate and the preparation, from which the guards of R95 are computed. -/
structure Repeats (f : State → Reply) : Prop where
  prepared : ∀ s, (settle s (f s)).prepared = s.prepared
  fs : ∀ s, (settle s (f s)).fs = s.fs
  again : ∀ s, settle (settle s (f s)) (f (settle s (f s))) = settle s (f s)

theorem repeats_refuse (st : Status) : Repeats fun _ => .refuse st where
  prepared _ := rfl
  fs _ := rfl
  again := raiseStatus_raiseStatus st

section
variable {f : State → Reply}

theorem repeats_withInstance {u : BitVec 2} {g : Fin 3 → State → Reply} (h : ∀ k, Repeats (g k)) :
    Repeats fun s => withInstance u fun k => g k s := by
  cases hu : instanceOf u with
  | none => simpa only [withInstance, hu] using repeats_refuse .illegal
  | some k => simpa only [withInstance, hu] using h k

/-- A guard that the command itself does not change: the second execution passes it as the first did. -/
theorem repeats_guard {b : State → Bool} (hb : ∀ s t, t.prepared = s.prepared → t.fs = s.fs → b t = b s)
    (st : Status) (h : Repeats f) : Repeats fun s => if b s then f s else .refuse st where
  prepared s := by
    cases hs : b s with
    | true => simpa [hs] using h.prepared s
    | false => simp
  fs s := by
    cases hs : b s with
    | true => simpa [hs] using h.fs s
    | false => simp
  again s := by
    cases hs : b s with
    | true => simpa [hs, hb s _ (h.prepared s) (h.fs s)] using h.again s
    | false => simpa [hs, hb s (raiseStatus st s) rfl rfl] using raiseStatus_raiseStatus st s

theorem repeats_whenPrepared (h : Repeats f) : Repeats fun s => whenPrepared s (f s) :=
  repeats_guard (fun _ _ hp _ => hp) _ h

theorem repeats_needFinite {xs : State → List Sample} (hxs : ∀ s t, t.fs = s.fs → xs t = xs s)
    (h : Repeats f) : Repeats fun s => needFinite (xs s) (f s) :=
  repeats_guard (b := fun s => (xs s).all finite) (fun s t _ hfs => by rw [hxs s t hfs]) _ h

end


/-- A done reply repeats if it is unchanged by its own response. -/
theorem repeats_done {u : State → State} {w : State → Word} (hp : ∀ s, (u s).prepared = s.prepared)
    (hfs : ∀ s, (u s).fs = s.fs)
    (hagain : ∀ s, respond (u (respond (u s) (w s))) (w (respond (u s) (w s))) = respond (u s) (w s)) :
    Repeats fun s => .done (u s) (w s) :=
  ⟨hp, hfs, hagain⟩

/-- A read repeats if its result does not depend on the response registers. -/
theorem repeats_read {w : State → Word} (hw : ∀ s, w (respond s (w s)) = w s) :
    Repeats fun s => .done s (w s) :=
  repeats_done (fun _ => rfl) (fun _ => rfl) fun s => congrArg (respond s) (hw s)

/-! A written unit repeats if it is computed to the same value from the state that holds it. -/

theorem repeats_putOsc {k : Fin 3} {o : State → Osc} {w : Word}
    (ho : ∀ s, o (respond (putOsc s k (o s)) w) = o s) : Repeats fun s => .done (putOsc s k (o s)) w :=
  repeats_done (fun _ => rfl) (fun _ => rfl) fun s => by
    rw [ho]
    simp [putOsc, respond, Bank3.set_set]

theorem repeats_putEnv {k : Fin 3} {e : State → Env} {w : Word}
    (he : ∀ s, e (respond (putEnv s k (e s)) w) = e s) : Repeats fun s => .done (putEnv s k (e s)) w :=
  repeats_done (fun _ => rfl) (fun _ => rfl) fun s => by
    rw [he]
    simp [putEnv, respond, Bank3.set_set]

theorem repeats_putVcf {v : State → Vcf} {w : Word}
    (hv : ∀ s, v (respond (putVcf s (v s)) w) = v s) : Repeats fun s => .done (putVcf s (v s)) w :=
  repeats_done (fun _ => rfl) (fun _ => rfl) fun s => by
    rw [hv]
    rfl

theorem repeats_putMm {m : State → Mm} {w : Word}
    (hm : ∀ s, m (respond (putMm s (m s)) w) = m s) : Repeats fun s => .done (putMm s (m s)) w :=
  repeats_done (fun _ => rfl) (fun _ => rfl) fun s => by
    rw [hm]
    rfl

/-- Resetting a phase leaves every cycle flag, the slave's own included (R128). -/
theorem cyc_set_phase (b : Bank3 Osc) (k m : Fin 3) (p : Sample) :
    ((b.set k { b.get k with phase := p }).get m).cyc = (b.get m).cyc := by
  rw [Bank3.get_set]
  split_ifs with h
  · rw [h]
  · rfl

/-- The body of `OSC.SYNCIF` (R128): the flag that decides is not changed by the reset. -/
theorem repeats_syncif (k m : Fin 3) :
    Repeats fun s => .done
      (if (s.osc.get m).cyc then putOsc s k { s.osc.get k with phase := c0 } else s)
      (resultB (s.osc.get m).cyc) := by
  refine repeats_done (fun s => ?_) (fun s => ?_) fun s => ?_
  · split <;> rfl
  · split <;> rfl
  · cases hcyc : (s.osc.get m).cyc with
    | true => simp [hcyc, cyc_set_phase, putOsc, respond, Bank3.set_set]
    | false => simp [hcyc, respond]

/-- `MM.SETSRC` with its range check (R90) apart from what it writes. -/
theorem exec_mmSetsrc (n : BitVec 4) (a : Sample) (s : State) :
    exec (.mmSetsrc n a) s = answer s (if sourceInputInRange n then
      whenPrepared s <| needFinite [a] <|
        .done (putMm s { s.mm with srcin := (s.mm.srcin.write n a).getD s.mm.srcin }) 0
      else .refuse .illegal) := by
  rw [← Srcin.write_isSome_iff s.mm.srcin n a]
  simp only [exec, execMmSetsrc]
  cases s.mm.srcin.write n a <;> rfl

theorem Srcin.getD_write_getD (b : Srcin) (n : BitVec 4) (a : Sample) :
    (((b.write n a).getD b).write n a).getD ((b.write n a).getD b) = (b.write n a).getD b := by
  cases h : b.write n a with
  | none => simp [h]
  | some c => simp [Srcin.write_write h]

/-- A command whose reply repeats is idempotent. -/
theorem exec_again {i : Instr} {f : State → Reply} {s t : State} (h : exec i s = .next t)
    (he : ∀ s, exec i s = answer s (f s)) (hf : Repeats f) : exec i t = .next t := by
  rw [he, answer_eq_next_iff] at h ⊢
  exact h ▸ hf.again s

/-- `PREPARE` is idempotent (R65): whether it is refused depends on its operand alone, and the state it
leaves on no unit of the state before it. -/
theorem exec_prepare_again {a : Sample} {s t : State} (h : exec (.prepare a) s = .next t) :
    exec (.prepare a) t = .next t := by
  by_cases hno : finite a = false ∨ le a c0 = true ∨
      finite (tanArgument a (clampCutoff a c0)) = false ∨
      legalCoeff (cutoffCoeff a (clampCutoff a c0)) = false
  · rw [exec_prepare_refused s hno] at h
    cases h
    rw [exec_prepare_refused _ hno, raiseStatus_raiseStatus]
  · simp only [not_or, Bool.not_eq_true, Bool.not_eq_false] at hno
    obtain ⟨ha, hle, hx, hg⟩ := hno
    have hpos := lt_of_not_le (by decide) (isNaN_of_finite ha) hle
    rw [exec_prepare_done s ha hpos hx hg] at h
    cases h
    exact exec_prepare_done _ ha hpos hx hg

/-- Settles O14: the guards of R95 answer as before, and each unit is written with the value it holds. -/
theorem repeatedSettingIsIdempotent : Obligations.RepeatedSettingIsIdempotent := by
  intro i s t hi h
  cases i with
  | nop => exact exec_again h (fun _ => rfl) (repeats_read fun _ => rfl)
  | prepare a => exact exec_prepare_again h
  | rderr => exact exec_again h (fun _ => rfl) (repeats_read fun _ => rfl)
  | oscSetfreq u a =>
    exact exec_again h (fun _ => rfl) <| repeats_withInstance fun k => repeats_whenPrepared <|
      repeats_needFinite (fun _ _ _ => rfl) <| repeats_needFinite (fun _ _ hfs => by rw [hfs]) <|
      repeats_putOsc fun s => by simp
  | oscSetwave u a =>
    exact exec_again h (fun _ => rfl) <| repeats_withInstance fun k => repeats_whenPrepared <|
      repeats_needFinite (fun _ _ _ => rfl) <| repeats_putOsc fun s => by simp
  | oscProc u => cases hi
  | oscProcfm u a b => cases hi
  | oscProcpm u a => cases hi
  | oscSync u =>
    exact exec_again h (fun _ => rfl) <| repeats_withInstance fun k => repeats_whenPrepared <|
      repeats_putOsc fun s => by simp
  | oscCycle u =>
    exact exec_again h (fun _ => rfl) <| repeats_withInstance fun k => repeats_whenPrepared <|
      repeats_read fun _ => rfl
  | oscSyncif u v =>
    exact exec_again h (fun _ => rfl) <| repeats_withInstance fun k => repeats_withInstance fun m =>
      repeats_whenPrepared <| repeats_syncif k m
  | envSetdecay j a =>
    exact exec_again h (fun _ => rfl) <| repeats_withInstance fun k => repeats_whenPrepared <|
      repeats_needFinite (fun _ _ _ => rfl) <| repeats_needFinite (fun _ _ hfs => by rw [hfs]) <|
      repeats_putEnv fun s => by simp
  | envTrig j a =>
    exact exec_again h (fun _ => rfl) <| repeats_withInstance fun k => repeats_whenPrepared <|
      repeats_needFinite (fun _ _ _ => rfl) <| repeats_putEnv fun s => by simp
  | envProc j => cases hi
  | envActive j =>
    exact exec_again h (fun _ => rfl) <| repeats_withInstance fun k => repeats_whenPrepared <|
      repeats_read fun _ => rfl
  | vcfSetcut a =>
    exact exec_again h (fun _ => rfl) <| repeats_whenPrepared <|
      repeats_needFinite (fun _ _ _ => rfl) <| repeats_needFinite (fun _ _ hfs => by rw [hfs]) <|
      repeats_guard (fun _ _ _ hfs => by rw [hfs]) _ <| repeats_putVcf fun _ => rfl
  | vcfSetres a =>
    exact exec_again h (fun _ => rfl) <| repeats_whenPrepared <|
      repeats_needFinite (fun _ _ _ => rfl) <| repeats_putVcf fun _ => rfl
  | vcfSetmode m =>
    exact exec_again h (fun _ => rfl) <| repeats_whenPrepared <| repeats_putVcf fun _ => rfl
  | vcfProc a => cases hi
  | mmSetslot n src dst a =>
    exact exec_again h (fun _ => rfl) <| repeats_whenPrepared <|
      repeats_needFinite (fun _ _ _ => rfl) <| repeats_putMm fun s => by simp [Bank4.set_set]
  | mmSetsrc n a =>
    exact exec_again h (exec_mmSetsrc n a) <| repeats_guard (fun _ _ _ _ => rfl) _ <|
      repeats_whenPrepared <| repeats_needFinite (fun _ _ _ => rfl) <|
      repeats_putMm fun s => by simp [Srcin.getD_write_getD]
  | mmEval => cases hi
  | mmRead d =>
    exact exec_again h (fun _ => rfl) <| repeats_whenPrepared <| repeats_read fun _ => rfl

end Sys2Proof.Machine
end

section
/-! PROOFS of the encoding family (R82 to R96, R173, R302 to R305): what a row of the table asks of a header
and reads from its packet, the headers that are commands, the status of every command, and `VCF.PROC`. -/

namespace Sys2Proof

/-! ### A row of the table, field by field (R83, R87) -/

/-- What a row asks of a header, field by field: the opcode, zeros under the mask of each selector
field, and a zero reserved field. -/
structure Row.Fits (r : Row) (w : Word) : Prop where
  opc : hdrOpc w = hdrOpc r.pattern
  unit : hdrUnit w &&& hdrUnit r.mask = 0
  x : hdrX w &&& hdrX r.mask = 0
  y : hdrY w &&& hdrY r.mask = 0
  zero : hdrZero w = 0

theorem fields_pattern : ∀ r ∈ rows, r.pattern = hdrOpc r.pattern ++ 0#4 ++ 0#4 ++ 0#4 ++ 0#12 := by
  decide

theorem fields_mask : ∀ r ∈ rows,
    r.mask = 0xFF#8 ++ hdrUnit r.mask ++ hdrX r.mask ++ hdrY r.mask ++ 0xFFF#12 := by decide

theorem Row.selects_iff_fits {r : Row} (hr : r ∈ rows) {w : Word} :
    r.selects w = true ↔ r.Fits w := by
  rw [Row.selects, beq_iff_eq, fields_pattern r hr, fields_mask r hr, and_mask_eq_iff]
  exact ⟨fun ⟨h1, h2, h3, h4, h5⟩ => ⟨h1, h2, h3, h4, h5⟩,
    fun h => ⟨h.opc, h.unit, h.x, h.y, h.zero⟩⟩

/-- A selector field that the mask takes whole is 0. -/
theorem eq_zero_of_and_mask {f : BitVec 4} (h : f &&& 0xF = 0) : f = 0 := by
  rwa [show (0xF : BitVec 4) = BitVec.allOnes 4 from rfl, BitVec.and_allOnes] at h

/-- A header whose reserved field is 0 is encoded from its fields. -/
theorem header_of_fields {w : Word} {opc : BitVec 8} {unit x y : BitVec 4} (hopc : hdrOpc w = opc)
    (hunit : hdrUnit w = unit) (hx : hdrX w = x) (hy : hdrY w = y) (hzero : hdrZero w = 0) :
    header opc unit x y = w := by
  subst hopc hunit hx hy
  conv_rhs => rw [header_fields w, hzero]
  rfl

/-! ### What a row reads from its packet (R82, R83) -/

/-- A row reads its command from the packet: the header is that of the command, the operands are the
first operand words, and the reading depends on no other operand word. -/
structure Row.Reads (r : Row) : Prop where
  header : ∀ p, r.Fits p.w0 → encodeHeader (r.build p) = p.w0
  operands : ∀ p, (r.build p).usedOperands = [p.w1, p.w2].take (r.build p).usedOperands.length
  unused : ∀ p x y, r.build ⟨p.w0, if (r.build p).usedOperands.length = 0 then x else p.w1,
    if (r.build p).usedOperands.length ≤ 1 then y else p.w2⟩ = r.build p

section
variable {w : Word} {opc : BitVec 8} {r : Row}

/-- The header of a row without selectors. -/
theorem Row.Fits.header_whole (h : r.Fits w) (hopc : hdrOpc r.pattern = opc)
    (hu : hdrUnit r.mask = 0xF) (hx : hdrX r.mask = 0xF) (hy : hdrY r.mask = 0xF) :
    header opc 0 0 0 = w :=
  header_of_fields (h.opc.trans hopc) (eq_zero_of_and_mask (hu ▸ h.unit))
    (eq_zero_of_and_mask (hx ▸ h.x)) (eq_zero_of_and_mask (hy ▸ h.y)) h.zero

/-- The header of a row with the number of an oscillator or an envelope and no other selector. -/
theorem Row.Fits.header_instance (h : r.Fits w) (hopc : hdrOpc r.pattern = opc)
    (hu : hdrUnit r.mask = 0xC) (hx : hdrX r.mask = 0xF) (hy : hdrY r.mask = 0xF) :
    header opc ((hdrUnit2 w).setWidth 4) 0 0 = w :=
  header_of_fields (h.opc.trans hopc) (hdrUnit_of_and (hu ▸ h.unit))
    (eq_zero_of_and_mask (hx ▸ h.x)) (eq_zero_of_and_mask (hy ▸ h.y)) h.zero

end

/-- Every row of the table reads its command from the packet: the rows without selectors, those with the
number of an oscillator or an envelope, and the five with selectors of their own. -/
theorem rows_reads : ∀ r ∈ rows, r.Reads := by
  simp only [rows, systemRows, oscRows, envRows, vcfRows, mmRows, List.cons_append, List.nil_append,
    List.forall_mem_cons, List.not_mem_nil, false_implies, implies_true, and_true]
  refine ⟨?nop, ?prepare, ?rderr, ?oscSetfreq, ?oscSetwave, ?oscProc, ?oscProcfm, ?oscProcpm,
    ?oscSync, ?oscCycle, ?oscSyncif, ?envSetdecay, ?envTrig, ?envProc, ?envActive, ?vcfSetcut,
    ?vcfSetres, ?vcfSetmode, ?vcfProc, ?mmSetslot, ?mmSetsrc, ?mmEval, ?mmRead⟩
  case nop | prepare | rderr | vcfSetcut | vcfSetres | vcfProc | mmEval =>
    exact ⟨fun _ h => h.header_whole rfl rfl rfl rfl, fun _ => rfl, fun _ _ _ => rfl⟩
  case oscSetfreq | oscSetwave | oscProc | oscProcfm | oscProcpm | oscSync | oscCycle | envSetdecay |
      envTrig | envProc | envActive =>
    exact ⟨fun _ h => h.header_instance rfl rfl rfl rfl, fun _ => rfl, fun _ _ _ => rfl⟩
  case oscSyncif =>
    exact ⟨fun _ h => header_of_fields h.opc (hdrUnit_of_and h.unit) (hdrX_of_and h.x)
      (eq_zero_of_and_mask h.y) h.zero, fun _ => rfl, fun _ _ _ => rfl⟩
  case vcfSetmode =>
    exact ⟨fun _ h => header_of_fields h.opc (eq_zero_of_and_mask h.unit) (hdrX_of_and_mode h.x)
      (eq_zero_of_and_mask h.y) h.zero, fun _ => rfl, fun _ _ _ => rfl⟩
  case mmSetslot =>
    exact ⟨fun _ h => header_of_fields h.opc (hdrUnit_of_and h.unit) rfl rfl h.zero,
      fun _ => rfl, fun _ _ _ => rfl⟩
  case mmSetsrc =>
    exact ⟨fun _ h => header_of_fields h.opc rfl (eq_zero_of_and_mask h.x)
      (eq_zero_of_and_mask h.y) h.zero, fun _ => rfl, fun _ _ _ => rfl⟩
  case mmRead =>
    exact ⟨fun _ h => header_of_fields h.opc (eq_zero_of_and_mask h.unit) (eq_zero_of_and_mask h.x)
      rfl h.zero, fun _ => rfl, fun _ _ _ => rfl⟩

theorem encodeHeader_build {r : Row} {p : Packet} (hr : r ∈ rows) (h : r.selects p.w0 = true) :
    encodeHeader (r.build p) = p.w0 :=
  (rows_reads r hr).header p ((Row.selects_iff_fits hr).1 h)

/-! ### A row that selects the header decides (R87, R90) -/

theorem selectRow_of_selects {r : Row} {w0 : Word} (hr : r ∈ rows) (h : r.selects w0 = true) :
    selectRow w0 = some r :=
  selectRow_of_opcode hr (Row.opcode_of_selects hr h) ⟨r, hr, h⟩

theorem decodePacket_of_selects {r : Row} {p : Packet} (hr : r ∈ rows) (h : r.selects p.w0 = true) :
    decodePacket p =
      if (r.build p).wellFormed = true then .instr (r.build p) else .refused .rangeCheck := by
  rw [decodePacket, selectRow_of_selects hr h]

theorem decodePacket_of_no_row {p : Packet} (h : ∀ r ∈ rows, r.selects p.w0 ≠ true) :
    decodePacket p = .refused .noRow := by
  rw [decodePacket, selectRow, List.find?_eq_none.2 h]

theorem Row.selects_iff {r : Row} {w0 : Word} : r.selects w0 = true ↔ w0 &&& r.mask = r.pattern :=
  beq_iff_eq

/-- Settles O3: two rows that select one header are both its `selectRow`, and that row decides. -/
theorem decodingFollowsTheMatchAndMaskTable : Obligations.DecodingFollowsTheMatchAndMaskTable := by
  refine ⟨rfl, fun w0 r hr r' hr' h h' => ?_, fun p h => ?_, fun p r hr h => ?_⟩
  · have hrow := selectRow_of_selects hr (Row.selects_iff.2 h)
    rw [selectRow_of_selects hr' (Row.selects_iff.2 h'), Option.some_inj] at hrow
    rw [hrow]
  · exact decodePacket_of_no_row fun r hr hsel => h r hr (Row.selects_iff.1 hsel)
  · exact decodePacket_of_selects hr (Row.selects_iff.2 h)

/-- Settles O2: the row that selects the header reads the command, and from the changed packet it reads
the same one. -/
theorem decodedCommandIsItsPacket : Obligations.DecodedCommandIsItsPacket := by
  intro p i h
  obtain ⟨r, hr, hsel, rfl, hw⟩ := decodePacket_eq_instr h
  obtain ⟨-, hoperands, hunused⟩ := rows_reads r hr
  refine ⟨encodeHeader_build hr hsel, hw, hoperands p, fun x y => ?_⟩
  rw [decodePacket_of_selects hr, hunused, if_pos hw]
  exact hsel

theorem decodePacket_of_encode {i : Instr} {p : Packet} (hp : encode i = p)
    (hw : i.wellFormed = true) : decodePacket p = .instr i :=
  hp ▸ decodePacket_encode i hw

/-- Settles O5: each packet is the encoding of the command beside it, which decodes to itself. -/
theorem workedEncodingsDecode : Obligations.WorkedEncodingsDecode :=
  ⟨decodePacket_of_encode rfl rfl, decodePacket_of_encode rfl rfl, decodePacket_of_encode rfl rfl,
    decodePacket_of_encode rfl rfl, decodePacket_of_encode rfl rfl, decodePacket_of_encode rfl rfl,
    decodePacket_of_encode rfl rfl, decodePacket_of_encode rfl rfl⟩

/-! ### The legal headers are those of the commands (R83, R86, R90, R91) -/

@[simp] theorem hdrZero_header (opc : BitVec 8) (unit x y : BitVec 4) :
    hdrZero (header opc unit x y) = 0 := (hdr_append opc unit x y 0).2.2.2.2

theorem toNat_setWidth_le_two (u : BitVec 2) :
    decide ((u.setWidth 4).toNat ≤ 2) = instanceInRange u := by revert u; decide

/-- The header of a command is legal exactly where its selectors pass the range checks. -/
theorem legalHeader_encodeHeader (i : Instr) : legalHeader (encodeHeader i) = i.wellFormed := by
  cases i with
  | nop | prepare | rderr | vcfSetcut | vcfSetres | vcfProc | mmEval | mmRead =>
    simp [legalHeader, encodeHeader, Instr.wellFormed]
  | oscSetfreq u | oscSetwave u | oscProc u | oscProcfm u | oscProcpm u | oscSync u | oscCycle u
  | envSetdecay u | envTrig u | envProc u | envActive u =>
    simpa [legalHeader, encodeHeader, Instr.wellFormed] using toNat_setWidth_le_two u
  | oscSyncif u v =>
    simpa [legalHeader, encodeHeader, Instr.wellFormed] using
      congrArg₂ and (toNat_setWidth_le_two u) (toNat_setWidth_le_two v)
  | vcfSetmode m =>
    have hm : (m.setWidth 4).toNat ≤ 1 := by revert m; decide
    simpa [legalHeader, encodeHeader, Instr.wellFormed] using hm
  | mmSetslot n =>
    have hn : (n.setWidth 4).toNat ≤ 3 := by revert n; decide
    simpa [legalHeader, encodeHeader, Instr.wellFormed] using hn
  | mmSetsrc n => simp [legalHeader, encodeHeader, Instr.wellFormed, sourceInputInRange]

/-! Selectors within their ranges are 0 under their masks. -/

theorem and_whole_mask {f : BitVec 4} (h : (f.toNat == 0) = true) : f &&& 0xF = 0 := by
  revert f; decide

theorem and_instance_mask {f : BitVec 4} (h : decide (f.toNat ≤ 2) = true) : f &&& 0xC = 0 := by
  revert f; decide

theorem and_slot_mask {f : BitVec 4} (h : decide (f.toNat ≤ 3) = true) : f &&& 0xC = 0 := by
  revert f; decide

theorem and_mode_mask {f : BitVec 4} (h : decide (f.toNat ≤ 1) = true) : f &&& 0xE = 0 := by
  revert f; decide

section
variable {w : Word} {u x y : BitVec 4}

theorem and_masks_whole (h : (u.toNat == 0 && x.toNat == 0 && y.toNat == 0) = true) :
    u &&& 0xF = 0 ∧ x &&& 0xF = 0 ∧ y &&& 0xF = 0 := by
  simp only [Bool.and_eq_true] at h
  obtain ⟨⟨hu, hx⟩, hy⟩ := h
  exact ⟨and_whole_mask hu, and_whole_mask hx, and_whole_mask hy⟩

theorem and_masks_instance (h : (decide (u.toNat ≤ 2) && x.toNat == 0 && y.toNat == 0) = true) :
    u &&& 0xC = 0 ∧ x &&& 0xF = 0 ∧ y &&& 0xF = 0 := by
  simp only [Bool.and_eq_true] at h
  obtain ⟨⟨hu, hx⟩, hy⟩ := h
  exact ⟨and_instance_mask hu, and_whole_mask hx, and_whole_mask hy⟩

/-- A header with the opcode of row `n`, whose fields are 0 under the masks of the row, selects a row. -/
theorem exists_selects_of_fields (n : Nat) (hn : n < rows.length) {k : Nat} {mu mx my : BitVec 4}
    (hopc : (hdrOpc w).toNat = k) (hzero : hdrZero w = 0)
    (h : hdrUnit w &&& mu = 0 ∧ hdrX w &&& mx = 0 ∧ hdrY w &&& my = 0)
    (hrow : (hdrOpc rows[n].pattern).toNat = k)
    (hmask : rows[n].mask = 0xFF#8 ++ mu ++ mx ++ my ++ 0xFFF#12) :
    ∃ r ∈ rows, r.selects w = true := by
  have hr := List.getElem_mem hn
  obtain ⟨hu, hx, hy⟩ := h
  refine ⟨rows[n], hr, ?_⟩
  rw [Row.selects_iff, hmask, fields_pattern _ hr, and_mask_eq_iff]
  exact ⟨BitVec.eq_of_toNat_eq (hopc.trans hrow.symm), hu, hx, hy, hzero⟩

end

/-- A legal header selects a row: each opcode of the list is that of one row, in the order of the table,
and the ranges of its selectors leave zeros under the masks of the row. -/
theorem exists_selects_of_legalHeader {w : Word} (h : legalHeader w = true) :
    ∃ r ∈ rows, r.selects w = true := by
  rw [legalHeader, Bool.and_eq_true, decide_eq_true_eq] at h
  obtain ⟨hzero, h⟩ := h
  split at h <;> rename_i hopc
  · exact exists_selects_of_fields 0 (by decide) hopc hzero (and_masks_whole h) rfl rfl
  · exact exists_selects_of_fields 1 (by decide) hopc hzero (and_masks_whole h) rfl rfl
  · exact exists_selects_of_fields 2 (by decide) hopc hzero (and_masks_whole h) rfl rfl
  · exact exists_selects_of_fields 3 (by decide) hopc hzero (and_masks_instance h) rfl rfl
  · exact exists_selects_of_fields 4 (by decide) hopc hzero (and_masks_instance h) rfl rfl
  · exact exists_selects_of_fields 5 (by decide) hopc hzero (and_masks_instance h) rfl rfl
  · exact exists_selects_of_fields 6 (by decide) hopc hzero (and_masks_instance h) rfl rfl
  · exact exists_selects_of_fields 7 (by decide) hopc hzero (and_masks_instance h) rfl rfl
  · exact exists_selects_of_fields 8 (by decide) hopc hzero (and_masks_instance h) rfl rfl
  · exact exists_selects_of_fields 9 (by decide) hopc hzero (and_masks_instance h) rfl rfl
  · simp only [Bool.and_eq_true] at h
    obtain ⟨⟨hu, hx⟩, hy⟩ := h
    exact exists_selects_of_fields 10 (by decide) hopc hzero
      ⟨and_instance_mask hu, and_instance_mask hx, and_whole_mask hy⟩ rfl rfl
  · exact exists_selects_of_fields 11 (by decide) hopc hzero (and_masks_instance h) rfl rfl
  · exact exists_selects_of_fields 12 (by decide) hopc hzero (and_masks_instance h) rfl rfl
  · exact exists_selects_of_fields 13 (by decide) hopc hzero (and_masks_instance h) rfl rfl
  · exact exists_selects_of_fields 14 (by decide) hopc hzero (and_masks_instance h) rfl rfl
  · exact exists_selects_of_fields 15 (by decide) hopc hzero (and_masks_whole h) rfl rfl
  · exact exists_selects_of_fields 16 (by decide) hopc hzero (and_masks_whole h) rfl rfl
  · simp only [Bool.and_eq_true] at h
    obtain ⟨⟨hu, hx⟩, hy⟩ := h
    exact exists_selects_of_fields 17 (by decide) hopc hzero
      ⟨and_whole_mask hu, and_mode_mask hx, and_whole_mask hy⟩ rfl rfl
  · exact exists_selects_of_fields 18 (by decide) hopc hzero (and_masks_whole h) rfl rfl
  · exact exists_selects_of_fields 19 (by decide) hopc hzero
      ⟨and_slot_mask h, BitVec.and_zero, BitVec.and_zero⟩ rfl rfl
  · simp only [Bool.and_eq_true] at h
    obtain ⟨⟨-, hx⟩, hy⟩ := h
    exact exists_selects_of_fields 20 (by decide) hopc hzero
      ⟨BitVec.and_zero, and_whole_mask hx, and_whole_mask hy⟩ rfl rfl
  · exact exists_selects_of_fields 21 (by decide) hopc hzero (and_masks_whole h) rfl rfl
  · simp only [Bool.and_eq_true] at h
    obtain ⟨hu, hx⟩ := h
    exact exists_selects_of_fields 22 (by decide) hopc hzero
      ⟨and_whole_mask hu, and_whole_mask hx, BitVec.and_zero⟩ rfl rfl
  · exact absurd h Bool.false_ne_true

theorem legalHeader_of_decoded {p : Packet} {i : Instr} (h : decodePacket p = .instr i) :
    legalHeader p.w0 = true := by
  obtain ⟨r, hr, hsel, rfl, hw⟩ := decodePacket_eq_instr h
  rw [← encodeHeader_build hr hsel, legalHeader_encodeHeader, hw]

theorem decoded_of_legalHeader {p : Packet} (h : legalHeader p.w0 = true) :
    ∃ i, i.wellFormed = true ∧ encodeHeader i = p.w0 ∧ decodePacket p = .instr i := by
  obtain ⟨r, hr, hsel⟩ := exists_selects_of_legalHeader h
  have hheader := encodeHeader_build hr hsel
  have hw : (r.build p).wellFormed = true := by rw [← legalHeader_encodeHeader, hheader, h]
  exact ⟨r.build p, hw, hheader, by rw [decodePacket_of_selects hr hsel, if_pos hw]⟩

end Sys2Proof

namespace Sys2Proof.Machine

open Sys2Proof.F32

/-- Settles O4: the packet decodes exactly where its header is legal. -/
theorem illegalHeaderIsRefused : Obligations.IllegalHeaderIsRefused := by
  refine fun s p rest hport => ⟨fun h => ?_, fun h => ?_⟩
  · cases hd : decodePacket p with
    | instr i => exact absurd (h.symm.trans (legalHeader_of_decoded hd)) Bool.false_ne_true
    | refused e =>
      rw [step_of_packet hport, hd]
      rfl
  · obtain ⟨i, hw, hheader, hd⟩ := decoded_of_legalHeader h
    exact ⟨i, hw, hheader, step_of_decoded hport hd⟩

/-! ### `VCF.PROC` (R173) -/

theorem exec_vcfProc_done {a : Sample} {s : State} (hp : s.prepared = true) (ha : finite a = true)
    (hv : (filterValues s.vcf a).all finite = true) :
    exec (.vcfProc a) s =
      .next (respond (putVcf s (filtered s.vcf a)) (filterOutput s.vcf a)) := by
  change answer s (whenPrepared s (needFinite [a] (needFinite (filterValues s.vcf a) _))) = _
  rw [whenPrepared_of_prepared hp, needFinite_one ha, needFinite, if_pos hv, answer_eq, settle_done]

theorem exec_vcfProc_refused {a : Sample} {s : State} (hp : s.prepared = true)
    (h : finite a = false ∨ (filterValues s.vcf a).all finite = false) :
    exec (.vcfProc a) s = .next (raiseStatus .badOperand s) := by
  change answer s (whenPrepared s (needFinite [a] (needFinite (filterValues s.vcf a) _))) = _
  rw [whenPrepared_of_prepared hp]
  cases ha : finite a with
  | false => rw [needFinite_of_not ha, answer_eq, settle_refuse]
  | true =>
    rw [needFinite_one ha, needFinite, if_neg (by simpa [ha] using h), answer_eq, settle_refuse]

theorem filterOutput_eq_ite (v : Vcf) (a : Sample) : filterOutput v a =
    if v.mode = .lowpass then (filtered v a).stage.u3 else sub a (filtered v a).stage.u3 := by
  unfold filterOutput
  cases v.mode <;> simp only [if_true, if_false, reduceCtorEq]

/-- The values that `VCF.PROC` checks beside its operand, one by one. -/
theorem all_finite_filterValues_iff (v : Vcf) (a : Sample) :
    (filterValues v a).all finite = true ↔
      finite (feedback v) = true ∧ finite (filtered v a).stage.u0 = true ∧
        finite (filtered v a).stage.u1 = true ∧ finite (filtered v a).stage.u2 = true ∧
        finite (filtered v a).stage.u3 = true ∧ finite (filterOutput v a) = true := by
  simp [filterValues, Bank4.toList]

/-- Settles O40: the stages written are those of the ladder, and the checks of the model are those of the
statement. -/
theorem vcfProcStepsTheLadder : Obligations.VcfProcStepsTheLadder := by
  intro a s hp g st fb u v0 y0 v1 y1 v2 y2 v3 y3 next out
  have hnext : filtered s.vcf a = { s.vcf with stage := next } := by
    simp only [filtered, filterRun, ladder, stageStep, feedback]
    rfl
  have hout : filterOutput s.vcf a = out := by
    rw [filterOutput_eq_ite, hnext]
  have hfb : feedback s.vcf = fb := rfl
  have hvalues := all_finite_filterValues_iff s.vcf a
  rw [hfb, hout, hnext] at hvalues
  refine ⟨rfl, fun ha hf h0 h1 h2 h3 hfin => ?_, fun h => exec_vcfProc_refused hp ?_⟩
  · rw [exec_vcfProc_done hp ha (hvalues.2 ⟨hf, h0, h1, h2, h3, hfin⟩), hout, hnext]
    rfl
  · simpa only [← Bool.not_eq_true, hvalues, not_and_or] using h

end Sys2Proof.Machine

namespace Sys2Proof.F32

/-! ### A finite result has finite operands (R231, R232) -/

theorem finite_iff_not (x : Sample) : finite x = true ↔ isNaN x = false ∧ isInf x = false := by
  unfold finite isNaN isInf
  simp only [decide_eq_true_eq, decide_eq_false_iff_not]
  omega

theorem not_finite_nan : finite nan = false := by decide

theorem not_finite_inf (s : Bool) : finite (pack s infBits) = false := by
  rw [finite_pack s infBits_lt]
  rfl

/-- A sum with an operand that is not finite is a NaN or that operand. -/
theorem finite_of_finite_add {a b : Sample} (h : finite (add a b) = true) :
    finite a = true ∧ finite b = true := by
  rw [finite_iff_not a, finite_iff_not b]
  unfold add at h
  split_ifs at h with hnan ha _ hb
  · simp [not_finite_nan] at h
  · simp [not_finite_nan] at h
  · simp [isInf_of_finite h] at ha
  · simp [isInf_of_finite h] at hb
  all_goals
    simp only [Bool.or_eq_true, not_or, Bool.not_eq_true] at hnan ha hb
    exact ⟨⟨hnan.1, ha⟩, hnan.2, hb⟩

/-- A product with an operand that is not finite is a NaN or an infinity. -/
theorem finite_of_finite_mul {a b : Sample} (h : finite (mul a b) = true) :
    finite a = true ∧ finite b = true := by
  rw [finite_iff_not a, finite_iff_not b]
  unfold mul at h
  split_ifs at h with hnan hinf
  · simp [not_finite_nan] at h
  · simp [not_finite_nan] at h
  · simp [not_finite_inf] at h
  · simp only [Bool.or_eq_true, not_or, Bool.not_eq_true] at hnan hinf
    exact ⟨⟨hnan.1, hinf.1⟩, hnan.2, hinf.2⟩

/-- The dividend is finite; the divisor may be an infinity. -/
theorem finite_of_finite_div {a b : Sample} (h : finite (div a b) = true) : finite a = true := by
  rw [finite_iff_not a]
  unfold div at h
  split_ifs at h with hnan ha
  · simp [not_finite_nan] at h
  · simp [not_finite_nan] at h
  · simp [not_finite_inf] at h
  all_goals
    simp only [Bool.or_eq_true, not_or, Bool.not_eq_true] at hnan ha
    exact ⟨hnan.1, ha⟩

end Sys2Proof.F32

namespace Sys2Proof.Machine

open Sys2Proof.F32

/-! ### The status of a command (R95, R302 to R305) -/

/-- The status a reply ends with (R300). -/
def Reply.status : Reply → Status
  | .done _ _ => .ok
  | .refuse st => st

theorem rspStatus_settle (s : State) (r : Reply) : (settle s r).rspStatus = r.status.code := by
  cases r <;> rfl

theorem Status.code_inj : ∀ {st st' : Status}, st.code = st'.code → st = st'
  | .ok, .ok, _ => rfl
  | .illegal, .illegal, _ => rfl
  | .notPrepared, .notPrepared, _ => rfl
  | .badOperand, .badOperand, _ => rfl

/-- Whether a check of steps (3) and (4) of R95 refuses a command. -/
def refusesValue (s : State) (i : Instr) : Bool := badOperand s i || computesIllegalValue s i

section
variable {i : Instr} {s : State}

theorem statusOf_illegal (h : i.wellFormed = false) : statusOf s i = .illegal := if_pos h

theorem statusOf_notPrepared (hw : i.wellFormed = true) (hn : i.needsPrepare = true)
    (hp : s.prepared = false) : statusOf s i = .notPrepared := by
  simp [statusOf, hw, hn, hp]

theorem statusOf_checked (hw : i.wellFormed = true) (hp : i.needsPrepare = true → s.prepared = true) :
    statusOf s i = if refusesValue s i then .badOperand else .ok := by
  have hready : ¬(i.needsPrepare = true ∧ s.prepared = false) := fun h => by simp [hp h.1] at h
  simp [statusOf, hw, hready, refusesValue]

end

/-- A reply past the first two steps of R95: `BAD_OPERAND` where `b` is true, and done elsewhere. -/
def Reply.BadIff (b : Bool) (r : Reply) : Prop := r.status = if b then .badOperand else .ok

section
variable {b c : Bool} {r : Reply}

theorem Reply.BadIff.congr (h : r.BadIff b) (hb : b = c) : r.BadIff c := hb ▸ h

theorem badIff_done (t : State) (w : Word) : (Reply.done t w).BadIff false := rfl

/-! A check in front of a reply adds its refusal. -/

theorem badIff_check (h : r.BadIff b) :
    (if c then r else .refuse .badOperand).BadIff (!c || b) := by
  cases c with
  | true => simpa using h
  | false => rfl

theorem badIff_refuse_if (h : r.BadIff b) :
    (if c then .refuse .badOperand else r).BadIff (c || b) := by
  cases c with
  | true => rfl
  | false => exact h

theorem badIff_needFinite {xs : List Sample} (h : r.BadIff b) :
    (needFinite xs r).BadIff (!xs.all finite || b) := badIff_check h

theorem badIff_withCutoff {fs a : Sample} {f : Sample → Sample → Reply}
    (h : ∀ fc g, (f fc g).BadIff b) : (withCutoff fs a f).BadIff
      (!finite (tanArgument fs (clampCutoff fs a)) ||
        (!legalCoeff (cutoffCoeff fs (clampCutoff fs a)) || b)) :=
  (badIff_needFinite (badIff_check (h _ _))).congr (by simp)

end

/-- A finite advanced phase has a finite increment, so the check of the increment adds nothing. -/
theorem badIff_oscStep (k : Fin 3) (einc : Sample) (s : State) :
    (oscStep k einc s).BadIff (!finite (add (s.osc.get k).phase einc)) := by
  refine (badIff_needFinite (badIff_done _ _)).congr ?_
  cases h : finite (add (s.osc.get k).phase einc) with
  | true => simp [h, (finite_of_finite_add h).2]
  | false => simp [h]

theorem atOsc_of_instance {s : State} {u : BitVec 2} {k : Fin 3} (h : instanceOf u = some k)
    (f : Osc → Bool) : atOsc s u f = f (s.osc.get k) := by
  rw [atOsc, h]

section
variable {i : Instr} {s : State} {r : Reply} {u : BitVec 2}

theorem status_whenPrepared (hn : i.needsPrepare = true) (hw : i.wellFormed = true)
    (h : r.BadIff (refusesValue s i)) : (whenPrepared s r).status = statusOf s i := by
  rcases whenPrepared_cases s r with ⟨hp, he⟩ | ⟨hp, he⟩ <;> rw [he]
  · exact h.trans (statusOf_checked hw fun _ => hp).symm
  · exact (statusOf_notPrepared hw hn hp).symm

theorem status_withInstance {f : Fin 3 → Reply}
    (hw : instanceInRange u = false → i.wellFormed = false)
    (h : ∀ k, instanceOf u = some k → (f k).status = statusOf s i) :
    (withInstance u f).status = statusOf s i := by
  rcases withInstance_cases u f with ⟨k, hk, he⟩ | ⟨hu, he⟩ <;> rw [he]
  · exact h k hk
  · exact (statusOf_illegal (hw hu)).symm

/-- A command of one oscillator or envelope passes the steps of R95 in order. -/
theorem status_instance_command {f : Fin 3 → Reply} (hn : i.needsPrepare = true)
    (hw : i.wellFormed = instanceInRange u)
    (h : ∀ k, instanceOf u = some k → (f k).BadIff (refusesValue s i)) :
    (withInstance u fun k => whenPrepared s (f k)).status = statusOf s i :=
  status_withInstance hw.trans fun k hk =>
    status_whenPrepared hn (hw.trans ((instanceOf_isSome_iff u).1 ⟨k, hk⟩)) (h k hk)

end

/-! The values that a rule names on the way to a value it checks are finite where that one is. -/

theorem refusesValue_oscProcfm {u : BitVec 2} {a b : Sample} {s : State} {k : Fin 3}
    (hk : instanceOf u = some k) : refusesValue s (.oscProcfm u a b) = (!finite a || !finite b ||
      !finite (add (s.osc.get k).phase (mul (s.osc.get k).inc (fmFactor a b)))) := by
  rw [fmFactor]
  simp only [refusesValue, badOperand, computesIllegalValue, atOsc_of_instance hk]
  cases h : finite (add (s.osc.get k).phase (mul (s.osc.get k).inc (add c1 (mul (mul a b) c4)))) with
  | false => simp
  | true =>
    have hinc := (finite_of_finite_add h).2
    have hfactor := (finite_of_finite_mul hinc).2
    have hprod := (finite_of_finite_add hfactor).2
    simp [hinc, hfactor, hprod, (finite_of_finite_mul hprod).1]

theorem refusesValue_oscProcpm {u : BitVec 2} {a : Sample} {s : State} {k : Fin 3}
    (hk : instanceOf u = some k) : refusesValue s (.oscProcpm u a) = (!finite a ||
      !finite (add (s.osc.get k).phase (mul (s.osc.get k).inc (pmFactor a)))) := by
  rw [pmFactor]
  simp only [refusesValue, badOperand, computesIllegalValue, atOsc_of_instance hk]
  cases h : finite (add (s.osc.get k).phase (mul (s.osc.get k).inc (Num.exp2 (div a c12)))) with
  | false => simp
  | true =>
    have hinc := (finite_of_finite_add h).2
    simp [hinc, (finite_of_finite_mul hinc).2]

theorem refusesValue_vcfSetcut (a : Sample) (s : State) : refusesValue s (.vcfSetcut a) = (!finite a ||
    (!finite (tanArgument s.fs (clampCutoff s.fs a)) ||
      !legalCoeff (cutoffCoeff s.fs (clampCutoff s.fs a)))) := by
  simp only [refusesValue, badOperand, computesIllegalValue]
  cases h : finite (tanArgument s.fs (clampCutoff s.fs a)) with
  | false => simp
  | true =>
    have hpi : finite (mul cPi (clamp a c20 (mul c0_45 s.fs))) = true := finite_of_finite_div h
    simp [hpi]

/-- The reply of every command has the status of `statusOf`: its guards are the steps of R95 in order, and
its checks are those of `refusesValue`. -/
theorem exec_status (i : Instr) (s : State) :
    ∃ r : Reply, exec i s = answer s r ∧ r.status = statusOf s i := by
  cases i with
  | nop | rderr => exact ⟨_, rfl, rfl⟩
  | prepare a =>
    refine ⟨_, rfl, .trans (badIff_needFinite <| badIff_refuse_if <| badIff_withCutoff fun _ _ =>
      badIff_done _ _) ?_⟩
    rw [statusOf_checked rfl (fun h => by cases h)]
    simp [refusesValue, badOperand, computesIllegalValue, Bool.or_assoc]
  | oscSetfreq u a | envSetdecay u a =>
    exact ⟨_, rfl, status_instance_command rfl rfl fun k _ =>
      (badIff_needFinite (badIff_needFinite (badIff_done _ _))).congr
        (by simp [refusesValue, badOperand, computesIllegalValue])⟩
  | oscSetwave u a | envTrig u a =>
    exact ⟨_, rfl, status_instance_command rfl rfl fun k _ =>
      (badIff_needFinite (badIff_done _ _)).congr
        (by simp [refusesValue, badOperand, computesIllegalValue])⟩
  | oscProc u =>
    exact ⟨_, rfl, status_instance_command rfl rfl fun k hk => (badIff_oscStep k _ s).congr
      (by simp [refusesValue, badOperand, computesIllegalValue, atOsc_of_instance hk])⟩
  | oscProcfm u a b =>
    exact ⟨_, rfl, status_instance_command rfl rfl fun k hk =>
      (badIff_needFinite (badIff_oscStep k _ s)).congr
        (by simp [refusesValue_oscProcfm hk])⟩
  | oscProcpm u a =>
    exact ⟨_, rfl, status_instance_command rfl rfl fun k hk =>
      (badIff_needFinite (badIff_oscStep k _ s)).congr
        (by simp [refusesValue_oscProcpm hk])⟩
  | oscSync u | oscCycle u | envProc u | envActive u =>
    exact ⟨_, rfl, status_instance_command rfl rfl fun k _ => badIff_done _ _⟩
  | oscSyncif u v =>
    refine ⟨_, rfl, status_withInstance (fun hu => by simp [Instr.wellFormed, hu]) fun k hk =>
      status_instance_command rfl ?_ fun m _ => badIff_done _ _⟩
    simp [Instr.wellFormed, (instanceOf_isSome_iff u).1 ⟨k, hk⟩]
  | vcfSetcut a =>
    exact ⟨_, rfl, status_whenPrepared rfl rfl <|
      (badIff_needFinite <| badIff_withCutoff fun _ _ => badIff_done _ _).congr
        (by simp [refusesValue_vcfSetcut])⟩
  | vcfProc a =>
    exact ⟨_, rfl, status_whenPrepared rfl rfl <|
      (badIff_needFinite (badIff_needFinite (badIff_done _ _))).congr
        (by simp [refusesValue, badOperand, computesIllegalValue])⟩
  | vcfSetmode | mmEval | mmRead =>
    exact ⟨_, rfl, status_whenPrepared rfl rfl (badIff_done _ _)⟩
  | vcfSetres a | mmSetslot _ _ _ a =>
    exact ⟨_, rfl, status_whenPrepared rfl rfl <| (badIff_needFinite (badIff_done _ _)).congr
      (by simp [refusesValue, badOperand, computesIllegalValue])⟩
  | mmSetsrc n a =>
    refine ⟨_, exec_mmSetsrc n a s, ?_⟩
    cases hn : sourceInputInRange n with
    | false => exact (statusOf_illegal (i := .mmSetsrc n a) hn).symm
    | true =>
      exact status_whenPrepared rfl hn <| (badIff_needFinite (badIff_done _ _)).congr
        (by simp [refusesValue, badOperand, computesIllegalValue])

/-- Settles O9: the status is that of the reply, and its sticky bit that of the flags. The premise on `FS` is
not needed: a quotient is finite only where its dividend is, whatever the divisor. -/
theorem statusFollowsThePriorityOrder : Obligations.StatusFollowsThePriorityOrder := by
  intro i s _
  obtain ⟨r, he, hr⟩ := exec_status i s
  obtain ⟨st, hst, hflags⟩ := errflags_exec (he.trans (answer_eq s r))
  have hcode : (settle s r).rspStatus = (statusOf s i).code := by rw [rspStatus_settle, hr]
  have hsame : st = statusOf s i := Status.code_inj (hst.symm.trans hcode)
  exact ⟨_, he, hcode, hsame ▸ hflags⟩

end Sys2Proof.Machine
end

section
/-! PROOFS of the oscillator family (R110 to R128): the oscillator commands and their encodings, the cycle
flag, and the range of a sample. -/

namespace Sys2Proof

/-! ### The encoding of a command of one oscillator or envelope (R83, R86) -/

/-- A header as the bitwise or of its fields, each shifted to its place (R83). -/
theorem header_eq_or (opc : BitVec 8) (unit x y : BitVec 4) :
    header opc unit x y = opc.setWidth 32 <<< 24 ||| unit.setWidth 32 <<< 20 |||
      x.setWidth 32 <<< 16 ||| y.setWidth 32 <<< 12 := by
  apply BitVec.eq_of_getLsbD_eq
  intro i hi
  simp only [header, BitVec.getLsbD_append, BitVec.getLsbD_or, BitVec.getLsbD_shiftLeft,
    BitVec.getLsbD_setWidth]
  interval_cases i <;> simp [BitVec.getLsbD_of_ge]

section
variable {c : Instr} {opc : BitVec 8} {u v : BitVec 2} {w : Word}

/-- The packet of a command with a number in `UNIT` and one in `X`. -/
theorem encode_of_two_instances (h : encodeHeader c = header opc (u.setWidth 4) (v.setWidth 4) 0)
    (hw : opc.setWidth 32 <<< 24 = w) :
    encode c = ⟨w ||| u.setWidth 32 <<< 20 ||| v.setWidth 32 <<< 16, encodeA c, encodeB c⟩ := by
  simp [encode, h, header_eq_or, hw]

/-- The packet of a command with a number in `UNIT` alone. -/
theorem encode_of_instance (h : encodeHeader c = header opc (u.setWidth 4) 0 0)
    (hw : opc.setWidth 32 <<< 24 = w) :
    encode c = ⟨w ||| u.setWidth 32 <<< 20, encodeA c, encodeB c⟩ := by
  simp [encode, h, header_eq_or, hw]

end

end Sys2Proof

namespace Sys2Proof.Machine

open Sys2Proof.F32

/-! ### A command of one oscillator or envelope in a prepared block (R95) -/

/-- Past the first two steps of R95, a command settles its reply at the oscillator or envelope it names. -/
theorem answer_instance {u : BitVec 2} {k : Fin 3} {s : State} (hu : u.toNat = k.val)
    (hp : s.prepared = true) (f : Fin 3 → Reply) :
    answer s (withInstance u fun k => whenPrepared s (f k)) = .next (settle s (f k)) := by
  rw [withInstance_some ((instanceOf_eq_some_iff u k).2 hu), whenPrepared_of_prepared hp, answer_eq]

/-- A check refuses where it fails itself or where what it guards refuses. -/
theorem needFinite_eq_refuse {xs : List Sample} {body : Reply}
    (h : xs.all finite = false ∨ body = .refuse .badOperand) :
    needFinite xs body = .refuse .badOperand := by
  rcases needFinite_cases xs body with ⟨hx, he⟩ | ⟨-, he⟩
  · exact he.trans (h.resolve_left (by simp [hx]))
  · exact he

theorem all_finite_two_eq_false_iff (x y : Sample) :
    [x, y].all finite = false ↔ finite x = false ∨ finite y = false := by
  simp only [List.all_cons, List.all_nil, Bool.and_true, Bool.and_eq_false_iff]

/-! ### Setting the frequency and the morph (R110, R111) -/

/-- Settles O20: the operand and then the quotient are checked, and each check refuses by itself. -/
theorem oscSetfreqWritesTheIncrement : Obligations.OscSetfreqWritesTheIncrement := by
  intro i k a s hi hp
  have he : exec (.oscSetfreq i a) s = .next (settle s (needFinite [a] (needFinite [div a s.fs]
      (.done (putOsc s k { s.osc.get k with freq := a, inc := div a s.fs }) 0)))) :=
    answer_instance hi hp _
  refine ⟨encode_of_instance rfl rfl, fun ha hinc => ?_, fun h => ?_⟩
  · rw [he, needFinite_one ha, needFinite_one hinc]
    rfl
  · rw [he, needFinite_eq_refuse (h.imp (by simp) (needFinite_of_not · _))]
    rfl

/-- Settles O21: the operand alone is checked. -/
theorem oscSetwaveClampsTheMorph : Obligations.OscSetwaveClampsTheMorph := by
  intro i k a s hi hp
  have he : exec (.oscSetwave i a) s = .next (settle s (needFinite [a]
      (.done (putOsc s k { s.osc.get k with morph := clamp a c0 c1 }) 0))) :=
    answer_instance hi hp _
  refine ⟨encode_of_instance rfl rfl, fun ha => ?_, fun h => ?_⟩
  · rw [he, needFinite_one ha]
    rfl
  · rw [he, needFinite_of_not h]
    rfl

/-! ### The process commands (R122 to R125) -/

section
variable {s : State} {k : Fin 3} {einc : Sample}

theorem oscStep_done (hinc : finite einc = true)
    (hu : finite (add (s.osc.get k).phase einc) = true) :
    oscStep k einc s = .done
      (putOsc s k { s.osc.get k with
        phase := wrap1 (add (s.osc.get k).phase einc)
        cyc := wrapFlag (add (s.osc.get k).phase einc) })
      (Wave.wave (s.osc.get k).morph (s.osc.get k).phase) := needFinite_two hinc hu _

theorem oscStep_refused (h : finite einc = false ∨ finite (add (s.osc.get k).phase einc) = false) :
    oscStep k einc s = .refuse .badOperand :=
  needFinite_eq_refuse (.inl ((all_finite_two_eq_false_iff _ _).2 h))

end

/-- Settles O22: the common step at the increment. -/
theorem oscProcAdvancesThePhase : Obligations.OscProcAdvancesThePhase := by
  intro i k s hi hp o u
  have he : exec (.oscProc i) s = .next (settle s (oscStep k o.inc s)) := answer_instance hi hp _
  refine ⟨encode_of_instance rfl rfl, fun hinc hu => ?_, fun h => ?_⟩
  · rw [he, oscStep_done hinc hu]
    rfl
  · rw [he, oscStep_refused h]
    rfl

/-- Settles O23: the common step at the scaled increment, after the check of both operands. -/
theorem oscProcfmScalesTheIncrement : Obligations.OscProcfmScalesTheIncrement := by
  intro i k a b s hi hp o einc u
  have he : exec (.oscProcfm i a b) s = .next (settle s (needFinite [a, b] (oscStep k einc s))) :=
    answer_instance hi hp _
  refine ⟨encode_of_instance rfl rfl, fun ha hb hinc hu => ?_, fun h => ?_⟩
  · rw [he, needFinite_two ha hb, oscStep_done hinc hu]
    rfl
  · rw [he, needFinite_eq_refuse ((or_assoc.2 h).imp (all_finite_two_eq_false_iff a b).2
      oscStep_refused)]
    rfl

/-- Settles O24: the common step at the scaled increment, after the check of the operand. -/
theorem oscProcpmScalesTheIncrement : Obligations.OscProcpmScalesTheIncrement := by
  intro i k a s hi hp o einc u
  have he : exec (.oscProcpm i a) s = .next (settle s (needFinite [a] (oscStep k einc s))) :=
    answer_instance hi hp _
  refine ⟨encode_of_instance rfl rfl, fun ha hinc hu => ?_, fun h => ?_⟩
  · rw [he, needFinite_one ha, oscStep_done hinc hu]
    rfl
  · rw [he, needFinite_eq_refuse (h.imp (by simp) oscStep_refused)]
    rfl

/-! ### Synchronisation (R126 to R128) -/

section
variable {s : State} {i : BitVec 2} {k : Fin 3}

theorem exec_oscSync (hi : i.toNat = k.val) (hp : s.prepared = true) :
    exec (.oscSync i) s = .next (respond (putOsc s k { s.osc.get k with phase := c0 }) 0) :=
  answer_instance hi hp _

theorem exec_oscCycle (hi : i.toNat = k.val) (hp : s.prepared = true) :
    exec (.oscCycle i) s = .next (respond s (resultB (s.osc.get k).cyc)) :=
  answer_instance hi hp _

theorem exec_oscSyncif {j : BitVec 2} {m : Fin 3} (hi : i.toNat = k.val) (hj : j.toNat = m.val)
    (hp : s.prepared = true) :
    exec (.oscSyncif i j) s = .next (respond
      (if (s.osc.get m).cyc then putOsc s k { s.osc.get k with phase := c0 } else s)
      (resultB (s.osc.get m).cyc)) := by
  change answer s (withInstance i fun k => withInstance j fun m => whenPrepared s _) = _
  rw [withInstance_some ((instanceOf_eq_some_iff i k).2 hi)]
  exact answer_instance hj hp _

end

/-- Settles O25: neither command checks a value. -/
theorem oscSyncAndCycle : Obligations.OscSyncAndCycle := fun _ _ _ hi hp =>
  ⟨encode_of_instance rfl rfl, encode_of_instance rfl rfl, exec_oscSync hi hp, exec_oscCycle hi hp⟩

/-- Settles O26: by the master's cycle flag, which the result of `OSC.CYCLE` tells. -/
theorem oscSyncifIsCycleThenSync : Obligations.OscSyncifIsCycleThenSync := by
  intro i j k m s hi hj hp
  have hif := exec_oscSyncif hi hj hp
  have hcycle := exec_oscCycle hj hp
  refine ⟨encode_of_two_instances rfl rfl, ?_⟩
  cases hcyc : (s.osc.get m).cyc with
  | true =>
    rw [hcyc] at hif hcycle
    exact ⟨hif, _, hcycle, fun _ => ⟨_, exec_oscSync (s := respond s 1) hi hp, hif⟩,
      fun h => absurd h (by decide : (1 : Word) ≠ 0)⟩
  | false =>
    rw [hcyc] at hif hcycle
    exact ⟨hif, _, hcycle, fun h => absurd h (by decide : (0 : Word) ≠ 1), fun _ => hif⟩

/-! ### Only a process command writes the cycle flag of its oscillator (R122, R337) -/

/-- What a done reply says where its number is in range, through the first two steps of R95. -/
theorem sat_instance_command {u : BitVec 2} {s : State} {P : State → Word → Prop} {f : Fin 3 → Reply}
    (h : ∀ k, instanceOf u = some k → (f k).Sat P) :
    (withInstance u fun k => whenPrepared s (f k)).Sat P := by
  rcases withInstance_cases u fun k => whenPrepared s (f k) with ⟨k, hk, he⟩ | ⟨-, he⟩ <;> rw [he]
  · exact sat_whenPrepared fun _ => h k hk
  · exact Reply.sat_refuse P _

/-- That a command is a process command of the oscillator numbered `u` (R123 to R125). -/
def ProcessOf (u : BitVec 2) (i : Instr) : Prop :=
  i = .oscProc u ∨ (∃ a b, i = .oscProcfm u a b) ∨ ∃ a, i = .oscProcpm u a

/-- A process command is answered by a reply that, if done, is that of the common step of its
oscillator. -/
theorem ProcessOf.exec_sat {u : BitVec 2} {i : Instr} {s : State} {P : State → Word → Prop}
    (hi : ProcessOf u i) (h : ∀ k einc, instanceOf u = some k → (oscStep k einc s).Sat P) :
    ∃ r : Reply, exec i s = answer s r ∧ r.Sat P := by
  rcases hi with rfl | ⟨a, b, rfl⟩ | ⟨a, rfl⟩
  · exact ⟨_, rfl, sat_instance_command fun k hk => h k _ hk⟩
  · exact ⟨_, rfl, sat_instance_command fun k hk => sat_needFinite fun _ => h k _ hk⟩
  · exact ⟨_, rfl, sat_instance_command fun k hk => sat_needFinite fun _ => h k _ hk⟩

/-- Oscillator `k` of the state written has the cycle flag it had. -/
def KeepsCyc (k : Fin 3) (s t : State) : Prop := (t.osc.get k).cyc = (s.osc.get k).cyc

/-- A write of one oscillator that keeps its own flag keeps the flag of each. -/
theorem keepsCyc_putOsc {s : State} {k l : Fin 3} {o : Osc} (ho : o.cyc = (s.osc.get l).cyc) :
    KeepsCyc k s (putOsc s l o) := by
  rw [KeepsCyc, putOsc_osc, Bank3.get_set]
  split_ifs with h
  · rw [h, ho]
  · rfl

/-- A process command leaves the flags of the other oscillators. -/
theorem sat_oscStep_keepsCyc {s : State} {k l : Fin 3} (einc : Sample) (h : k ≠ l) :
    (oscStep l einc s).Sat fun t _ => KeepsCyc k s t :=
  sat_needFinite fun _ => congrArg Osc.cyc (Bank3.get_set_of_ne s.osc _ h)

/-- An oscillator command that is no process command keeps every cycle flag if it is done. -/
theorem exec_sat_keepsCyc_of_not_process {i : Instr} (k : Fin 3) (s : State) (hc : i.unitClass = 1)
    (hp : ∀ u, ¬ProcessOf u i) :
    ∃ r : Reply, exec i s = answer s r ∧ r.Sat fun t _ => KeepsCyc k s t := by
  cases i with
  | oscSetfreq u a =>
    exact ⟨_, rfl, sat_instance_command fun l _ => sat_needFinite fun _ => sat_needFinite fun _ =>
      keepsCyc_putOsc rfl⟩
  | oscSetwave u a =>
    exact ⟨_, rfl, sat_instance_command fun l _ => sat_needFinite fun _ => keepsCyc_putOsc rfl⟩
  | oscProc u => exact absurd (.inl rfl) (hp u)
  | oscProcfm u a b => exact absurd (.inr (.inl ⟨a, b, rfl⟩)) (hp u)
  | oscProcpm u a => exact absurd (.inr (.inr ⟨a, rfl⟩)) (hp u)
  | oscSync u => exact ⟨_, rfl, sat_instance_command fun l _ => keepsCyc_putOsc rfl⟩
  | oscCycle u => exact ⟨_, rfl, sat_instance_command fun l _ => rfl⟩
  | oscSyncif u v =>
    refine ⟨_, rfl, sat_withInstance fun l => sat_instance_command fun m _ => ?_⟩
    cases (s.osc.get m).cyc with
    | true => exact keepsCyc_putOsc rfl
    | false => exact rfl
  | _ => simp [Instr.unitClass, encodeHeader] at hc

/-- A command is answered by a reply that, if done, keeps the cycle flag of oscillator `k`, unless the
command is `PREPARE` or a process command of `k`. -/
theorem exec_sat_keepsCyc {i : Instr} {k : Fin 3} (s : State) (hprep : ∀ a, i ≠ .prepare a)
    (hproc : ∀ u : BitVec 2, u.toNat = k.val → ¬ProcessOf u i) :
    ∃ r : Reply, exec i s = answer s r ∧ r.Sat fun t _ => KeepsCyc k s t := by
  by_cases hp : ∃ u, ProcessOf u i
  · obtain ⟨u, hu⟩ := hp
    refine hu.exec_sat fun l einc hl => sat_oscStep_keepsCyc einc fun hkl => hproc u ?_ hu
    rw [hkl, (instanceOf_eq_some_iff u l).1 hl]
  · by_cases hc : i.unitClass = 1
    · exact exec_sat_keepsCyc_of_not_process k s hc (not_exists.1 hp)
    · obtain ⟨r, he, hr⟩ := exec_sat_classWrite i s hprep
      exact ⟨r, he, hr.mono fun t w hw => congrArg (fun b : Bank3 Osc => (b.get k).cyc) (hw.frame.1 hc)⟩

/-- Settles O27: any other command keeps the flag, done (`exec_sat_keepsCyc`) or refused. -/
theorem onlyProcessCommandsWriteTheCycleFlag : Obligations.OnlyProcessCommandsWriteTheCycleFlag := by
  intro i k s t h hchange
  by_contra hother
  obtain ⟨hprep, hproc⟩ := not_or.1 hother
  obtain ⟨r, he, hr⟩ := exec_sat_keepsCyc (k := k) s (fun a ha => hprep ⟨a, ha⟩)
    fun u hu hi => hproc ⟨u, hu, hi⟩
  rcases exec_sat_or_refused he hr h with ⟨t', w, hkeep, rfl⟩ | ⟨st, rfl⟩
  · exact hchange hkeep
  · exact hchange rfl

/-! ### The range of a sample (R119) -/

/-- Settles O29: a process command that is done answers a sample of the wave at a legal morph, and one that
is refused answers 0, which is in the range too: so the premise on the status is not needed. -/
theorem oscillatorOutputStaysInRange : Obligations.OscillatorOutputStaysInRange := by
  refine ⟨Wave.config_inRange, fun w p ph hw hp => Wave.inUnit_morph hw ph hp, ?_⟩
  rintro i s t hmorph ⟨u, hi⟩ h -
  obtain ⟨r, he, hr⟩ := ProcessOf.exec_sat (P := fun _ w => inUnit w = true) hi fun k einc _ =>
    sat_needFinite fun _ => Wave.inUnit_wave _ (hmorph k)
  rcases exec_sat_or_refused he hr h with ⟨t', w, hw, rfl⟩ | ⟨st, rfl⟩
  · exact hw
  · exact (by decide : inUnit 0 = true)

end Sys2Proof.Machine
end

section
/-! PROOFS of the envelope family (R150 to R154): the envelope commands and their encodings. -/

namespace Sys2Proof.Machine

open Sys2Proof.F32

/-! ### Setting the decay (R150) -/

/-- Settles O31: the operand and then the sample count are checked, and each check refuses by itself. -/
theorem envSetdecayWritesTheCoefficient : Obligations.EnvSetdecayWritesTheCoefficient := by
  intro j k a s hj hp
  have he : exec (.envSetdecay j a) s = .next (settle s (needFinite [a] (needFinite [mul a s.fs]
      (.done (putEnv s k { s.env.get k with decay := a, coeff := decayCoeff (mul a s.fs) }) 0)))) :=
    answer_instance hj hp _
  refine ⟨encode_of_instance rfl rfl, fun ha hn => ?_, fun h => ?_⟩
  · rw [he, needFinite_one ha, needFinite_one hn]
    rfl
  · rw [he, needFinite_eq_refuse (h.imp (by simp) (needFinite_of_not · _))]
    rfl

/-! ### The trigger (R151) -/

section
variable {j : BitVec 2} {k : Fin 3} {s : State}

theorem exec_envTrig (hj : j.toNat = k.val) (hp : s.prepared = true) (a : Sample) :
    exec (.envTrig j a) s = .next (settle s (needFinite [a]
      (.done (putEnv s k { s.env.get k with value := clamp a c0 c1, active := true }) 0))) :=
  answer_instance hj hp _

theorem exec_envTrig_done (hj : j.toNat = k.val) (hp : s.prepared = true) {a : Sample}
    (ha : finite a = true) :
    exec (.envTrig j a) s = .next (respond
      (putEnv s k { s.env.get k with value := clamp a c0 c1, active := true }) 0) := by
  rw [exec_envTrig hj hp, needFinite_one ha, settle_done]

end

/-- Settles O32: the operand alone is checked. -/
theorem envTrigSetsValueAndFlag : Obligations.EnvTrigSetsValueAndFlag := by
  intro j k a s hj hp
  refine ⟨encode_of_instance rfl rfl, exec_envTrig_done hj hp, fun ha => ?_⟩
  rw [exec_envTrig hj hp, needFinite_of_not ha]
  rfl

/-! ### The process command and the activity flag (R152, R153) -/

/-- Settles O33: by the two cases of a decayed envelope; no value is checked. -/
theorem envProcDecaysOrSnaps : Obligations.EnvProcDecaysOrSnaps := by
  intro j k s hj hp e
  refine ⟨encode_of_instance rfl rfl, fun h => ?_, fun h => ?_⟩
  · rw [exec_envProc hj hp, decayed_of_snaps h]
    rfl
  · rw [exec_envProc hj hp, decayed_of_not_snaps h]
    rfl

/-- Settles O34: no value is checked. -/
theorem envActiveReadsTheFlag : Obligations.EnvActiveReadsTheFlag := fun _ _ _ hj hp =>
  ⟨encode_of_instance rfl rfl, answer_instance hj hp _⟩

/-! ### A trigger and then a process command (R154) -/

/-- Settles O35: the trigger keeps the block prepared and writes the value that the process command
answers before its decay. -/
theorem triggerThenProcessAnswersTheVelocity : Obligations.TriggerThenProcessAnswersTheVelocity := by
  intro j a s hj hp ha
  obtain ⟨k, hk⟩ : ∃ k : Fin 3, j.toNat = k.val := ⟨⟨j.toNat, hj⟩, rfl⟩
  refine ⟨_, _, exec_envTrig_done hk hp ha, exec_envProc hk hp, rfl, ?_⟩
  simp only [respond_rspResult, respond_env, putEnv_env, Bank3.get_set_same]

end Sys2Proof.Machine
end

section
/-! PROOFS of the filter family (R171 to R175): the resonance and the mode, and the bounds inside which the
stages stay. -/

namespace Sys2Proof

/-! ### Bits 19:17 of a `VCF.SETMODE` header (R87, R172) -/

/-- The row of opcode 0x32 masks all of `X` but its bit 0. -/
theorem hdrX_mask_of_setmode : ∀ r ∈ rows, hdrOpc r.pattern = 0x32 → hdrX r.mask = 0xE := by decide

theorem extractLsb'_hdrX (w : Word) : (hdrX w).extractLsb' 1 3 = w.extractLsb' 17 3 := by
  apply BitVec.eq_of_getLsbD_eq
  intro i hi
  have hi4 : 1 + i < 4 := by omega
  simp [hdrX, hi, hi4, ← Nat.add_assoc]

/-- With all of `X` zero but its bit 0, header bits 19:17 are zero. -/
theorem extractLsb'_of_and_mode {w : Word} (h : hdrX w &&& 0xE = 0) : w.extractLsb' 17 3 = 0 := by
  rw [← extractLsb'_hdrX, hdrX_of_and_mode h]
  generalize hdrX0 w = m
  revert m
  decide

theorem decodePacket_of_setmode_bits {p : Packet} (hopc : hdrOpc p.w0 = 0x32)
    (hbits : p.w0.extractLsb' 17 3 ≠ 0) : decodePacket p = .refused .noRow := by
  refine decodePacket_of_no_row fun r hr hsel => hbits (extractLsb'_of_and_mode ?_)
  rw [← hdrX_mask_of_setmode r hr ((Row.opcode_of_selects hr hsel).trans hopc)]
  exact ((Row.selects_iff_fits hr).1 hsel).x

end Sys2Proof

namespace Sys2Proof.F32

/-! ### Products and differences of bounded samples (R232) -/

theorem finite_of_boundedBy {m x : Sample} (hm : finite m = true) (h : Machine.boundedBy m x = true) :
    finite x = true := ((boundedBy_iff hm).1 h).1

/-- A product of bounded samples is bounded by any sample not below the product of the bounds. -/
theorem boundedBy_mul {a b A B C : Sample} (hA : finite A = true) (hB : finite B = true)
    (hC : finite C = true) (hABC : value A * value B ≤ value C * 2 ^ 149)
    (ha : Machine.boundedBy A a = true) (hb : Machine.boundedBy B b = true) :
    Machine.boundedBy C (mul a b) = true := by
  obtain ⟨fa, ba⟩ := (boundedBy_iff hA).1 ha
  obtain ⟨fb, bb⟩ := (boundedBy_iff hB).1 hb
  have hprod : |value a * value b| ≤ value C * 2 ^ 149 := by
    rw [abs_mul]
    exact (mul_le_mul ba bb (abs_nonneg _) ((abs_nonneg _).trans ba)).trans hABC
  obtain ⟨h1, h2⟩ := abs_le.1 hprod
  refine (mul_rounds fa fb).within (by positivity) (by rwa [finite_neg]) hC ?_ ?_
  · rw [value_neg]; push_cast; linarith
  · push_cast; linarith

theorem boundedBy_neg {m x : Sample} (hm : finite m = true) (h : Machine.boundedBy m x = true) :
    Machine.boundedBy m (neg x) = true := by
  obtain ⟨hx, hb⟩ := (boundedBy_iff hm).1 h
  exact (boundedBy_iff hm).2 ⟨by rwa [finite_neg], by rwa [value_neg, abs_neg]⟩

/-- A sample in [0,1] is at most 1 in magnitude. -/
theorem boundedBy_c1_of_within {x : Sample} (h : within c0 c1 x = true) :
    Machine.boundedBy c1 x = true := by
  obtain ⟨h0, h1⟩ := Bool.and_eq_true_iff.1 h
  exact Bool.and_eq_true_iff.2 ⟨le_trans (by decide) h0, h1⟩

/-- `tanh` is at most 1 in magnitude, whatever its argument (R238; log entry 16). -/
theorem boundedBy_c1_tanh (x : Sample) : Machine.boundedBy c1 (Num.tanh x) = true := by
  have hle := Num.tanhMag_le (magBits x)
  have hc1 : magBits c1 < infBits := by decide
  have hmag : magBits (Num.tanh x) = Num.tanhMag (magBits x) :=
    magBits_pack _ ((hle.trans_lt hc1).trans infBits_lt)
  rw [← hmag] at hle
  refine (boundedBy_iff (by decide)).2 ⟨(finite_iff _).2 (hle.trans_lt hc1), ?_⟩
  rw [Int.abs_eq_natAbs, natAbs_value]
  exact Int.ofNat_le.2 ((magnitude_le_iff (hle.trans_lt hc1) hc1).2 hle)

end Sys2Proof.F32

namespace Sys2Proof.Machine

open Sys2Proof.F32

/-! ### Setting the resonance and the mode (R171, R172) -/

/-- Settles O38: the operand alone is checked. -/
theorem vcfSetresWritesTheFeedback : Obligations.VcfSetresWritesTheFeedback := by
  intro a s hp
  have he : exec (.vcfSetres a) s = .next (settle s (needFinite [a]
      (.done (putVcf s { s.vcf with res := clamp a c0 c1, k := mul c4 (clamp a c0 c1) }) 0))) :=
    congrArg (answer s) (whenPrepared_of_prepared hp _)
  refine ⟨rfl, fun ha => ?_, fun ha => ?_⟩
  · rw [he, needFinite_one ha]
    rfl
  · rw [he, needFinite_of_not ha]
    rfl

theorem exec_vcfSetmode {s : State} (hp : s.prepared = true) (m : BitVec 1) :
    exec (.vcfSetmode m) s = .next (respond (putVcf s { s.vcf with mode := modeOf m }) 0) :=
  congrArg (answer s) (whenPrepared_of_prepared hp _)

/-- Settles O39: no value is checked, and the row of the opcode masks bits 19:17. -/
theorem vcfSetmodeSelectsTheOutput : Obligations.VcfSetmodeSelectsTheOutput :=
  ⟨fun _ hp => ⟨exec_vcfSetmode hp 0, exec_vcfSetmode hp 1⟩, rfl, rfl,
    fun _ => decodePacket_of_setmode_bits⟩

/-! ### The ladder keeps the bounds of its stages (R173, R175) -/

/-- The powers of two from 2^23 up to the last finite one, in units of 2^-149, are values. -/
theorem rep_two_pow {j : Nat} (hj : j < 254) : Rep (2 ^ (23 + j)) := by
  have hfin : (j + 1) * 2 ^ 23 < infBits := by
    unfold infBits
    omega
  refine ⟨pack false ((j + 1) * 2 ^ 23), ?_, ?_⟩
  · rw [finite_pack _ (hfin.trans infBits_lt)]
    exact decide_eq_true hfin
  · rw [value_pack_false (hfin.trans infBits_lt), magnitude_eq, Nat.mul_div_cancel _ (by decide),
      Nat.add_sub_cancel, Nat.add_mul, Nat.add_sub_cancel_left, one_mul, ← pow_add]
    push_cast
    rfl

/-- A finite sample that is the power `2^k` in units of 2^-149. -/
structure IsTwoPow (x : Sample) (k : Nat) : Prop where
  isFinite : finite x = true
  value_eq : value x = 2 ^ k

theorem IsTwoPow.boundedBy_iff {m x : Sample} {k : Nat} (hm : IsTwoPow m k) :
    boundedBy m x = true ↔ finite x = true ∧ |value x| ≤ 2 ^ k :=
  hm.value_eq ▸ F32.boundedBy_iff hm.isFinite

/-- One stage with a coefficient in [0,1]: an input at most `m` and a stage at most `M = 2^26 * m` in
magnitude leave the output and the new stage at most `M`. -/
theorem boundedBy_stageStep {m M g u st : Sample} {k : Nat} (hk : k ≤ 227) (hm : IsTwoPow m k)
    (hM : IsTwoPow M (k + 26)) (hg : within c0 c1 g = true) (hu : boundedBy m u = true)
    (hst : boundedBy M st = true) :
    boundedBy M (stageStep g u st).y = true ∧ boundedBy M (stageStep g u st).next = true := by
  have hrepM : Rep (2 ^ 26 * 2 ^ k) := by
    rw [← pow_add, add_comm 26 k, show k + 26 = 23 + (k + 3) by omega]
    exact rep_two_pow (by omega)
  have hrepQ : Rep (2 ^ 24 * 2 ^ k) := by
    rw [← pow_add, show 24 + k = 23 + (1 + k) by omega]
    exact rep_two_pow (by omega)
  obtain ⟨fu, bu⟩ := hm.boundedBy_iff.1 hu
  rw [hM.boundedBy_iff, add_comm, pow_add] at hst
  obtain ⟨fst, bst⟩ := hst
  rw [hM.boundedBy_iff, hM.boundedBy_iff, add_comm, pow_add]
  exact stageStep_bounded hk hrepM hrepQ hg fu fst bu bst

/-- The bounds of the stages hold after a processed sample, whatever the input: the first stage is fed with
a `tanh`, and each other with an output inside the bound of the stage before it. -/
theorem Vcf.StagesBounded.filtered {v : Vcf} (h : v.StagesBounded) (hg : within c0 c1 v.g = true)
    (a : Sample) : (filtered v a).StagesBounded := by
  obtain ⟨h0, h1, h2, h3⟩ := h
  have p0 : IsTwoPow c1 149 := ⟨by decide, by decide⟩
  have p1 : IsTwoPow 0x4C800000 175 := ⟨by decide, by decide⟩
  have p2 : IsTwoPow 0x59800000 201 := ⟨by decide, by decide⟩
  have p3 : IsTwoPow 0x66800000 227 := ⟨by decide, by decide⟩
  have p4 : IsTwoPow 0x73800000 253 := ⟨by decide, by decide⟩
  obtain ⟨y0, z0⟩ := boundedBy_stageStep (by decide) p0 p1 hg (boundedBy_c1_tanh _) h0
  obtain ⟨y1, z1⟩ := boundedBy_stageStep (by decide) p1 p2 hg y0 h1
  obtain ⟨y2, z2⟩ := boundedBy_stageStep (by decide) p2 p3 hg y1 h2
  obtain ⟨-, z3⟩ := boundedBy_stageStep (by decide) p3 p4 hg y2 h3
  simp only [StagesBounded, Machine.filtered, filterRun, ladder]
  exact ⟨z0, z1, z2, z3⟩

/-- A coefficient in [0,1) lies in [0,1], as a stage asks. -/
theorem Vcf.Inv.within_g {fs : Sample} {v : Vcf} (h : v.Inv fs) : within c0 c1 v.g = true :=
  Bool.and_eq_true_iff.2 ⟨h.g_range.1, le_of_lt h.g_range.2⟩

/-! ### What a command does to the stages (R170 to R175) -/

/-- What a command other than `PREPARE` can leave in the stages: what they held, or, in a prepared block,
what one processed sample makes of them. -/
inductive StageWrite (s t : State) : Prop
  | keep (hp : t.prepared = s.prepared) (h : t.vcf.stage = s.vcf.stage)
  | filtered (a : Sample) (hp : s.prepared = true) (h : t.vcf = filtered s.vcf a)

theorem exec_sat_stageWrite (i : Instr) (s : State) (hi : ∀ a, i ≠ .prepare a) :
    ∃ r : Reply, exec i s = answer s r ∧ r.Sat fun t _ => StageWrite s t := by
  by_cases hc : i.unitClass = 3
  · cases i with
    | vcfSetcut a =>
      exact ⟨_, rfl, sat_whenPrepared fun _ => sat_needFinite fun _ => sat_withCutoff fun _ =>
        .keep rfl rfl⟩
    | vcfSetres a =>
      exact ⟨_, rfl, sat_whenPrepared fun _ => sat_needFinite fun _ => .keep rfl rfl⟩
    | vcfSetmode m => exact ⟨_, rfl, sat_whenPrepared fun _ => .keep rfl rfl⟩
    | vcfProc a =>
      exact ⟨_, rfl, sat_whenPrepared fun hp => sat_needFinite fun _ => sat_needFinite fun _ =>
        .filtered a hp rfl⟩
    | _ => simp [Instr.unitClass, encodeHeader] at hc
  · obtain ⟨r, he, hr⟩ := exec_sat_classWrite i s hi
    refine ⟨r, he, hr.mono fun t w hw => ?_⟩
    obtain ⟨-, -, hvcf, -, -, -, hprep, -⟩ := hw.frame
    exact .keep hprep (congrArg Vcf.stage (hvcf hc))

/-- If the block is prepared, its stages are inside their bounds. -/
def State.StagesSound (s : State) : Prop := s.prepared = true → s.vcf.StagesBounded

theorem StageWrite.stagesSound {s t : State} (h : StageWrite s t) (hs : s.Sound)
    (hb : s.StagesSound) : t.StagesSound := by
  cases h with
  | keep hp h =>
    rw [State.StagesSound, Vcf.StagesBounded, hp, h]
    exact hb
  | filtered a hp h =>
    rw [State.StagesSound, h]
    exact fun _ => (hb hp).filtered (hs hp).vcf.within_g a

theorem preparedVcf_stagesBounded (fc g : Sample) : (preparedVcf fc g).StagesBounded := by
  simp only [Vcf.StagesBounded, preparedVcf]
  decide

/-- A `PREPARE` that is done leaves +0.0 in every stage (R41). -/
theorem execPrepare_sat_stagesSound (a : Sample) (s : State) :
    ∃ r : Reply, exec (.prepare a) s = answer s r ∧ r.Sat fun t _ => t.StagesSound := by
  refine ⟨_, rfl, sat_needFinite fun _ => ?_⟩
  split
  · exact Reply.sat_refuse _ _
  · exact sat_withCutoff fun _ _ => preparedVcf_stagesBounded _ _

theorem State.StagesSound.exec {i : Instr} {s t : State} (hb : s.StagesSound) (hs : s.Sound)
    (h : exec i s = .next t) : t.StagesSound := by
  obtain ⟨r, he, hr⟩ : ∃ r : Reply, Machine.exec i s = answer s r ∧ r.Sat fun t _ => t.StagesSound := by
    by_cases hi : ∃ a, i = .prepare a
    · obtain ⟨a, rfl⟩ := hi
      exact execPrepare_sat_stagesSound a s
    · obtain ⟨r, he, hr⟩ := exec_sat_stageWrite i s fun a ha => hi ⟨a, ha⟩
      exact ⟨r, he, hr.mono fun _ _ hw => hw.stagesSound hs hb⟩
  rcases exec_sat_or_refused he hr h with ⟨u, w, hu, rfl⟩ | ⟨st, rfl⟩
  · exact hu
  · exact hb

theorem State.StagesSound.step {s t : State} (hb : s.StagesSound) (hs : s.Sound)
    (h : step s = .next t) : t.StagesSound := by
  rcases step_cases s with ⟨-, he⟩ | ⟨p, rest, -, ⟨e, -, he⟩ | ⟨i, -, he⟩⟩ <;> rw [he] at h
  · cases h
    exact hb
  · cases h
    exact hb
  · exact State.StagesSound.exec (s := { s with port := rest }) hb (fun hp => { hs hp with }) h

/-! ### `VCF.PROC` inside the bounds (R173, R243) -/

/-- The feedback is at most `2^104 * 4` in magnitude. -/
theorem Vcf.StagesBounded.boundedBy_feedback {fs : Sample} {v : Vcf} (h : v.StagesBounded)
    (hinv : v.Inv fs) : boundedBy 0x74800000 (feedback v) = true := by
  obtain ⟨-, -, -, h3⟩ := h
  have hk : boundedBy c4 v.k = true := by
    rw [hinv.k_eq]
    exact boundedBy_mul (A := c4) (B := c1) (by decide) (by decide) (by decide) (by decide) (by decide)
      (boundedBy_c1_of_within hinv.res_range)
  exact boundedBy_mul (by decide) (by decide) (by decide) (by decide) h3 hk

/-- The output of a sample is finite: it is a bounded stage, or an input up to 2^127 less one. -/
theorem finite_filterOutput {v : Vcf} {a : Sample} (h : (filtered v a).StagesBounded)
    (ha : v.mode = .lowpass ∨ boundedBy 0x7F000000 a = true) : finite (filterOutput v a) = true := by
  obtain ⟨-, -, -, h3⟩ := h
  rw [filterOutput_eq_ite]
  split_ifs with hmode
  · exact finite_of_boundedBy (by decide) h3
  · have hsum : boundedBy 0x7F7FFFFF (sub a (filtered v a).stage.u3) = true :=
      boundedBy_add (by decide) (by decide) (by decide) (by decide) (ha.resolve_left hmode)
        (boundedBy_neg (by decide) h3)
    exact finite_of_boundedBy (by decide) hsum

/-- Inside the bounds `VCF.PROC` finds every value finite that it checks. -/
theorem Vcf.StagesBounded.filterValues_finite {fs a : Sample} {v : Vcf} (h : v.StagesBounded)
    (hinv : v.Inv fs) (ha : v.mode = .lowpass ∨ boundedBy 0x7F000000 a = true) :
    (filterValues v a).all finite = true := by
  have hnext := h.filtered hinv.within_g a
  have ⟨h0, h1, h2, h3⟩ := hnext
  exact (all_finite_filterValues_iff v a).2
    ⟨finite_of_boundedBy (by decide) (h.boundedBy_feedback hinv), finite_of_boundedBy (by decide) h0,
      finite_of_boundedBy (by decide) h1, finite_of_boundedBy (by decide) h2,
      finite_of_boundedBy (by decide) h3, finite_filterOutput hnext ha⟩

/-- Settles O42: every write of the stages keeps their bounds, and inside the bounds no check of
`VCF.PROC` fails. -/
theorem filterStagesStayBounded : Obligations.FilterStagesStayBounded :=
  ⟨fun _ _ hs hb h => State.StagesSound.step hb hs.prepared h, fun _ _ hs hp hb hfin ha =>
    ⟨_, exec_vcfProc_done hp hfin (hb.filterValues_finite (hs.prepared hp).vcf ha), rfl⟩⟩

end Sys2Proof.Machine
end

section
/-! PROOFS of the matrix family (R190 to R198): the matrix commands and their encodings, the source values,
and the summation over the active slots. -/

namespace Sys2Proof.Machine

open Sys2Proof.F32

/-! ### Setting a slot and a source input (R190, R191) -/

theorem slotOf_eq {n : BitVec 2} {k : Fin 4} (h : n.toNat = k.val) : slotOf n = k := Fin.ext h

/-- Settles O43: the operand alone is checked. -/
theorem mmSetslotStoresTheRecord : Obligations.MmSetslotStoresTheRecord := by
  intro n k src dst a s hn hp
  have he : exec (.mmSetslot n src dst a) s = .next (settle s (needFinite [a]
      (.done (putMm s { s.mm with slot := s.mm.slot.set k ⟨src, dst, clamp a cNeg1 c1⟩ }) 0))) := by
    rw [← slotOf_eq hn]
    exact congrArg (answer s) (whenPrepared_of_prepared hp _)
  refine ⟨?_, fun ha => ?_, fun ha => ?_⟩
  · simp [encode, encodeHeader, encodeA, encodeB, header_eq_or]
  · rw [he, needFinite_one ha]
    rfl
  · rw [he, needFinite_of_not ha]
    rfl

theorem sourceInputInRange_iff (n : BitVec 4) :
    sourceInputInRange n = true ↔ 1 ≤ n.toNat ∧ n.toNat ≤ 5 := by
  simp [sourceInputInRange]

section
variable {n : BitVec 4} {a : Sample} {s : State}

/-- `MM.SETSRC` of a number in range, in a prepared block. -/
theorem exec_mmSetsrc_inRange (hn : sourceInputInRange n = true) (hp : s.prepared = true) :
    exec (.mmSetsrc n a) s = .next (settle s (needFinite [a]
      (.done (putMm s { s.mm with srcin := (s.mm.srcin.write n a).getD s.mm.srcin }) 0))) := by
  rw [exec_mmSetsrc, if_pos hn, whenPrepared_of_prepared hp, answer_eq]

theorem exec_mmSetsrc_done (hn : sourceInputInRange n = true) (hp : s.prepared = true)
    (ha : finite a = true) :
    exec (.mmSetsrc n a) s = .next (respond
      (putMm s { s.mm with srcin := (s.mm.srcin.write n a).getD s.mm.srcin }) 0) := by
  rw [exec_mmSetsrc_inRange hn hp, needFinite_one ha, settle_done]

theorem exec_mmSetsrc_badOperand (hn : sourceInputInRange n = true) (hp : s.prepared = true)
    (ha : finite a = false) : exec (.mmSetsrc n a) s = .next (raiseStatus .badOperand s) := by
  rw [exec_mmSetsrc_inRange hn hp, needFinite_of_not ha, settle_refuse]

theorem exec_mmSetsrc_illegal (hn : sourceInputInRange n = false) :
    exec (.mmSetsrc n a) s = .next (raiseStatus .illegal s) := by
  rw [exec_mmSetsrc, if_neg (by simp [hn]), answer_eq, settle_refuse]

end

/-- Settles O44: by the range check of the number, and each of the five inputs by its own write. -/
theorem mmSetsrcWritesOneInput : Obligations.MmSetsrcWritesOneInput := by
  refine fun a s => ⟨fun n => ?_, fun hp ha => ?_, fun n h1 h5 hp ha => ?_, fun n hn => ?_⟩
  · simp [encode, encodeHeader, encodeA, encodeB, header_eq_or]
  · exact ⟨exec_mmSetsrc_done rfl hp ha, exec_mmSetsrc_done rfl hp ha, exec_mmSetsrc_done rfl hp ha,
      exec_mmSetsrc_done rfl hp ha, exec_mmSetsrc_done rfl hp ha⟩
  · exact exec_mmSetsrc_badOperand ((sourceInputInRange_iff n).2 ⟨h1, h5⟩) hp ha
  · refine exec_mmSetsrc_illegal (Bool.eq_false_iff.2 fun h => ?_)
    obtain ⟨h1, h5⟩ := (sourceInputInRange_iff n).1 h
    omega

/-! ### Reading an accumulator (R196) -/

/-- The accumulators in the order of their codes, after the +0.0 of code 0 (R89, R196). -/
theorem Acc.read_eq_getD (a : Acc) (d : BitVec 4) :
    a.read d = [c0, a.cutoff, a.reso, a.pitch1, a.pitch2, a.ringfreq, a.pan, a.level1, a.level2,
      a.vcadecay, a.noisemod, a.fenvdepth, a.fmamt].getD d.toNat c0 := by
  have hd := d.isLt
  obtain ⟨m, hm⟩ : ∃ m, d.toNat = m := ⟨_, rfl⟩
  unfold Acc.read
  rw [hm] at hd ⊢
  interval_cases m <;> rfl

/-- Settles O47: the result is the accumulator read, and no value is checked. -/
theorem mmReadAnswersTheAccumulator : Obligations.MmReadAnswersTheAccumulator := by
  intro d s hp
  have he : exec (.mmRead d) s = .next (respond s (s.mm.acc.read d)) :=
    congrArg (answer s) (whenPrepared_of_prepared hp _)
  refine ⟨?_, ?_⟩
  · simp [encode, encodeHeader, encodeA, encodeB, header_eq_or]
  · rw [he, Acc.read_eq_getD]
    rfl

/-! ### Active slots, source values and the range of the sums (R192, R193, R198) -/

theorem Slot.isActive_iff (x : Slot) : x.isActive = true ↔
    (1 ≤ x.src.toNat ∧ x.src.toNat ≤ 6) ∧ (1 ≤ x.dst.toNat ∧ x.dst.toNat ≤ 12) := by
  simp only [Slot.isActive, Bool.and_eq_true, decide_eq_true_eq, and_assoc]

/-- Settles O45: the range of each source value follows from the invariant of the matrix. -/
theorem activeSlotsAndSourceValues : Obligations.ActiveSlotsAndSourceValues :=
  ⟨Slot.isActive_iff, fun _ => ⟨rfl, rfl, rfl, rfl, rfl, rfl⟩, fun _ _ c h => h.inUnit_srcval c⟩

/-- Settles O49: an evaluation keeps the invariant of the matrix, which bounds every accumulator. -/
theorem accumulatorsStayWithinFour : Obligations.AccumulatorsStayWithinFour := fun s hp hinv =>
  ⟨_, exec_mmEval hp, (hinv.evaluated s.draws).acc_range⟩

/-! ### The evaluation (R195) -/

theorem Bank4.any_toList_iff {α : Type} {p : α → Bool} (b : Bank4 α) :
    b.toList.any p = true ↔ ∃ k, p (b.get k) = true := by
  refine ⟨fun h => ?_, fun ⟨_, hk⟩ => b.any_toList_of_get hk⟩
  simp only [Bank4.toList, List.any_cons, List.any_nil, Bool.or_false, Bool.or_eq_true] at h
  rcases h with h | h | h | h
  · exact ⟨0, h⟩
  · exact ⟨1, h⟩
  · exact ⟨2, h⟩
  · exact ⟨3, h⟩

theorem Slot.usesRandom_iff (x : Slot) : x.usesRandom = true ↔ x.isActive = true ∧ x.src = 6 := by
  simp [Slot.usesRandom, srcRandom]

/-- Whether an active slot has source RANDOM, slot by slot (R195). -/
theorem any_usesRandom_iff (m : Mm) : m.slot.toList.any Slot.usesRandom = true ↔
    ∃ k, (m.slot.get k).isActive = true ∧ (m.slot.get k).src = 6 := by
  simp only [Bank4.any_toList_iff, Slot.usesRandom_iff]

theorem addSlot_eq (m : Mm) (d : BitVec 4) (sum : Sample) (x : Slot) : addSlot m d sum x =
    if x.isActive = true ∧ x.dst = d then add sum (mul (srcval m x.src) x.amt) else sum := by
  simp [addSlot, contribution]

section
variable (fs : Sample) (n : Nat) (m : Mm)

/-- An evaluation changes the accumulators and the random source alone. -/
theorem evaluated_frame : evaluated fs n m = { m with
    acc := (evaluated fs n m).acc
    randHold := (evaluated fs n m).randHold
    randCtr := (evaluated fs n m).randCtr } := by
  unfold evaluated advanceRandom
  split <;> rfl

@[simp] theorem evaluated_slot : (evaluated fs n m).slot = m.slot := by
  rw [evaluated_frame]

/-- Without an active RANDOM slot the random source rests. -/
theorem evaluated_not_random (h : ¬ m.slot.toList.any Slot.usesRandom = true) :
    (evaluated fs n m).randHold = m.randHold ∧ (evaluated fs n m).randCtr = m.randCtr := by
  simp [evaluated, advanceRandom, h]

/-- Every accumulator is the sum of its destination, with the advanced random source. -/
theorem read_acc_evaluated {d : BitVec 4} (h1 : 1 ≤ d.toNat) (h2 : d.toNat ≤ 12) :
    (evaluated fs n m).acc.read d = slotSum (evaluated fs n m) d :=
  Acc.read_ofFn (slotSum (advanceRandom fs n m)) h1 h2

end

theorem draws_evalState (s : State) : (evalState s).draws =
    if s.mm.slot.toList.any Slot.usesRandom = true ∧ s.mm.randCtr = 0 then s.draws + 1
    else s.draws := by
  simp [evalState, drawsNow]

/-- Settles O46: the frame of an evaluation, the random source with and without an active RANDOM slot, and
the four turns of each sum. -/
theorem mmEvalSumsTheSlots : Obligations.MmEvalSumsTheSlots := by
  refine ⟨rfl, fun s hp => ⟨_, exec_mmEval hp, ?_, fun hr => ?_, fun hr => ?_, fun d h1 h2 => ?_⟩⟩
  · exact congrArg (fun m => respond { evalState s with mm := m } 0) (evaluated_frame s.fs s.draws s.mm)
  · have hany := (any_usesRandom_iff s.mm).2 hr
    obtain ⟨-, hhold, hctr⟩ := evaluated_random s.fs s.draws hany
    exact ⟨hhold, by simp [draws_evalState, hany], hctr⟩
  · have hany := mt (any_usesRandom_iff s.mm).1 hr
    obtain ⟨hhold, hctr⟩ := evaluated_not_random s.fs s.draws s.mm hany
    exact ⟨hhold, by simp [draws_evalState, hany], hctr⟩
  · refine (read_acc_evaluated s.fs s.draws s.mm h1 h2).trans ?_
    simp only [slotSum, evaluated_slot, Bank4.toList, List.foldl_cons, List.foldl_nil, addSlot_eq]
    rfl

/-! ### Inactive slots (R192, R197) -/

/-- The active slots in index order: all that an evaluation reads of the slots. -/
def activeSlots (b : Bank4 Slot) : List Slot := b.toList.filter Slot.isActive

/-- An inactive slot in the place of another leaves the active ones as they are. -/
theorem activeSlots_set {b : Bank4 Slot} {k : Fin 4} {x : Slot} (hb : (b.get k).isActive = false)
    (hx : x.isActive = false) : activeSlots (b.set k x) = activeSlots b := by
  unfold activeSlots
  match k with
  | 0 | 1 | 2 | 3 => simp_all [Bank4.toList, Bank4.set, Bank4.get, List.filter_cons]

theorem any_usesRandom_eq (b : Bank4 Slot) :
    b.toList.any Slot.usesRandom = (activeSlots b).any Slot.usesRandom := by
  simp only [activeSlots, List.any_filter, Slot.usesRandom, ← Bool.and_assoc, Bool.and_self]
  rfl

theorem slotSum_eq (m : Mm) (d : BitVec 4) : slotSum m d = (activeSlots m.slot).foldl
    (fun sum x => if x.dst == d then add sum (contribution m x) else sum) c0 := by
  rw [activeSlots, List.foldl_filter, slotSum]
  congr 1
  funext sum x
  cases h : x.isActive <;> simp [addSlot, h]

section
variable {b : Bank4 Slot} {m : Mm}

theorem advanceRandom_slots (h : activeSlots b = activeSlots m.slot) (fs : Sample) (n : Nat) :
    advanceRandom fs n { m with slot := b } = { advanceRandom fs n m with slot := b } := by
  unfold advanceRandom
  simp only [any_usesRandom_eq, h]
  split <;> rfl

theorem slotSum_slots (h : activeSlots b = activeSlots m.slot) :
    slotSum { m with slot := b } = slotSum m := by
  funext d
  rw [slotSum_eq, slotSum_eq, ← h]
  rfl

/-- Slots with the same active ones, in the same order, evaluate to the same sums and random source. -/
theorem evaluated_slots (h : activeSlots b = activeSlots m.slot) (fs : Sample) (n : Nat) :
    evaluated fs n { m with slot := b } = { evaluated fs n m with slot := b } := by
  have hslot : activeSlots b = activeSlots (advanceRandom fs n m).slot :=
    h.trans (congrArg activeSlots (evaluated_slot fs n m).symm)
  simp only [evaluated, advanceRandom_slots h, slotSum_slots hslot]

end

/-- Settles O48: both evaluations read the same active slots. -/
theorem inactiveSlotsNeverMatter : Obligations.InactiveSlotsNeverMatter := by
  intro s k x hp hk hx
  have hset := activeSlots_set hk hx
  have he := evaluated_slots hset s.fs s.draws
  refine ⟨_, _, exec_mmEval hp, exec_mmEval hp, (congrArg Mm.acc he :),
    (congrArg Mm.randHold he :), (congrArg Mm.randCtr he :), ?_⟩
  simp only [respond_draws, draws_evalState, any_usesRandom_eq, hset]

end Sys2Proof.Machine
end

section
/-! PROOFS of the system command family (R220, R222): the two commands that only answer. -/

namespace Sys2Proof.Machine

/-- `NOP` uses no operand word, so its packet may hold any two (R82, R220). -/
theorem decodePacket_nop (w1 w2 : Word) : decodePacket ⟨0x00000000, w1, w2⟩ = .instr .nop := by
  have hd : decodePacket (encode .nop) = .instr .nop := decodePacket_encode .nop rfl
  obtain ⟨-, -, -, hany⟩ := decodedCommandIsItsPacket (encode .nop) .nop hd
  exact hany w1 w2

theorem exec_nop (s : State) : exec .nop s = .next (respond s 0) := rfl

theorem exec_rderr (s : State) : exec .rderr s = .next (respond s (resultFlags s.errflags)) := rfl

/-- Settles O18: neither command has a guard of R95, so each writes its response in every state. -/
theorem nopAndRderrOnlyAnswer : Obligations.NopAndRderrOnlyAnswer :=
  ⟨decodePacket_nop, rfl, fun s => ⟨exec_nop s, exec_rderr s⟩⟩

end Sys2Proof.Machine
end

section
/-! PROOFS of the numeric family (R232, R233, R235, R236, R238 to R240): the correct rounding of the
four operations, the constants, the exact floor, and the properties of the elementary functions. -/

namespace Sys2Proof.F32

/-! ### The four operations (R232) -/

/-- `Rounds` counts the unit of its exact result as a natural number, R232's statement as an integer. -/
theorem Rounds.correctlyRounded_of_eq {v D : Int} {d : Nat} {x : Sample} (h : Rounds v d x)
    (hd : 0 < d) (hD : (d : Int) = D) : Machine.CorrectlyRounded v D x :=
  hD ▸ h.correctlyRounded hd

/-- Settles O51: each operation rounds its exact result once; the divisor's magnitude is the unit of
the quotient. -/
theorem operationsAreCorrectlyRounded : Obligations.OperationsAreCorrectlyRounded := by
  intro a b ha hb
  have hmag : ((magnitude (magBits b) : Nat) : Int) = |value b| := by
    rw [Int.abs_eq_natAbs, natAbs_value]
  refine ⟨(add_rounds ha hb).correctlyRounded_of_eq Nat.one_pos rfl,
    (sub_rounds ha hb).correctlyRounded_of_eq Nat.one_pos rfl,
    (mul_rounds ha hb).correctlyRounded_of_eq (by positivity) (by norm_num), fun hpos => ?_,
    fun hneg => ?_⟩
  · rw [abs_of_pos hpos] at hmag
    exact (div_rounds ha hb hpos).correctlyRounded_of_eq (by omega) hmag
  · rw [abs_of_neg hneg] at hmag
    exact (div_rounds_neg ha hb hneg).correctlyRounded_of_eq (by omega) hmag

/-! ### The constants (R233) -/

/-- Settles O52: the rounding of each literal is computed. -/
theorem constantsAreTheNearestWords : Obligations.ConstantsAreTheNearestWords := by
  unfold Obligations.ConstantsAreTheNearestWords
  decide

/-! ### The floor (R235) -/

/-- A significand of at most 24 bits at any scale is rounded without an error. -/
theorem magnitude_roundMag_of_lt {k e : Nat} (hk : k < 2 ^ 24)
    (h : roundMag (k * 2 ^ e) 1 < infBits) : magnitude (roundMag (k * 2 ^ e) 1) = k * 2 ^ e := by
  obtain ⟨e', q, -, hmag, hq, hlow⟩ := roundMag_eq_scaled Nat.one_pos h
  have he : e' ≤ e := by
    by_contra hc
    have h1 : 2 ^ 23 * 2 ^ e' * 1 ≤ k * 2 ^ e := hlow (by omega)
    have h2 : 2 ^ (e + 1) ≤ 2 ^ e' := Nat.pow_le_pow_right (by decide) (by omega)
    have h3 : k * 2 ^ e < 2 ^ 24 * 2 ^ e := Nat.mul_lt_mul_of_pos_right hk (by positivity)
    rw [Nat.pow_succ] at h2
    omega
  have hsplit : k * 2 ^ e = k * 2 ^ (e - e') * 2 ^ e' := by
    rw [Nat.mul_assoc, ← Nat.pow_add, Nat.sub_add_cancel he]
  rw [hmag, hq, Nat.one_mul, hsplit, roundQuot_mul _ (by positivity)]

/-- An exact result with a significand of at most 24 bits is the value of the finite result. -/
theorem Rounds.value_eq_of_lt {v : Int} {x : Sample} {k e : Nat} (h : Rounds v 1 x)
    (hx : F32.finite x = true) (hv : v.natAbs = k * 2 ^ e) (hk : k < 2 ^ 24) : value x = v := by
  have hfin : roundMag v.natAbs 1 < infBits := by rwa [finite_iff, h.magBits_eq] at hx
  have hexact : magnitude (roundMag v.natAbs 1) = v.natAbs := by
    rw [hv] at hfin ⊢
    exact magnitude_roundMag_of_lt hk hfin
  have habs := h.abs_sub Nat.one_pos
  rw [hexact] at habs
  simpa [sub_eq_zero] using habs

/-- From 2^23 on a finite sample is an integer. -/
theorem dvd_value_or_lt (x : Sample) :
    (2 ^ 149 : Int) ∣ value x ∨ (value x).natAbs < 2 ^ 23 * 2 ^ 149 := by
  rcases Nat.lt_or_ge (magnitude (magBits x)) (2 ^ 23 * 2 ^ 149) with h | h
  · exact .inr (by rwa [natAbs_value])
  · refine .inl (Int.natAbs_dvd_natAbs.1 ?_)
    rw [natAbs_value]
    exact dvd_magnitude h

/-- The floor of a finite sample is the integer itself: either the sample is that integer, or the
integer has a significand of at most 24 bits. -/
theorem value_floor {x : Sample} (hx : finite x = true) :
    value (floor x) = floorInt x * 2 ^ 149 := by
  obtain ⟨hle, hlt⟩ := floorInt_bounds x
  rcases dvd_value_or_lt x with hdvd | hsmall
  · have hint : floorInt x * 2 ^ 149 = value x := Int.ediv_mul_cancel hdvd
    rw [hint]
    exact ((floor_rounds hx).value_eq Nat.one_pos hx (by rw [hint]; simp)).2
  · exact (floor_rounds hx).value_eq_of_lt (finite_floor hx) (k := (floorInt x).natAbs) (e := 149)
      (by rw [Int.natAbs_mul]; rfl) (by omega)

/-- Settles O54: the value of the floor is the integer, and the integer is the greatest one not above
the sample. -/
theorem floorIsExact : Obligations.FloorIsExact := by
  intro x hx
  obtain ⟨hle, hlt⟩ := floorInt_bounds x
  rw [value_floor hx, Int.mul_comm (2 ^ 149)]
  exact ⟨finite_floor hx, rfl, hle, hlt⟩

/-! ### The place of a pattern in the order (R234) -/

theorem key_pack_false {m : Nat} (hm : m ≤ infBits) : key (pack false m) = m := by
  have hlt := hm.trans_lt infBits_lt
  simp [key, signBit_pack _ hlt, magBits_pack _ hlt]

theorem le_iff_key {a b : Sample} (ha : isNaN a = false) (hb : isNaN b = false) :
    le a b = true ↔ key a ≤ key b := by
  simp [le, ha, hb]

theorem lt_iff_key {a b : Sample} (ha : isNaN a = false) (hb : isNaN b = false) :
    lt a b = true ↔ key a < key b := by
  simp [lt, ha, hb]

theorem key_le_of_le {a b : Sample} (h : le a b = true) : key a ≤ key b := by
  simp only [le, Bool.and_eq_true, decide_eq_true_eq] at h
  exact h.2

theorem key_lt_of_lt {a b : Sample} (h : lt a b = true) : key a < key b := by
  simp only [lt, Bool.and_eq_true, decide_eq_true_eq] at h
  exact h.2

theorem key_c0 : key c0 = 0 := by decide

/-- Samples without a sign are ordered as their magnitude bits are. -/
theorem le_pack_false {m n : Nat} (hmn : m ≤ n) (hn : n ≤ infBits) :
    le (pack false m) (pack false n) = true := by
  have hm := hmn.trans hn
  rw [le_iff_key (isNaN_pack _ hm) (isNaN_pack _ hn), key_pack_false hm, key_pack_false hn]
  exact Int.ofNat_le.2 hmn

theorem lt_c0_pack_false {m : Nat} (h0 : 0 < m) (hm : m ≤ infBits) :
    lt c0 (pack false m) = true := by
  rw [lt_iff_key (by decide) (isNaN_pack _ hm), key_pack_false hm, key_c0]
  exact Int.natCast_pos.2 h0

/-- A sample before 0 in the order has its sign bit set, and a magnitude. -/
theorem key_neg_iff (x : Sample) : key x < 0 ↔ signBit x = true ∧ magBits x ≠ 0 := by
  unfold key
  cases signBit x with
  | false => simp
  | true => simp; omega

theorem key_pos_iff (x : Sample) : 0 < key x ↔ signBit x = false ∧ magBits x ≠ 0 := by
  unfold key
  cases signBit x with
  | false => simp; omega
  | true => simp

theorem key_eq_zero_iff (x : Sample) : key x = 0 ↔ magBits x = 0 := by
  unfold key
  cases signBit x <;> simp

end Sys2Proof.F32

namespace Sys2Proof.Num

open Sys2Proof.F32

/-! ### Sine and tanh (R236, R238) -/

theorem magBits_c1_le : magBits c1 ≤ infBits := by decide

theorem tanhMag_mono {m n : Nat} (h : m ≤ n) : tanhMag m ≤ tanhMag n := by
  have hrise := Config.tanhRise.monotone h
  unfold tanhMag
  split_ifs <;> omega

theorem tanhMag_lt (m : Nat) : tanhMag m < 2 ^ 31 :=
  (tanhMag_le m).trans_lt (magBits_lt c1)

theorem signBit_tanh (x : Sample) : signBit (tanh x) = signBit x := signBit_pack _ (tanhMag_lt _)

theorem magBits_tanh (x : Sample) : magBits (tanh x) = tanhMag (magBits x) :=
  magBits_pack _ (tanhMag_lt _)

theorem isNaN_tanh (x : Sample) : isNaN (tanh x) = false :=
  isNaN_pack _ ((tanhMag_le _).trans magBits_c1_le)

theorem inUnit_tanh (x : Sample) : inUnit (tanh x) = true := boundedBy_c1_tanh x

theorem tanh_neg (x : Sample) : tanh (neg x) = neg (tanh x) := by
  rw [tanh, neg, neg, signBit_tanh, magBits_tanh, signBit_pack _ (magBits_lt x),
    magBits_pack _ (magBits_lt x)]

/-- `tanh` keeps the order: of two samples of one sign by the rise of its magnitude, across 0 by its
sign. -/
theorem key_tanh_mono {x y : Sample} (h : key x ≤ key y) : key (tanh x) ≤ key (tanh y) := by
  have hxy := @tanhMag_mono (magBits x) (magBits y)
  have hyx := @tanhMag_mono (magBits y) (magBits x)
  have hzero : tanhMag 0 = 0 := rfl
  unfold key at h ⊢
  rw [signBit_tanh, signBit_tanh, magBits_tanh, magBits_tanh]
  cases hx : signBit x <;> cases hy : signBit y <;>
    simp only [hx, hy, Bool.false_eq_true, if_true, if_false] at h ⊢
  · omega
  · have hx0 : magBits x = 0 := by omega
    have hy0 : magBits y = 0 := by omega
    simp [hx0, hy0, hzero]
  · omega
  · omega

/-- Settles O55: the sine is restricted to [-1,1], and `tanh` has the sign of its argument and a
magnitude that rises with the argument's, up to 1. -/
theorem sineAndTanhProperties : Obligations.SineAndTanhProperties := by
  refine ⟨fun x _ => ⟨finite_of_inUnit (inUnit_sin x), inUnit_sin x⟩, if_pos rfl, fun x _ =>
    ⟨finite_of_inUnit (inUnit_tanh x), inUnit_tanh x, tanh_neg x⟩, rfl, fun x y _ _ h => ?_⟩
  rw [le_iff_key (isNaN_tanh x) (isNaN_tanh y)]
  exact key_tanh_mono (key_le_of_le h)

/-! ### The decay power (R239) -/

/-- The magnitude bits of `NUM.pow(0.001, y)` for `y` above 0. -/
def powMag (m : Nat) : Nat := magBits c1 - min (magBits c1) (Config.powFall m)

theorem pow_eq_powMag {y : Sample} (h : lt c0 y = true) :
    pow c0_001 y = pack false (powMag (magBits y)) := by
  simp [pow, h, powMag]

theorem powMag_le (m : Nat) : powMag m ≤ infBits := (Nat.sub_le _ _).trans magBits_c1_le

theorem powMag_anti {m n : Nat} (h : m ≤ n) : powMag n ≤ powMag m := by
  have hfall := Config.powFall.monotone h
  unfold powMag
  omega

theorem signBit_of_lt_c0 {y : Sample} (h : lt c0 y = true) : signBit y = false :=
  ((key_pos_iff y).1 (key_c0 ▸ key_lt_of_lt h)).1

/-- Settles O57: above 0 the power is `powMag` of the magnitude bits, which are ordered as the
arguments are, +Inf included. -/
theorem decayPowerProperties : Obligations.DecayPowerProperties := by
  refine ⟨fun y hy => ⟨finite_of_within (by decide) (by decide) (pow_range hy), pow_range hy⟩,
    fun y z hy hyz => ?_⟩
  have hz := lt_of_lt_of_le hy hyz
  have hmag : magBits y ≤ magBits z :=
    magBits_le_of_le (.inl (signBit_of_lt_c0 hy)) (.inl (signBit_of_lt_c0 hz)) hyz
  rw [pow_eq_powMag hy, pow_eq_powMag hz]
  exact le_pack_false (powMag_anti hmag) (powMag_le _)

/-! ### The power of two (R240) -/

/-- The magnitude bits of `NUM.exp2`, which is never negative. -/
def exp2Mag (x : Sample) : Nat :=
  if isZero x then magBits c1
  else if le c128 x then infBits
  else if signBit x then magBits c1 - min (exp2FallMax x) (Config.exp2Fall (magBits x))
  else min infBits (magBits c1 + Config.exp2Rise (magBits x))

theorem exp2_eq_exp2Mag (x : Sample) : exp2 x = pack false (exp2Mag x) := by
  unfold exp2 exp2Mag
  split_ifs <;> rfl

theorem exp2Mag_of_zero {x : Sample} (h : key x = 0) : exp2Mag x = magBits c1 :=
  if_pos (decide_eq_true ((key_eq_zero_iff x).1 h))

theorem exp2Mag_of_neg {x : Sample} (h : key x < 0) :
    exp2Mag x = magBits c1 - min (exp2FallMax x) (Config.exp2Fall (magBits x)) := by
  obtain ⟨hs, hm⟩ := (key_neg_iff x).1 h
  have h128 : le c128 x = false := by
    by_contra hc
    have := key_le_of_le (by simpa using hc)
    rw [show key c128 = 0x43000000 by decide] at this
    omega
  simp [exp2Mag, isZero, hm, hs, h128]

theorem exp2Mag_of_pos {x : Sample} (h : 0 < key x) :
    exp2Mag x = if le c128 x then infBits
      else min infBits (magBits c1 + Config.exp2Rise (magBits x)) := by
  obtain ⟨hs, hm⟩ := (key_pos_iff x).1 h
  simp [exp2Mag, isZero, hm, hs]

theorem exp2Mag_le (x : Sample) : exp2Mag x ≤ infBits := by
  have h1 := magBits_c1_le
  unfold exp2Mag
  split_ifs <;> omega

/-- Up to 0 `exp2` is at most 1. -/
theorem exp2Mag_le_one {x : Sample} (h : key x ≤ 0) : exp2Mag x ≤ magBits c1 := by
  rcases h.lt_or_eq with hneg | h0
  · rw [exp2Mag_of_neg hneg]
    exact Nat.sub_le _ _
  · exact (exp2Mag_of_zero h0).le

/-- From 0 on `exp2` is at least 1. -/
theorem one_le_exp2Mag {x : Sample} (h : 0 ≤ key x) : magBits c1 ≤ exp2Mag x := by
  rcases h.lt_or_eq with hpos | h0
  · have h1 := magBits_c1_le
    rw [exp2Mag_of_pos hpos]
    split_ifs <;> omega
  · exact (exp2Mag_of_zero h0.symm).ge

/-- Below 0 the fall is smaller at the greater argument. -/
theorem exp2Mag_mono_neg {x y : Sample} (h : le x y = true) (hy : key y < 0) :
    exp2Mag x ≤ exp2Mag y := by
  have hk := key_le_of_le h
  have hmag : magBits y ≤ magBits x := by
    simp only [key, ((key_neg_iff x).1 (hk.trans_lt hy)).1, ((key_neg_iff y).1 hy).1, if_true] at hk
    omega
  have hfall := Config.exp2Fall.monotone hmag
  have hmax := exp2FallMax_anti h
  rw [exp2Mag_of_neg (hk.trans_lt hy), exp2Mag_of_neg hy]
  omega

/-- Above 0 the rise is greater at the greater argument, and from 128 on it is +Inf. -/
theorem exp2Mag_mono_pos {x y : Sample} (h : le x y = true) (hx : 0 < key x) :
    exp2Mag x ≤ exp2Mag y := by
  have hk := hx.trans_le (key_le_of_le h)
  have hmag := magBits_le_of_le (.inl ((key_pos_iff x).1 hx).1) (.inl ((key_pos_iff y).1 hk).1) h
  have hrise := Config.exp2Rise.monotone hmag
  rw [exp2Mag_of_pos hx, exp2Mag_of_pos hk]
  split_ifs with h1 h2
  · exact le_rfl
  · exact absurd (le_trans h1 h) h2
  · exact min_le_left _ _
  · omega

/-- `exp2` keeps the order: on each side of 0 by its fall and its rise, across 0 through 1. -/
theorem exp2Mag_mono {x y : Sample} (h : le x y = true) : exp2Mag x ≤ exp2Mag y := by
  by_cases hy : key y < 0
  · exact exp2Mag_mono_neg h hy
  · by_cases hx : 0 < key x
    · exact exp2Mag_mono_pos h hx
    · exact (exp2Mag_le_one (by omega)).trans (one_le_exp2Mag (by omega))

/-- From -149 on `exp2` is above 0: below 0 its fall stops short, and from 0 on it is at least 1. -/
theorem exp2Mag_pos {x : Sample} (h : le cNeg149 x = true) : 0 < exp2Mag x := by
  rcases lt_or_ge (key x) 0 with hneg | hpos
  · have hfall := exp2FallMax_lt h
    rw [exp2Mag_of_neg hneg]
    omega
  · exact (show 0 < magBits c1 by decide).trans_le (one_le_exp2Mag hpos)

theorem exp2Mag_of_ge_128 {x : Sample} (h : le c128 x = true) : exp2Mag x = infBits := by
  have hk : 0 < key x := (show 0 < key c128 by decide).trans_le (key_le_of_le h)
  rw [exp2Mag_of_pos hk, if_pos h]

/-- Settles O58: `exp2` is the sample of sign 0 with the magnitude bits `exp2Mag`, and these are
ordered as the arguments are. -/
theorem exp2Properties : Obligations.Exp2Properties := by
  refine ⟨by decide, by decide, fun x _ => ?_, fun x _ h => ?_, fun x y _ _ h => ?_, fun x _ h => ?_⟩
  · rw [exp2_eq_exp2Mag, show c0 = pack false 0 by decide]
    exact le_pack_false (Nat.zero_le _) (exp2Mag_le x)
  · rw [exp2_eq_exp2Mag]
    exact lt_c0_pack_false (exp2Mag_pos h) (exp2Mag_le x)
  · rw [exp2_eq_exp2Mag, exp2_eq_exp2Mag]
    exact le_pack_false (exp2Mag_mono h) (exp2Mag_le y)
  · rw [exp2_eq_exp2Mag, exp2Mag_of_ge_128 h]
    decide

end Sys2Proof.Num
end

section
/-! PROOFS of the exception family (R301, R306): what a refused step writes. -/

namespace Sys2Proof.Machine

/-- The codes and sticky bits of the refusals (R24, R300). -/
theorem Status.code_sticky_mem_of_ne_ok {st : Status} (h : st ≠ .ok) :
    (st.code, st.sticky) ∈ [(0x01#8, 0b001#3), (0x02#8, 0b010#3), (0x03#8, 0b100#3)] := by
  cases st with
  | ok => exact absurd rfl h
  | illegal | notPrepared | badOperand => decide

/-- A command that does not end with `OK` has raised a status over the state before it: a command that is
done responds `OK`. -/
theorem exec_eq_raiseStatus_of_status_ne_ok {i : Instr} {s t : State} (h : exec i s = .next t)
    (hst : t.rspStatus ≠ Status.ok.code) : ∃ st, st ≠ Status.ok ∧ t = raiseStatus st s := by
  rcases exec_cases i s with ⟨u, w, he, -, -⟩ | ⟨st, hne, he⟩ <;> rw [he] at h <;> cases h
  · exact absurd rfl hst
  · exact ⟨st, hne, rfl⟩

/-- The same of a step that takes a packet: a packet that is no command raises `ILLEGAL`. -/
theorem step_eq_raiseStatus_of_status_ne_ok {s t : State} {p : Packet} {rest : List Packet}
    (hport : s.port = p :: rest) (h : step s = .next t) (hst : t.rspStatus ≠ Status.ok.code) :
    ∃ st, st ≠ Status.ok ∧ t = raiseStatus st { s with port := rest } := by
  rw [step_of_packet hport] at h
  cases hd : decodePacket p with
  | instr i =>
    rw [hd] at h
    exact exec_eq_raiseStatus_of_status_ne_ok h hst
  | refused e =>
    rw [hd] at h
    cases h
    exact ⟨.illegal, by decide, rfl⟩

/-- Settles O10: a refused step raises a status over the state with the packet taken, and that writes the
code, the zero result and the sticky bit alone. -/
theorem refusedCommandWritesOnlyItsResponse : Obligations.RefusedCommandWritesOnlyItsResponse := by
  intro s t p rest hport h hst
  obtain ⟨st, hne, rfl⟩ := step_eq_raiseStatus_of_status_ne_ok hport h hst
  exact ⟨(st.code, st.sticky), Status.code_sticky_mem_of_ne_ok hne, rfl⟩

end Sys2Proof.Machine
end

section
/-! PROOFS of the reset family (R40, R332): what power-on reset leaves unspecified influences no
response. -/

namespace Sys2Proof.Machine

/-! ### States that no command can tell apart (R332) -/

theorem State.SameVisible.refl (s : State) : s.SameVisible s :=
  ⟨rfl, rfl, rfl, rfl, rfl, rfl, fun _ => rfl⟩

section
variable {s s' : State}

theorem State.SameVisible.respond (h : s.SameVisible s') (w : Word) :
    (respond s w).SameVisible (respond s' w) :=
  { h with
    rspStatus := rfl
    rspResult := rfl
    all := fun hp => congrArg (Machine.respond · w) (h.all hp) }

theorem State.SameVisible.raiseStatus (h : s.SameVisible s') (st : Status) :
    (raiseStatus st s).SameVisible (raiseStatus st s') :=
  { h with
    errflags := congrArg (· ||| st.sticky) h.errflags
    rspStatus := rfl
    rspResult := rfl
    all := fun hp => congrArg (Machine.raiseStatus st) (h.all hp) }

theorem State.SameVisible.setPort (h : s.SameVisible s') (rest : List Packet) :
    State.SameVisible { s with port := rest } { s' with port := rest } :=
  { h with
    port := rfl
    all := fun hp => by rw [h.all hp] }

/-- `PREPARE` writes every element that reset leaves unspecified (R41), so nothing of them is left. -/
theorem State.SameVisible.preparedState_eq (h : s.SameVisible s') (a fc g : Sample) :
    preparedState s a fc g = preparedState s' a fc g := by
  simp [preparedState, h.errflags, h.rspStatus, h.rspResult, h.port, h.draws]

end

/-! ### Commands keep such states alike -/

/-- Both answer a next state, and no command can tell the two apart. -/
def AnsweredAlike (r r' : Result) : Prop :=
  ∃ t t' : State, r = .next t ∧ r' = .next t' ∧ t.SameVisible t'

section
variable {s s' : State}

theorem State.SameVisible.answeredAlike (h : s.SameVisible s') :
    AnsweredAlike (.next s) (.next s') := ⟨s, s', rfl, rfl, h⟩

theorem State.SameVisible.answer (h : s.SameVisible s') (r : Reply) :
    AnsweredAlike (answer s r) (answer s' r) := by
  cases r with
  | done t w => exact (State.SameVisible.refl _).answeredAlike
  | refuse st => exact (h.raiseStatus st).answeredAlike

/-- The three commands that are accepted before `PREPARE` (R303). -/
theorem eq_of_needsPrepare_eq_false {i : Instr} (h : i.needsPrepare = false) :
    i = .nop ∨ i = .rderr ∨ ∃ a, i = .prepare a := by
  cases i with
  | nop => exact .inl rfl
  | rderr => exact .inr (.inl rfl)
  | prepare a => exact .inr (.inr ⟨a, rfl⟩)
  | _ => cases h

/-- Before `PREPARE` a command that needs it is refused by the first two steps of R95, which read nothing
but the command: the order of the checks keeps the unspecified elements out of the answer. -/
theorem exec_eq_refuse_of_not_prepared {i : Instr} (hn : i.needsPrepare = true)
    (hp : s.prepared = false) :
    exec i s = answer s (.refuse (if i.wellFormed = false then .illegal else .notPrepared)) := by
  obtain ⟨r, he, hr⟩ := exec_status i s
  have hst : r.status = if i.wellFormed = false then .illegal else .notPrepared := by
    simp [hr, statusOf, hn, hp]
  rw [he, ← hst]
  cases r with
  | refuse st => rfl
  | done t w => split at hst <;> cases hst

/-- The replies of `PREPARE` are the same reply: its checks read its operand alone. -/
theorem State.SameVisible.exec_prepare (h : s.SameVisible s') (a : Sample) :
    AnsweredAlike (exec (.prepare a) s) (exec (.prepare a) s') := by
  simp only [exec, execPrepare, h.preparedState_eq]
  exact h.answer _

theorem State.SameVisible.exec (h : s.SameVisible s') (i : Instr) :
    AnsweredAlike (exec i s) (exec i s') := by
  cases hp : s.prepared with
  | true =>
    obtain ⟨r, he, -⟩ := exec_eq_answer i s
    rw [← h.all hp, he]
    exact (State.SameVisible.refl s).answer r
  | false =>
    cases hn : i.needsPrepare with
    | true =>
      rw [exec_eq_refuse_of_not_prepared hn hp, exec_eq_refuse_of_not_prepared hn (h.prepared ▸ hp)]
      exact h.answer _
    | false =>
      rcases eq_of_needsPrepare_eq_false hn with rfl | rfl | ⟨a, rfl⟩
      · exact (h.respond 0).answeredAlike
      · rw [exec_rderr, exec_rderr, h.errflags]
        exact (h.respond _).answeredAlike
      · exact h.exec_prepare a

/-! ### Steps and runs keep such states alike -/

theorem State.SameVisible.step (h : s.SameVisible s') : AnsweredAlike (step s) (step s') := by
  cases hport : s.port with
  | nil =>
    rw [step_of_idle hport, step_of_idle (h.port ▸ hport)]
    exact h.answeredAlike
  | cons p rest =>
    rw [step_of_packet hport, step_of_packet (h.port ▸ hport)]
    cases decodePacket p with
    | instr i => exact (h.setPort rest).exec i
    | refused e => exact (h.setPort rest).answer _

theorem State.SameVisible.run (h : s.SameVisible s') (n : Nat) :
    AnsweredAlike (run n s) (run n s') := by
  induction n generalizing s s' with
  | zero => exact h.answeredAlike
  | succ n ih =>
    obtain ⟨t, t', hs, hs', ht⟩ := h.step
    rw [run_succ_of_step hs, run_succ_of_step hs']
    exact ih ht

end

/-- Settles O15: a prepared block is equal in both states; before that a command is refused by checks that
read the command alone, reads visible elements, or is a `PREPARE`, which makes the states equal. -/
theorem unspecifiedStateIsUnobservable : Obligations.UnspecifiedStateIsUnobservable :=
  fun n _ _ h => h.run n

end Sys2Proof.Machine
end
